-- ==== Sys2Proof/Word.lean ====
section
/-! DEFINITION. The word of the machine: the one unit of addressing and of transfer (spec 20_memory.md R50). -/

namespace Sys2Proof

/-- A data word, a memory word, a requester register and the address port: the unsigned value (R12) of `XLEN`
bits. `XLEN` is a parameter of the machine (R11), so it stands in `Config.xlen` and not in this type; that the
words of a state are below `2^XLEN` is the invariant `WordsFit` (DESIGN CHOICE, log 31). -/
abbrev Word := Nat

/-- The command word `op, addr, wdata` of the request port (R73): the unsigned value of `2 + 2*XLEN` bits. -/
abbrev CommandWord := Nat

/-- The `XLEN` bits of a word. -/
def bitsOf (xlen : Nat) (v : Word) : BitVec xlen := BitVec.ofNat xlen v

end Sys2Proof
end

