-- ==== Sys2Proof/Config.lean ====
section
/-! DEFINITION. What is fixed for one machine (the configuration of 10_state.md R25 and the parameters of
00_scope.md R11) and the free values of the model. -/

namespace Sys2Proof

/-- The parameter `OPC` of 30_encoding.md R82: the 3-bit opcode value of each requester instruction. -/
structure OpcodeMap where
  add  : BitVec 3
  nand : BitVec 3
  lw   : BitVec 3
  sw   : BitVec 3
  beq  : BitVec 3
  jalr : BitVec 3
  halt : BitVec 3
  noop : BitVec 3
  deriving DecidableEq, Repr

/-- The opcode values in the order of the default numbering. -/
def OpcodeMap.values (m : OpcodeMap) : List (BitVec 3) :=
  [m.add, m.nand, m.lw, m.sw, m.beq, m.jalr, m.halt, m.noop]

/-- `OPC` is a bijection from the eight mnemonics to `0 .. 7` (D26): eight different 3-bit values. -/
abbrev OpcodeMap.wf (m : OpcodeMap) : Prop := m.values.Nodup

/-- The default numbering of R82 (the LC-2K order). PRESUMED, unsafe (log 6): not in the source. -/
def OpcodeMap.lc2k : OpcodeMap :=
  { add := 0, nand := 1, lw := 2, sw := 3, beq := 4, jalr := 5, halt := 6, noop := 7 }

/-- The configuration of one instance of CC and its requester (R9, R11, R25). `B` and `S` are powers of
two, so they are held by their exponents `b` and `s` (R10): a block size or set count for which the spec
gives no `log2` (R162) cannot be written down (log 7). -/
structure Config where
  /-- `b = log2 B` (R10). -/
  blockOffsetBits : Nat
  /-- `s = log2 S` (R10). -/
  setIndexBits : Nat
  /-- `A`, the number of lines in each set (R9). -/
  associativity : Nat
  /-- `XLEN` (R11): the width in bits of a word. -/
  xlen : Nat
  /-- `MEM_WORDS` (R11). -/
  memWords : Nat
  /-- `NUMREGS` (R11). -/
  numRegs : Nat
  /-- `REG_INIT` (R11). -/
  regInit : Word
  /-- `MEM_FILL` (R11). -/
  memFill : Word
  /-- `OPC` (R11). -/
  opc : OpcodeMap
  deriving DecidableEq, Repr

/-- `B`, the number of words in a block (R9). -/
def Config.blockSize (c : Config) : Nat := 2 ^ c.blockOffsetBits

/-- `S`, the number of sets (R9). -/
def Config.setCount (c : Config) : Nat := 2 ^ c.setIndexBits

/-- The constraints of R9 and R11 that the exponents do not already carry, and that the two words among the
parameters have `XLEN` bits. -/
abbrev Config.constraints (c : Config) : Prop :=
  1 ≤ c.associativity ∧ 25 ≤ c.xlen ∧ (1 ≤ c.memWords ∧ c.memWords ≤ 2 ^ (c.xlen - 1)) ∧
    (1 ≤ c.numRegs ∧ c.numRegs ≤ 8) ∧ c.opc.wf ∧ c.regInit < 2 ^ c.xlen ∧ c.memFill < 2 ^ c.xlen

/-- The test of the constraints. -/
def Config.check (c : Config) : Bool := decide c.constraints

/-- The configuration passes the check. CC is defined only over such configurations (R161). -/
abbrev Config.wf (c : Config) : Prop := c.check = true

/-- The configuration `State.reset` carries: `B = 4`, `S = 8` (the geometry of the spec's worked example,
R72), `A = 2` (DESIGN CHOICE, log 2), `MEM_WORDS = 65536` (PRESUMED, log 2), and the defaults of R11, `XLEN = 32`
among them (PRESUMED, log 1). No statement over all states depends on it. -/
def Config.reference : Config :=
  { blockOffsetBits := 2, setIndexBits := 3, associativity := 2, xlen := 32, memWords := 65536, numRegs := 8,
    regInit := 0, memFill := 0, opc := .lc2k }

/-- Free value: `resp_rdata` of the n-th unspecified response (R76 leaves it unspecified after STORE and
FLUSH; U13: any value), `XLEN` bits. Nothing constrains it (log 13). -/
opaque Config.freeRdata (xlen : Nat) : Nat → BitVec xlen

/-- Free value: `resp_hit` of the n-th unspecified response (R76 leaves it unspecified after FLUSH;
U13: any value). Nothing constrains it (log 13). -/
opaque Config.freeHit : Nat → Bool

end Sys2Proof
end

