-- ==== Sys2Proof/Syntax.lean ====
section
/-! DEFINITION. The instructions: one constructor per row of spec/opcode_table.json, and the errors a decoder
answers by name. Fields an instruction ignores (30_encoding.md R79, R81) are no part of its syntax. -/

namespace Sys2Proof

/-- The four commands of CC's request port (30_encoding.md R74) and the eight instructions of the reference
requester (R82). `field0` and `field1` are register indices; `field2` is kept as the 16 bits of the word,
read as a destination index by ADD and NAND and as a signed immediate by LW, SW and BEQ (R81). -/
inductive Instr where
  /-- Instruction fetch of the word at `addr` (R122). -/
  | ifetch (addr : Word)
  /-- The LW access (R123). -/
  | load (addr : Word)
  /-- The SW access (R124). -/
  | store (addr : Word) (wdata : Word)
  /-- The halt flush (R125). -/
  | flush
  /-- `x[field2] <- x[field0] + x[field1]` (R143). -/
  | add (field0 : BitVec 3) (field1 : BitVec 3) (field2 : BitVec 16)
  /-- `x[field2] <- ~(x[field0] & x[field1])` (R144). -/
  | nand (field0 : BitVec 3) (field1 : BitVec 3) (field2 : BitVec 16)
  /-- Load `x[field0]` from `x[field1] + sext(field2)` (R145). -/
  | lw (field0 : BitVec 3) (field1 : BitVec 3) (field2 : BitVec 16)
  /-- Store `x[field0]` at `x[field1] + sext(field2)` (R146). -/
  | sw (field0 : BitVec 3) (field1 : BitVec 3) (field2 : BitVec 16)
  /-- Branch by `sext(field2)` if `x[field0] = x[field1]` (R148). -/
  | beq (field0 : BitVec 3) (field1 : BitVec 3) (field2 : BitVec 16)
  /-- Link in `x[field0]`, jump to `x[field1]` (R147). -/
  | jalr (field0 : BitVec 3) (field1 : BitVec 3)
  /-- Flush, report, stop (R150). -/
  | halt
  /-- No effect but the advance of the pc (R149). -/
  | noop
  deriving DecidableEq, Repr

/-- The eight values the 3-bit `opcode` field selects from (R82). -/
inductive Opcode where
  | add | nand | lw | sw | beq | jalr | halt | noop
  deriving DecidableEq, Repr

/-- The bits an instruction is read from: a memory word fetched by the requester (R80), or a command word
offered on the request port (R73). -/
inductive Code where
  | word (w : Word)
  | command (c : CommandWord)
  deriving DecidableEq, Repr

/-- Why a fetched word is a reserved encoding of the requester (R83). -/
inductive DecodeError where
  /-- Some bit above bit 24 is set (R83 (a)). -/
  | highBitsSet
  /-- The destination of ADD or NAND is not in `0 .. NUMREGS-1` (R83 (b)). -/
  | destinationNotARegister
  /-- A register field the instruction uses is not below `NUMREGS` (R83 (c)). -/
  | fieldNotARegister
  /-- The opcode value is not in `OPC`: only with a map that is no bijection, which no well-formed
  configuration has (D26). -/
  | opcodeUnassigned
  deriving DecidableEq, Repr

end Sys2Proof
end

