-- ==== Sys2Proof/WellFormed.lean ====
section
/-! DEFINITION. Which instructions name only registers that exist (30_encoding.md R83 (b), (c)), and
which have operands as wide as the ports (R73). -/

namespace Sys2Proof

/-- The register fields an instruction reads or writes through (R81). -/
def Instr.registerFields : Instr → List (BitVec 3)
  | .ifetch _ => []
  | .load _ => []
  | .store _ _ => []
  | .flush => []
  | .add f0 f1 _ => [f0, f1]
  | .nand f0 f1 _ => [f0, f1]
  | .lw f0 f1 _ => [f0, f1]
  | .sw f0 f1 _ => [f0, f1]
  | .beq f0 f1 _ => [f0, f1]
  | .jalr f0 f1 => [f0, f1]
  | .halt => []
  | .noop => []

/-- The `field2` an instruction uses as its destination index (R81): ADD and NAND only. -/
def Instr.destinationField : Instr → Option (BitVec 16)
  | .add _ _ f2 => some f2
  | .nand _ _ f2 => some f2
  | .ifetch _ => none
  | .load _ => none
  | .store _ _ => none
  | .flush => none
  | .lw _ _ _ => none
  | .sw _ _ _ => none
  | .beq _ _ _ => none
  | .jalr _ _ => none
  | .halt => none
  | .noop => none

/-- Every register field is below `NUMREGS` (R83 (c)). -/
def Instr.fieldsAreRegisters (numRegs : Nat) (i : Instr) : Bool :=
  i.registerFields.all fun f => f.toNat < numRegs

/-- The destination index `sext_16(field2)` is in `0 .. NUMREGS-1` (R81, R83 (b)). -/
def Instr.destinationIsRegister (numRegs : Nat) (i : Instr) : Bool :=
  match i.destinationField with
  | none => true
  | some f2 => decide (0 ≤ f2.toInt ∧ f2.toInt < (numRegs : Int))

/-- The instruction is no reserved encoding with `NUMREGS = numRegs` (R83). Commands name no register (R79). -/
def Instr.namesRegisters (numRegs : Nat) (i : Instr) : Bool :=
  i.fieldsAreRegisters numRegs && i.destinationIsRegister numRegs

/-- `addr` and `wdata` of a command have `XLEN` bits (R73). The fields of the requester's instructions have their
widths by their types. -/
def Instr.operandsFit (xlen : Nat) : Instr → Bool
  | .ifetch a => decide (a < 2 ^ xlen)
  | .load a => decide (a < 2 ^ xlen)
  | .store a d => decide (a < 2 ^ xlen) && decide (d < 2 ^ xlen)
  | .flush => true
  | .add _ _ _ => true
  | .nand _ _ _ => true
  | .lw _ _ _ => true
  | .sw _ _ _ => true
  | .beq _ _ _ => true
  | .jalr _ _ => true
  | .halt => true
  | .noop => true

/-- The instruction can be written in the encodings of a machine with configuration `c`. -/
def Instr.wellFormed (c : Config) (i : Instr) : Bool := i.namesRegisters c.numRegs && i.operandsFit c.xlen

end Sys2Proof
end

