-- ==== Sys2Proof/Decode.lean ====
section
/-! DEFINITION. The decoder (30_encoding.md R73, R74, R80 to R83; 43_requester.md R142), total and rejecting by
name, and the encoder written from the same tables. -/

namespace Sys2Proof

/-- `w[24:0]`, the encoding (R80). -/
def encodedBits (w : Word) : BitVec 25 := BitVec.ofNat 25 w

/-- `w[24:22]` (R80). -/
def opcodeField (w : Word) : BitVec 3 := (encodedBits w).extractLsb' 22 3

/-- `w[21:19]` (R80). -/
def field0Of (w : Word) : BitVec 3 := (encodedBits w).extractLsb' 19 3

/-- `w[18:16]` (R80). -/
def field1Of (w : Word) : BitVec 3 := (encodedBits w).extractLsb' 16 3

/-- `w[15:0]` (R80). -/
def field2Of (w : Word) : BitVec 16 := (encodedBits w).extractLsb' 0 16

/-- `w[XLEN-1:25]`, no part of the encoding (R80). -/
def highBits (w : Word) : Nat := w >>> 25

/-- The instruction an opcode value selects through `OPC` (R82). -/
def decodeOpcode (m : OpcodeMap) (v : BitVec 3) : Option Opcode :=
  if v = m.add then some .add
  else if v = m.nand then some .nand
  else if v = m.lw then some .lw
  else if v = m.sw then some .sw
  else if v = m.beq then some .beq
  else if v = m.jalr then some .jalr
  else if v = m.halt then some .halt
  else if v = m.noop then some .noop
  else none

/-- The opcode value of an instruction under `OPC` (R82). -/
def encodeOpcode (m : OpcodeMap) : Opcode → BitVec 3
  | .add => m.add
  | .nand => m.nand
  | .lw => m.lw
  | .sw => m.sw
  | .beq => m.beq
  | .jalr => m.jalr
  | .halt => m.halt
  | .noop => m.noop

/-- The instruction of an opcode with the fields of `w` (R81): ignored fields are dropped. -/
def assemble (o : Opcode) (w : Word) : Instr :=
  match o with
  | .add => .add (field0Of w) (field1Of w) (field2Of w)
  | .nand => .nand (field0Of w) (field1Of w) (field2Of w)
  | .lw => .lw (field0Of w) (field1Of w) (field2Of w)
  | .sw => .sw (field0Of w) (field1Of w) (field2Of w)
  | .beq => .beq (field0Of w) (field1Of w) (field2Of w)
  | .jalr => .jalr (field0Of w) (field1Of w)
  | .halt => .halt
  | .noop => .noop

/-- Refuse, by name, an instruction that names a register which does not exist (R83 (b), (c)). -/
def checkRegisters (numRegs : Nat) (i : Instr) : Except DecodeError Instr :=
  if i.fieldsAreRegisters numRegs = false then .error .fieldNotARegister
  else if i.destinationIsRegister numRegs = false then .error .destinationNotARegister
  else .ok i

/-- Decode a word fetched by the requester (R142, R80 to R83). -/
def decodeWord (m : OpcodeMap) (numRegs : Nat) (w : Word) : Except DecodeError Instr :=
  if highBits w ≠ 0 then .error .highBitsSet
  else
    match decodeOpcode m (opcodeField w) with
    | none => .error .opcodeUnassigned
    | some o => checkRegisters numRegs (assemble o w)

/-- The `2 + 2*XLEN` bits of a command word (R73). -/
def commandBits (xlen : Nat) (c : CommandWord) : BitVec (2 + xlen + xlen) := BitVec.ofNat (2 + xlen + xlen) c

/-- `op`, the two top bits of a command word (R73). -/
def commandOp (xlen : Nat) (c : CommandWord) : BitVec 2 := (commandBits xlen c).extractLsb' (xlen + xlen) 2

/-- `addr` of a command word (R73). -/
def commandAddr (xlen : Nat) (c : CommandWord) : Word := ((commandBits xlen c).extractLsb' xlen xlen).toNat

/-- `wdata` of a command word (R73). -/
def commandData (xlen : Nat) (c : CommandWord) : Word := ((commandBits xlen c).extractLsb' 0 xlen).toNat

/-- Decode a command word (R74). All four codes are used, so no command word is refused (R79). -/
def decodeCommand (xlen : Nat) (c : CommandWord) : Instr :=
  if commandOp xlen c = 0 then .ifetch (commandAddr xlen c)
  else if commandOp xlen c = 1 then .load (commandAddr xlen c)
  else if commandOp xlen c = 2 then .store (commandAddr xlen c) (commandData xlen c)
  else .flush

/-- The decoder, over both kinds of code. -/
def decode (c : Config) : Code → Except DecodeError Instr
  | .word w => decodeWord c.opc c.numRegs w
  | .command w => .ok (decodeCommand c.xlen w)

/-- The instruction word with the given fields (R80, R85); bits `XLEN-1:25` are 0. -/
def packWord (opcode field0 field1 : BitVec 3) (field2 : BitVec 16) : Word :=
  (opcode ++ field0 ++ field1 ++ field2).toNat

/-- The command word with the given fields (R73). -/
def packCommand (xlen : Nat) (op : BitVec 2) (addr wdata : Word) : CommandWord :=
  (op ++ bitsOf xlen addr ++ bitsOf xlen wdata).toNat

/-- The encoder. Fields an instruction ignores are written as 0 (R85). -/
def encode (c : Config) : Instr → Code
  | .ifetch a => .command (packCommand c.xlen 0 a 0)
  | .load a => .command (packCommand c.xlen 1 a 0)
  | .store a d => .command (packCommand c.xlen 2 a d)
  | .flush => .command (packCommand c.xlen 3 0 0)
  | .add f0 f1 f2 => .word (packWord c.opc.add f0 f1 f2)
  | .nand f0 f1 f2 => .word (packWord c.opc.nand f0 f1 f2)
  | .lw f0 f1 f2 => .word (packWord c.opc.lw f0 f1 f2)
  | .sw f0 f1 f2 => .word (packWord c.opc.sw f0 f1 f2)
  | .beq f0 f1 f2 => .word (packWord c.opc.beq f0 f1 f2)
  | .jalr f0 f1 => .word (packWord c.opc.jalr f0 f1 0)
  | .halt => .word (packWord c.opc.halt 0 0 0)
  | .noop => .word (packWord c.opc.noop 0 0 0)

/-- The code whose bits are `w`, numbered as spec/opcode_table.json numbers them: a row of at most `XLEN` bits
is one instruction word, a longer row one command word. None where `w` has bits above the code's width. -/
def tableCode (xlen nbits w : Nat) : Option Code :=
  if nbits ≤ xlen then
    if w < 2 ^ xlen then some (.word w) else none
  else if w < 2 ^ (2 + xlen + xlen) then some (.command w) else none

/-- The instruction the decoder reads from the bits `w` of an opcode-table row, with the defaults for which the
table is written: `XLEN = 32`, the default numbering and `NUMREGS = 8`. -/
def decodeTableWord (nbits w : Nat) : Option Instr :=
  match tableCode Config.reference.xlen nbits w with
  | none => none
  | some c =>
    match decode Config.reference c with
    | .ok i => some i
    | .error _ => none

end Sys2Proof
end

