-- ==== Sys2Proof/Machine/State.lean ====
section
/-! DEFINITION. The state of the machine (10_state.md), the reasons a step can stop, and the state after reset
(70_reset_and_hazards.md R181). -/

namespace Sys2Proof.Machine

/-- The lifecycle state of CC (10_state.md R33). -/
inductive CcState where
  | ready | halted | faulted
  deriving DecidableEq, Repr

/-- The kind of a transfer event (30_encoding.md R77). -/
inductive EventKind where
  /-- cache to processor -/
  | c2p
  /-- processor to cache -/
  | p2c
  /-- memory to cache -/
  | m2c
  /-- cache to memory -/
  | c2m
  /-- cache to discard -/
  | c2d
  deriving DecidableEq, Repr

/-- One record of the event stream (R41, R77). -/
structure Event where
  startAddress : Nat
  sizeInWords : Nat
  kind : EventKind
  deriving DecidableEq, Repr

/-- The final report (R78). -/
structure Report where
  hitCount : Nat
  missCount : Nat
  deriving DecidableEq, Repr

/-- What the response of a completed command carries (R76). -/
structure Response where
  rdata : Word
  hit : Bool
  fault : BitVec 2
  deriving DecidableEq, Repr

/-- One line of the cache (R22 to R28). -/
structure Line where
  valid : Bool
  dirty : Bool
  setIndex : Nat
  tag : Nat
  lruAge : Nat
  blockData : List Word
  deriving DecidableEq, Repr

/-- The backing memory (R40): the words that differ from `MEM_FILL`, as (word address, word) pairs with
strictly rising addresses. The unit is the word, since the machine has no bytes (R50, log 8). -/
abbrev Memory := List (Nat × Word)

/-- The one requester attached to CC (R6, R18): the reference requester of 43_requester.md, or an arbitrary
command stream, of which the command words still to be offered are held, the next one first (R73, R75). -/
inductive Requester where
  | engine
  | port (offered : List CommandWord)
  deriving DecidableEq, Repr

/-- The access a fault names (R160: "the failing address and the operation"). -/
inductive AccessOp where
  | ifetch | load | store
  deriving DecidableEq, Repr

/-- The parameter a ConfigurationError names (R160). R161 and R184 give the error to `B`, `S`, `A`, `MEM_WORDS`
and `XLEN`; that a bad `NUMREGS`, `OPC`, `REG_INIT` or `MEM_FILL` is the same error is the model's DESIGN CHOICE
(log 30): the spec constrains them (R11, D24, D26) and names no error. -/
inductive Parameter where
  | blockSizeInWords | setCount | associativity | xlen | memWords | numRegs | opcodeMap | regInit | memFill
  deriving DecidableEq, Repr

/-- The state of the machine: everything of 10_state.md R20, the response and reset ports of R75, and the
model's own counter of free values. -/
structure State where
  /-- The static configuration (R25). No step writes it. -/
  cfg : Config
  /-- The line array, `S` sets of `A` lines (R21). -/
  lines : List (List Line)
  /-- Counter of hits (R32). -/
  hitCount : Nat
  /-- Counter of misses (R32). -/
  missCount : Nat
  /-- Lifecycle state (R33). -/
  ccState : CcState
  /-- Backing memory (R40). -/
  mem : Memory
  /-- Event stream, oldest record first (R41). -/
  events : List Event
  /-- The final report, once FLUSH has emitted it (R78). -/
  report : Option Report
  /-- The response of the last completed command, none before the first (R76). -/
  resp : Option Response
  /-- Program counter of the reference requester (R39). -/
  pc : Word
  /-- General registers of the reference requester (R38). -/
  x : List Word
  /-- Who is attached to the request port (R6). -/
  requester : Requester
  /-- The reset input (R75, R180). -/
  rst : Bool
  /-- The model's own: how many free values have been used (log 13). -/
  free : Nat
  deriving DecidableEq, Repr

/-- Why the machine stops with a fault. -/
inductive Fault where
  /-- `AddressOutOfRange` (R163), with the operation and the failing address. Raised by IFETCH, LOAD, STORE
  and through them by a fetch, LW and SW. The spec makes it a fault outcome (R166). Safe. -/
  | addressOutOfRange (op : AccessOp) (addr : Int)
  /-- `ConfigurationError` (R161), with the offending parameter. Raised by `boot` only, never by a step. Safe.
  For the four parameters that R161 does not name it is the model's DESIGN CHOICE (log 30). -/
  | configurationError (parameter : Parameter)
  /-- `ImageLoadError` (R164): no readable image. Raised by `boot` only. Safe. -/
  | imageLoadError
  /-- The model's own: a set with no invalid line and no line of age `A-1`, which R29 excludes in every
  state a run reaches. Raised by a miss. Safe (log 12). -/
  | noVictim
  /-- The model's own: a write-back of a block outside memory, where `MemWrite` has no meaning (R14) and
  which R31 (d) excludes in every state a run reaches. Raised by a miss and by a flush. Safe (log 12). -/
  | blockOutsideMemory (base : Nat)
  deriving DecidableEq, Repr

/-- Why a step does not exist. -/
inductive Refusal where
  /-- An arm of `exec` that has no meaning yet. Safe. -/
  | notModelled (mnemonic : String)
  /-- A command, or an instruction of the requester, when CC is not READY (R120, R177). Raised by every
  instruction. Safe. -/
  | notReady (ccState : CcState)
  /-- A reserved encoding of the requester (R83, R177). Raised by the decode of a fetched word and by the
  requester's instructions. Safe. -/
  | reservedEncoding (why : DecodeError)
  /-- The command stream offers nothing: `req_valid` is 0 and there is no step (R75). Raised by `step`. Safe. -/
  | noCommandOffered
  /-- `boot` only: the image has more words than memory, for which the source says nothing (N14). Safe. -/
  | imageLongerThanMemory
  /-- `boot` only: the image has an integer wider than `XLEN`, for which the source says nothing (N14, U23).
  Safe. -/
  | imageWordTooWide
  deriving DecidableEq, Repr

/-- A line after reset (R43, R181). -/
def Line.afterReset (c : Config) : Line :=
  { valid := false, dirty := false, setIndex := 0, tag := 0, lruAge := c.associativity - 1,
    blockData := List.replicate c.blockSize 0 }

/-- The line array after reset (R43). -/
def linesAfterReset (c : Config) : List (List Line) :=
  List.replicate c.setCount (List.replicate c.associativity (Line.afterReset c))

/-- The machine right after reset with a configuration and a loaded memory (R43, R181): no line valid, no
line dirty, both counters 0, READY, no event, pc 0, every register `REG_INIT`, and the reference requester
attached. -/
def State.resetWith (c : Config) (m : Memory) : State :=
  { cfg := c, lines := linesAfterReset c, hitCount := 0, missCount := 0, ccState := .ready, mem := m,
    events := [], report := none, resp := none, pc := 0, x := List.replicate c.numRegs c.regInit,
    requester := .engine, rst := false, free := 0 }

/-- The machine right after reset, with the reference configuration and a memory that holds `MEM_FILL`
everywhere (log 2, 3, 9, 10). -/
def State.reset : State := State.resetWith Config.reference []

end Sys2Proof.Machine
end

