-- ==== Sys2Proof/Machine/AddressDecoder.lean ====
section
/-! DEFINITION. Family 1: the address decoder (40_address_decoder.md), pure functions on natural numbers. -/

namespace Sys2Proof.Machine

/-- BLOCKOFFSET (R91). -/
def blockOffset (c : Config) (a : Nat) : Nat := a &&& ((1 <<< c.blockOffsetBits) - 1)

/-- SETINDEX (R92). -/
def setIndexOf (c : Config) (a : Nat) : Nat :=
  (a >>> c.blockOffsetBits) &&& ((1 <<< c.setIndexBits) - 1)

/-- TAG (R93). -/
def tagOf (c : Config) (a : Nat) : Nat := a >>> (c.blockOffsetBits + c.setIndexBits)

/-- BLOCKSTART (R94). -/
def blockStart (c : Config) (a : Nat) : Nat := a - blockOffset c a

/-- The address a tag and a set index reconstruct (R95). -/
def baseOf (c : Config) (tag setIndex : Nat) : Nat :=
  (tag <<< (c.setIndexBits + c.blockOffsetBits)) ||| (setIndex <<< c.blockOffsetBits)

/-- The address whose fields are a tag, a set index and a block offset: the round trip of R96. -/
def addressOf (c : Config) (tag setIndex offset : Nat) : Nat := baseOf c tag setIndex ||| offset

/-- LINEBASE (R95). -/
def lineBase (c : Config) (l : Line) : Nat := baseOf c l.tag l.setIndex

end Sys2Proof.Machine
end

