-- ==== Sys2Proof/Machine/Ops.lean ====
section
/-! DEFINITION. The named operations the rest of the machine is written with: sequencing of outcomes, raising
the one exception that can occur while running, memory, the line array, the event stream, the registers. -/

namespace Sys2Proof.Machine

/-- Run `k` on the result of `o`; a fault or a refusal ends the step ("nothing after it in the block runs",
R14). -/
def andThen {α β : Type} (o : Host.Outcome α Fault Refusal) (k : α → Host.Outcome β Fault Refusal) :
    Host.Outcome β Fault Refusal :=
  match o with
  | .next a => k a
  | .fault f => .fault f
  | .refused r => .refused r

/-- Taking AddressOutOfRange (R163, R166): the command is abandoned, the run is over, and what is left to
see is the failing address and the operation. There is no vector, no handler and no saved state, and the
spec makes it a fault outcome that is never a final state. -/
def raiseAddressOutOfRange {α : Type} (op : AccessOp) (a : Int) : Host.Outcome α Fault Refusal :=
  .fault (.addressOutOfRange op a)

/-- CC accepts a command, and the requester executes an instruction, only in READY (R120, R33, R42). -/
def whenReady {α : Type} (s : State) (k : Host.Outcome α Fault Refusal) : Host.Outcome α Fault Refusal :=
  match s.ccState with
  | .ready => k
  | .halted => .refused (.notReady .halted)
  | .faulted => .refused (.notReady .faulted)

/-! ## Words -/

/-- A natural number reduced to `XLEN` bits (R151). -/
def wrap (xlen v : Nat) : Word := (bitsOf xlen v).toNat

/-- The signed reading of a word of `XLEN` bits (R151). -/
def signedWord (xlen : Nat) (v : Word) : Int := (bitsOf xlen v).toInt

/-- An integer reduced to the `XLEN` bits of its two's-complement pattern (R51, R151). -/
def wrapInt (xlen : Nat) (i : Int) : Word := (BitVec.ofInt xlen i).toNat

/-! ## Backing memory -/

/-- The word at an address: the listed one, else `MEM_FILL`. -/
def Memory.read (fill : Word) : Memory → Nat → Word
  | [], _ => fill
  | (k, v) :: m, a => if a = k then v else Memory.read fill m a

/-- List `v` at address `a`, keeping the addresses rising. -/
def Memory.insert : Memory → Nat → Word → Memory
  | [], a, v => [(a, v)]
  | (k, w) :: m, a, v =>
    if a < k then (a, v) :: (k, w) :: m
    else if a = k then (a, v) :: m
    else (k, w) :: Memory.insert m a v

/-- List nothing at address `a`. -/
def Memory.erase (m : Memory) (a : Nat) : Memory := m.filter fun cell => cell.1 ≠ a

/-- Write one word. Writing `MEM_FILL` removes the entry, so equal memories are equal lists. -/
def Memory.write (fill : Word) (m : Memory) (a : Nat) (v : Word) : Memory :=
  if v = fill then Memory.erase m a else Memory.insert m a v

/-- The words of a list at consecutive addresses from `a`. -/
def Memory.writeBlock (fill : Word) : Memory → Nat → List Word → Memory
  | m, _, [] => m
  | m, a, v :: vs => Memory.writeBlock fill (Memory.write fill m a v) (a + 1) vs

/-- The canonical form: addresses strictly rising and inside memory, no entry equal to `MEM_FILL`. -/
abbrev Memory.wf (fill : Word) (limit : Nat) (m : Memory) : Prop :=
  m.Pairwise (fun x y => x.1 < y.1) ∧ ∀ cell ∈ m, cell.1 < limit ∧ cell.2 ≠ fill

/-- `mem[a]` (R13, R40). -/
def State.memWord (s : State) (a : Nat) : Word := Memory.read s.cfg.memFill s.mem a

/-- `MemRead(a, n)` (R14): the words `mem[a] .. mem[a+n-1]`, index 0 first. -/
def memRead (s : State) (a n : Nat) : List Word := (List.range n).map fun k => s.memWord (a + k)

/-- `MemWrite(a, B, v)` (R14), which needs the whole block to lie in memory. -/
def memWriteBlock (a : Nat) (v : List Word) (s : State) : Host.Outcome State Fault Refusal :=
  if a + s.cfg.blockSize ≤ s.cfg.memWords then
    .next { s with mem := Memory.writeBlock s.cfg.memFill s.mem a (v.take s.cfg.blockSize) }
  else .fault (.blockOutsideMemory a)

/-! ## The line array -/

/-- Set `i` of the line array (R21). -/
def State.set (s : State) (i : Nat) : List Line := s.lines.getD i []

/-- `line[i][w]` (R13). -/
def State.line (s : State) (i w : Nat) : Line := (s.set i).getD w (Line.afterReset s.cfg)

/-- Replace set `i` as a whole. -/
def State.putSet (s : State) (i : Nat) (ls : List Line) : State := { s with lines := s.lines.set i ls }

/-- Replace `line[i][w]`. -/
def State.putLine (s : State) (i w : Nat) (l : Line) : State := s.putSet i ((s.set i).set w l)

/-! ## Outputs -/

/-- `Emit(start, size, kind)` (R14). -/
def emit (start size : Nat) (kind : EventKind) (s : State) : State :=
  { s with events := s.events ++ [{ startAddress := start, sizeInWords := size, kind := kind }] }

/-- `Report(h, m)` (R128): the final report with the counters' values. -/
def emitReport (s : State) : State :=
  { s with report := some { hitCount := s.hitCount, missCount := s.missCount } }

/-! ## Registers of the requester -/

/-- `x[n]` (R13, R38). Register 0 is an ordinary register. -/
def State.reg (s : State) (n : Nat) : Word := s.x.getD n 0

/-- `x[n] <- v` (R13, R38). -/
def State.putReg (s : State) (n : Nat) (v : Word) : State := { s with x := s.x.set n v }

/-- `pc <- pc + 1`, the increment before dispatch (R141), in the `XLEN` bits of the pc (R39). -/
def advancePc (s : State) : State := { s with pc := wrap s.cfg.xlen (s.pc + 1) }

end Sys2Proof.Machine
end

