-- ==== Sys2Proof/Machine/Flags.lean ====
section
/-! DEFINITION. The machine has no flags (10_state.md R35). What stands in their place are the per-command status
outputs, the hit indication and the fault code of the response (R76), and the numeric codes of the ports. -/

namespace Sys2Proof.Machine

/-- The response of IFETCH and LOAD: the word read and the hit indication, no fault (R76). -/
def respondRead (v : Word) (hit : Bool) (s : State) : State :=
  { s with resp := some { rdata := v, hit := hit, fault := 0 } }

/-- The unspecified `resp_rdata` of a response, a free value of `XLEN` bits (R76, U13; log 13). -/
def freeRdata (s : State) : Word := (Config.freeRdata s.cfg.xlen s.free).toNat

/-- The response of STORE: the hit indication; `resp_rdata` is unspecified, a free value (R76, U13). -/
def respondStore (hit : Bool) (s : State) : State :=
  { s with resp := some { rdata := freeRdata s, hit := hit, fault := 0 }, free := s.free + 1 }

/-- The response of FLUSH: `resp_rdata` and `resp_hit` are unspecified, free values (R76, U13). -/
def respondFlush (s : State) : State :=
  { s with resp := some { rdata := freeRdata s, hit := Config.freeHit s.free, fault := 0 },
           free := s.free + 1 }

/-- The exception codes of R160; `none` for the model's own stops, which are no exceptions of the spec. -/
def faultCode : Fault → Option (BitVec 2)
  | .configurationError _ => some 1
  | .addressOutOfRange _ _ => some 2
  | .imageLoadError => some 3
  | .noVictim => none
  | .blockOutsideMemory _ => none

/-- `resp_fault` of the command a step ended with: 0 where it completed (R76, R160). -/
def respFault {α : Type} : Host.Outcome α Fault Refusal → Option (BitVec 2)
  | .next _ => some 0
  | .fault f => faultCode f
  | .refused _ => none

/-- The lifecycle state the status port shows after a step from `s` (R33, R166): the next state's, FAULTED
after AddressOutOfRange, the same as before where there is no step. The rest of the state after a fault is
not guaranteed (R166), so the model shows none of it (log 11). -/
def lifecycleAfter (s : State) : Host.Outcome State Fault Refusal → CcState
  | .next s' => s'.ccState
  | .fault _ => .faulted
  | .refused _ => s.ccState

/-- `cc_state` (R75). -/
def ccStateCode : CcState → BitVec 2
  | .ready => 0
  | .halted => 1
  | .faulted => 2

/-- `ev_kind` (R77). -/
def eventKindCode : EventKind → BitVec 3
  | .c2p => 0
  | .p2c => 1
  | .m2c => 2
  | .c2m => 3
  | .c2d => 4

/-- The operation code of an access (R74), as the fault names it. -/
def accessOpCode : AccessOp → BitVec 2
  | .ifetch => 0
  | .load => 1
  | .store => 2

end Sys2Proof.Machine
end

