-- ==== Sys2Proof/Machine/CacheStore.lean ====
section
/-! DEFINITION. Family 2: the cache store primitives LOOKUP, TOUCHLRU, INSTALL, WRITEBACK, MARKDIRTY, READWORD,
WRITEWORD and FLUSHALL (41_cache_store.md). -/

namespace Sys2Proof.Machine

/-- A line handle: set index and way (R100). -/
structure Handle where
  set : Nat
  way : Nat
  deriving DecidableEq, Repr

/-- A valid address (R51): `0 <= a < MEM_WORDS`. -/
abbrev validAddress (c : Config) (a : Int) : Prop := 0 ≤ a ∧ a < (c.memWords : Int)

/-- The block of `a` lies in memory (R56). -/
abbrev blockFits (c : Config) (a : Int) : Prop := blockStart c a.toNat + c.blockSize ≤ c.memWords

/-- The tests of R51 and R56 together: `a` is accepted (R130). -/
abbrev addressOk (c : Config) (a : Int) : Prop := validAddress c a ∧ blockFits c a

/-! ## LOOKUP -/

/-- The lowest way of a set that is valid and holds the tag (R101, R102). -/
def matchingWay (ls : List Line) (tag : Nat) : Option Nat := ls.findIdx? fun l => l.valid && l.tag == tag

/-- The line that holds the block of `a`, without the range test (R101). -/
def holder (s : State) (a : Nat) : Option Handle :=
  (matchingWay (s.set (setIndexOf s.cfg a)) (tagOf s.cfg a)).map fun w => ⟨setIndexOf s.cfg a, w⟩

/-- LOOKUP (R101): a hit with its handle, or a miss. -/
def lookup (op : AccessOp) (a : Int) (s : State) : Host.Outcome (Option Handle) Fault Refusal :=
  if validAddress s.cfg a then .next (holder s a.toNat) else raiseAddressOutOfRange op a

/-! ## TOUCHLRU -/

/-- A valid line younger than the pivot ages by one (R103, R107). -/
def ageBelow (pivot : Nat) (l : Line) : Line :=
  if l.valid = true ∧ l.lruAge < pivot then { l with lruAge := l.lruAge + 1 } else l

/-- The common promotion of R103 and R107: way `w` becomes `l` with age 0, and every other valid line younger
than the pivot ages by one. -/
def promote (w pivot : Nat) (l : Line) (ls : List Line) : List Line :=
  (ls.map (ageBelow pivot)).set w { l with lruAge := 0 }

/-- TOUCHLRU (R103). The pivot is the prior age of the touched line. -/
def touchLru (h : Handle) (s : State) : State :=
  s.putSet h.set (promote h.way (s.line h.set h.way).lruAge (s.line h.set h.way) (s.set h.set))

/-! ## WRITEBACK -/

/-- WRITEBACK (R108): the block of a line to memory, one C2M event. The line is not changed. -/
def writeBack (h : Handle) (s : State) : Host.Outcome State Fault Refusal :=
  andThen (memWriteBlock (lineBase s.cfg (s.line h.set h.way)) (s.line h.set h.way).blockData s) fun s' =>
    .next (emit (lineBase s.cfg (s.line h.set h.way)) s.cfg.blockSize .c2m s')

/-- WRITEBACK if the line is dirty (R104, R112). -/
def writeBackIfDirty (h : Handle) (s : State) : Host.Outcome State Fault Refusal :=
  if (s.line h.set h.way).dirty then writeBack h s else .next s

/-! ## INSTALL -/

/-- The lowest invalid way of a set (R105). -/
def invalidWay (ls : List Line) : Option Nat := ls.findIdx? fun l => !l.valid

/-- The least recently used way of a full set: the one of age `A-1` (R105). -/
def victimWay (c : Config) (ls : List Line) : Option Nat := ls.findIdx? fun l => l.lruAge == c.associativity - 1

/-- Eviction of a victim (R104, R109): its write-back if it is dirty, then the discard event. -/
def evict (h : Handle) (s : State) : Host.Outcome State Fault Refusal :=
  andThen (writeBackIfDirty h s) fun s' =>
    .next (emit (lineBase s.cfg (s.line h.set h.way)) s.cfg.blockSize .c2d s')

/-- The line that holds a fresh copy of the block of `a` (R106). -/
def filledLine (a : Nat) (s : State) : Line :=
  { valid := true, dirty := false, setIndex := setIndexOf s.cfg a, tag := tagOf s.cfg a, lruAge := 0,
    blockData := memRead s (blockStart s.cfg a) s.cfg.blockSize }

/-- Fill and promotion of the destination, with its pre-install age as the pivot, and the M2C event (R104,
R106, R107). -/
def fill (a : Nat) (h : Handle) (s : State) : State :=
  emit (blockStart s.cfg a) s.cfg.blockSize .m2c
    (s.putSet h.set (promote h.way (s.line h.set h.way).lruAge (filledLine a s) (s.set h.set)))

/-- A state and the handle of the line an operation found or made. -/
structure Placed where
  state : State
  handle : Handle
  deriving DecidableEq, Repr

/-- The choice of the destination of INSTALL and what it takes to free it (R104, R105). -/
def makeRoom (a : Nat) (s : State) : Host.Outcome Placed Fault Refusal :=
  match invalidWay (s.set (setIndexOf s.cfg a)) with
  | some w => .next ⟨s, ⟨setIndexOf s.cfg a, w⟩⟩
  | none =>
    match victimWay s.cfg (s.set (setIndexOf s.cfg a)) with
    | some w => andThen (evict ⟨setIndexOf s.cfg a, w⟩ s) fun s' => .next ⟨s', ⟨setIndexOf s.cfg a, w⟩⟩
    | none => .fault .noVictim

/-- INSTALL (R104), with its own range and extent tests. -/
def install (op : AccessOp) (a : Int) (s : State) : Host.Outcome Placed Fault Refusal :=
  if addressOk s.cfg a then
    andThen (makeRoom a.toNat s) fun p => .next ⟨fill a.toNat p.handle p.state, p.handle⟩
  else raiseAddressOutOfRange op a

/-! ## MARKDIRTY and the word accesses -/

/-- MARKDIRTY (R110). -/
def markDirty (h : Handle) (s : State) : State :=
  s.putLine h.set h.way { s.line h.set h.way with dirty := true }

/-- READWORD (R111). -/
def readWord (h : Handle) (a : Nat) (s : State) : Word :=
  (s.line h.set h.way).blockData.getD (blockOffset s.cfg a) 0

/-- WRITEWORD (R111). -/
def writeWord (h : Handle) (a : Nat) (v : Word) (s : State) : State :=
  s.putLine h.set h.way
    { s.line h.set h.way with blockData := (s.line h.set h.way).blockData.set (blockOffset s.cfg a) v }

/-! ## FLUSHALL -/

/-- All handles, sets ascending and ways ascending within a set (R112). -/
def allHandles (c : Config) : List Handle :=
  (List.range c.setCount).flatMap fun i => (List.range c.associativity).map fun w => ⟨i, w⟩

/-- Write back the dirty lines among the given handles, in their order. -/
def flushHandles : List Handle → State → Host.Outcome State Fault Refusal
  | [], s => .next s
  | h :: hs, s => andThen (writeBackIfDirty h s) (flushHandles hs)

/-- FLUSHALL (R112). -/
def flushAll (s : State) : Host.Outcome State Fault Refusal := flushHandles (allHandles s.cfg) s

end Sys2Proof.Machine
end

