-- ==== Sys2Proof/Machine/Access.lean ====
section
/-! DEFINITION. Family 3: the access commands IFETCH, LOAD, STORE and FLUSH (42_access_commands.md). -/

namespace Sys2Proof.Machine

/-- What ACCESS hands on: the state, the handle of the line and the hit bit (R121). -/
structure Accessed where
  state : State
  handle : Handle
  hit : Bool
  deriving DecidableEq, Repr

/-- What a read command returns: the state after it and the word read (R76). -/
structure Reply where
  state : State
  rdata : Word
  deriving DecidableEq, Repr

/-- `hitCount <- hitCount + 1` (R121). -/
def countHit (s : State) : State := { s with hitCount := s.hitCount + 1 }

/-- `missCount <- missCount + 1` (R121). -/
def countMiss (s : State) : State := { s with missCount := s.missCount + 1 }

/-- The hit branch and the miss branch of ACCESS (R121). -/
def accessFound (op : AccessOp) (a : Int) (s : State) : Option Handle → Host.Outcome Accessed Fault Refusal
  | some h => .next ⟨touchLru h (countHit s), h, true⟩
  | none => andThen (install op a (countMiss s)) fun p => .next ⟨p.state, p.handle, false⟩

/-- ACCESS (R121), with acceptance (R120) and with the range and extent tests evaluated together at its
start, before anything changes (R130, C16). -/
def access (op : AccessOp) (a : Int) (s : State) : Host.Outcome Accessed Fault Refusal :=
  whenReady s
    (if addressOk s.cfg a then
      andThen (lookup op a s) (accessFound op a s)
    else raiseAddressOutOfRange op a)

/-- The body of IFETCH and LOAD, which are identical inside CC (R122, R123). -/
def ccRead (op : AccessOp) (a : Int) (s : State) : Host.Outcome Reply Fault Refusal :=
  andThen (access op a s) fun r =>
    let v := readWord r.handle a.toNat r.state
    .next ⟨respondRead v r.hit (emit a.toNat 1 .c2p r.state), v⟩

/-- STORE (R124). -/
def ccStore (a : Int) (v : Word) (s : State) : Host.Outcome State Fault Refusal :=
  andThen (access .store a s) fun r =>
    .next (respondStore r.hit (markDirty r.handle (writeWord r.handle a.toNat v (emit a.toNat 1 .p2c r.state))))

/-- FLUSH (R125). -/
def ccFlush (s : State) : Host.Outcome State Fault Refusal :=
  whenReady s
    (andThen (flushAll s) fun s' => .next (respondFlush { emitReport s' with ccState := .halted }))

/-- IFETCH (R122): the address port is read as an unsigned number (R51). -/
def execIfetch (addr : Word) (s : State) : Host.Outcome State Fault Refusal :=
  andThen (ccRead .ifetch addr s) fun r => .next r.state

/-- LOAD (R123). -/
def execLoad (addr : Word) (s : State) : Host.Outcome State Fault Refusal :=
  andThen (ccRead .load addr s) fun r => .next r.state

/-- STORE (R124). -/
def execStore (addr wdata : Word) (s : State) : Host.Outcome State Fault Refusal :=
  ccStore addr wdata s

/-- FLUSH (R125); `addr` and `wdata` are ignored. -/
def execFlush (s : State) : Host.Outcome State Fault Refusal := ccFlush s

end Sys2Proof.Machine
end

