-- ==== Sys2Proof/Machine/Operands.lean ====
section
/-! DEFINITION. The operand forms of the requester (30_encoding.md R81; 43_requester.md R145, R148, R151). -/

namespace Sys2Proof.Machine

/-- `imm = sext_16(field2)`, an integer (R81). -/
def immediate (field2 : BitVec 16) : Int := field2.toInt

/-- The value of the register a 3-bit field names (R81). -/
def fieldReg (s : State) (f : BitVec 3) : Word := s.reg f.toNat

/-- Write the register a 3-bit field names (R81). -/
def putFieldReg (s : State) (f : BitVec 3) (v : Word) : State := s.putReg f.toNat v

/-- Write the register the whole field `field2` names, `sext_16(field2)` as its index (R81). -/
def putDestination (s : State) (field2 : BitVec 16) (v : Word) : State := s.putReg (immediate field2).toNat v

/-- The effective address of LW and SW, as a mathematical integer from the signed base (R145). -/
def effectiveAddress (xlen : Nat) (base : Word) (field2 : BitVec 16) : Int :=
  signedWord xlen base + immediate field2

/-- The branch target of BEQ from the incremented pc (R148), an integer, as the `XLEN`-bit word the pc holds
(R39). DESIGN CHOICE (log 32): the incremented pc is read as unsigned, the address of the BEQ plus 1 (R148), where
R151 reads it as signed; they differ only at `pc ≥ 2^(XLEN-1)`, in a run only after a BEQ at word `2^(XLEN-1) - 1`. -/
def branchTarget (xlen : Nat) (pc : Word) (field2 : BitVec 16) : Word := wrapInt xlen ((pc : Int) + immediate field2)

/-- What every instruction of the requester checks: the engine is not halted (R42), and the instruction is
no reserved encoding (R83). -/
def asRequester (i : Instr) (s : State) (k : Host.Outcome State Fault Refusal) :
    Host.Outcome State Fault Refusal :=
  whenReady s
    (match checkRegisters s.cfg.numRegs i with
     | .ok _ => k
     | .error why => .refused (.reservedEncoding why))

end Sys2Proof.Machine
end

