-- ==== Sys2Proof/Machine/Arithmetic.lean ====
section
/-! DEFINITION. Family 4a: ADD and NAND of the requester (43_requester.md R143, R144). -/

namespace Sys2Proof.Machine

/-- The sum modulo `2^XLEN` (R143). -/
def sumWord (xlen : Nat) (v w : Word) : Word := wrap xlen (v + w)

/-- The bitwise complement, at `XLEN` bits, of the bitwise AND (R144). -/
def nandWord (xlen : Nat) (v w : Word) : Word := (~~~(bitsOf xlen v &&& bitsOf xlen w)).toNat

/-- ADD (R143): modulo `2^XLEN`; both sources are read before the write. -/
def execAdd (field0 field1 : BitVec 3) (field2 : BitVec 16) (s : State) : Host.Outcome State Fault Refusal :=
  asRequester (.add field0 field1 field2) s
    (.next (putDestination (advancePc s) field2 (sumWord s.cfg.xlen (fieldReg s field0) (fieldReg s field1))))

/-- NAND (R144): the bitwise complement at `XLEN` bits. -/
def execNand (field0 field1 : BitVec 3) (field2 : BitVec 16) (s : State) : Host.Outcome State Fault Refusal :=
  asRequester (.nand field0 field1 field2) s
    (.next (putDestination (advancePc s) field2 (nandWord s.cfg.xlen (fieldReg s field0) (fieldReg s field1))))

end Sys2Proof.Machine
end

