-- ==== Sys2Proof/Machine/Control.lean ====
section
/-! DEFINITION. Family 4c: BEQ, JALR, HALT and NOOP of the requester (43_requester.md R147 to R150). -/

namespace Sys2Proof.Machine

/-- BEQ (R148): the target is relative to the incremented pc. -/
def execBeq (field0 field1 : BitVec 3) (field2 : BitVec 16) (s : State) : Host.Outcome State Fault Refusal :=
  asRequester (.beq field0 field1 field2) s
    (.next (if fieldReg s field0 = fieldReg s field1 then
        { advancePc s with pc := branchTarget s.cfg.xlen (advancePc s).pc field2 }
      else advancePc s))

/-- The link of JALR, `x[field0] <- pc` with the incremented pc (R147). -/
def linked (field0 : BitVec 3) (s : State) : State :=
  putFieldReg (advancePc s) field0 (advancePc s).pc

/-- JALR (R147): the link first, then the jump through `x[field1]` as it then is. -/
def execJalr (field0 field1 : BitVec 3) (s : State) : Host.Outcome State Fault Refusal :=
  asRequester (.jalr field0 field1) s
    (.next { linked field0 s with pc := fieldReg (linked field0 s) field1 })

/-- HALT (R150): FLUSH; the pc is not incremented. -/
def execHalt (s : State) : Host.Outcome State Fault Refusal :=
  asRequester .halt s (ccFlush s)

/-- NOOP (R149). -/
def execNoop (s : State) : Host.Outcome State Fault Refusal :=
  asRequester .noop s (.next (advancePc s))

end Sys2Proof.Machine
end

