-- ==== Sys2Proof/Machine/LoadStore.lean ====
section
/-! DEFINITION. Family 4b: LW and SW of the requester (43_requester.md R145, R146). -/

namespace Sys2Proof.Machine

/-- LW (R145): LOAD of the effective address into `x[field0]`. A fault leaves the register unwritten. -/
def execLw (field0 field1 : BitVec 3) (field2 : BitVec 16) (s : State) : Host.Outcome State Fault Refusal :=
  asRequester (.lw field0 field1 field2) s
    (andThen (ccRead .load (effectiveAddress s.cfg.xlen (fieldReg s field1) field2) (advancePc s)) fun r =>
      .next (putFieldReg r.state field0 r.rdata))

/-- SW (R146): STORE of `x[field0]` at the effective address. No register is written. -/
def execSw (field0 field1 : BitVec 3) (field2 : BitVec 16) (s : State) : Host.Outcome State Fault Refusal :=
  asRequester (.sw field0 field1 field2) s
    (ccStore (effectiveAddress s.cfg.xlen (fieldReg s field1) field2) (fieldReg s field0) (advancePc s))

end Sys2Proof.Machine
end

