-- ==== Sys2Proof/Machine/Dispatch.lean ====
section
/-! DEFINITION. One arm per instruction. For a requester instruction this is what follows the fetch and the decode
in STEP (43_requester.md R141). -/

namespace Sys2Proof.Machine

def exec (i : Instr) (s : State) : Host.Outcome State Fault Refusal :=
  match i with
  | .ifetch addr => Sys2Proof.Machine.execIfetch addr s
  | .load addr => Sys2Proof.Machine.execLoad addr s
  | .store addr wdata => Sys2Proof.Machine.execStore addr wdata s
  | .flush => Sys2Proof.Machine.execFlush s
  | .add field0 field1 field2 => Sys2Proof.Machine.execAdd field0 field1 field2 s
  | .nand field0 field1 field2 => Sys2Proof.Machine.execNand field0 field1 field2 s
  | .lw field0 field1 field2 => Sys2Proof.Machine.execLw field0 field1 field2 s
  | .sw field0 field1 field2 => Sys2Proof.Machine.execSw field0 field1 field2 s
  | .beq field0 field1 field2 => Sys2Proof.Machine.execBeq field0 field1 field2 s
  | .jalr field0 field1 => Sys2Proof.Machine.execJalr field0 field1 s
  | .halt => Sys2Proof.Machine.execHalt s
  | .noop => Sys2Proof.Machine.execNoop s

end Sys2Proof.Machine
end

