-- ==== Sys2Proof/Machine/Fetch.lean ====
section
/-! DEFINITION. How the next instruction comes in: the fetch and decode of the requester (43_requester.md R141,
R142), the command offered on the request port (30_encoding.md R73), and placing an instruction where the next
step finds it. -/

namespace Sys2Proof.Machine

/-- An instruction ready to be executed, and the state it is executed in. -/
structure Fetched where
  instr : Instr
  state : State
  deriving DecidableEq, Repr

/-- Steps 1 and 2 of STEP (R141, R142): IFETCH(pc), counted, then the decode. A reserved encoding is
refused (R83). -/
def fetchEngine (s : State) : Host.Outcome Fetched Fault Refusal :=
  andThen (ccRead .ifetch s.pc s) fun r =>
    match decode s.cfg (.word r.rdata) with
    | .ok i => .next ⟨i, r.state⟩
    | .error why => .refused (.reservedEncoding why)

/-- The next command of the stream on the request port (R73, R74). -/
def fetchPort (offered : List CommandWord) (s : State) : Host.Outcome Fetched Fault Refusal :=
  match offered with
  | [] => .refused .noCommandOffered
  | c :: rest =>
    match decode s.cfg (.command c) with
    | .ok i => .next ⟨i, { s with requester := .port rest }⟩
    | .error why => .refused (.reservedEncoding why)

/-- The next instruction, from whichever requester is attached (R6). -/
def fetchNext (s : State) : Host.Outcome Fetched Fault Refusal :=
  match s.requester with
  | .engine => fetchEngine s
  | .port offered => fetchPort offered s

/-- The effect of the reset input (R180, R181, R182): every element of CC and of the requester at its reset
value; `mem`, the configuration and the attached requester are not touched; dirty data are lost. -/
def applyReset (s : State) : State :=
  { State.resetWith s.cfg s.mem with requester := s.requester, free := s.free }

/-- Put a word where a fetch of `a` reads it: in memory, and in the line that holds the block of `a`, if
there is one. -/
def placeWord (a : Nat) (v : Word) (s : State) : State :=
  let s' := { s with mem := Memory.write s.cfg.memFill s.mem a v }
  match holder s a with
  | some h => writeWord h a v s'
  | none => s'

/-- Put a code where the next step takes it from: an instruction word at the pc of the reference requester,
a command word at the head of the command stream. -/
def placeCode (c : Code) (s : State) : State :=
  match c with
  | .word w => { placeWord s.pc w s with requester := .engine, rst := false }
  | .command c =>
    match s.requester with
    | .engine => { s with requester := .port [c], rst := false }
    | .port offered => { s with requester := .port (c :: offered), rst := false }

end Sys2Proof.Machine
end

