-- ==== Sys2Proof/Machine/Step.lean ====
section
/-! DEFINITION. One step of the machine: a reset, a command of the stream, or one whole instruction of the
reference requester (00_scope.md R19; 43_requester.md R141). -/

namespace Sys2Proof.Machine

/-- One step. -/
def step (s : State) : Host.Outcome State Fault Refusal :=
  if s.rst = true then .next (applyReset s)
  else andThen (fetchNext s) fun f => exec f.instr f.state

/-- `s` with the instruction whose bits are `w` placed where the next step takes it from (log 10). Bits
that are no code leave `s` as it is. -/
def State.withFetchWord (s : State) (nbits w : Nat) : State :=
  match tableCode s.cfg.xlen nbits w with
  | some c => placeCode c s
  | none => s

end Sys2Proof.Machine
end

