-- ==== Sys2Proof/Machine/Boot.lean ====
section
/-! DEFINITION. What must be in place before CC runs (70_reset_and_hazards.md R184): the configuration check, the
image, reset. -/

namespace Sys2Proof.Machine

/-- The configuration as it is supplied (R25, R161): a parameter may be missing. `xlen`, `memWords`,
`numRegs`, `regInit`, `memFill` and `opc` are the platform's parameters of R11. -/
structure ConfigInput where
  blockSizeInWords : Option Nat
  setCount : Option Nat
  associativity : Option Nat
  xlen : Nat
  memWords : Nat
  numRegs : Nat
  regInit : Word
  memFill : Word
  opc : OpcodeMap
  deriving DecidableEq, Repr

/-- `log2` of a power of two; no value otherwise (R12, R162). -/
def exactLog2 (n : Nat) : Option Nat := if 2 ^ Nat.log2 n = n then some (Nat.log2 n) else none

/-- A parameter that must be supplied and be a power of two (R161). -/
def powerOfTwo (p : Parameter) (given : Option Nat) : Host.Outcome Nat Fault Refusal :=
  match given.bind exactLog2 with
  | some e => .next e
  | none => .fault (.configurationError p)

/-- A constraint whose failure is a ConfigurationError for the parameter (R161 for `A`, `XLEN`, `MEM_WORDS`; the
model's choice for the others, log 30). -/
def require (p : Parameter) (ok : Bool) : Host.Outcome Unit Fault Refusal :=
  if ok then .next () else .fault (.configurationError p)

/-- Construction (R161): the configuration, or ConfigurationError with the offending parameter. R161 and R184 give
that error to `B`, `S`, `A`, `XLEN` and `MEM_WORDS`. That an illegal `NUMREGS`, an `OPC` that is no bijection, and a
`REG_INIT` or `MEM_FILL` of more than `XLEN` bits end in it too is the model's DESIGN CHOICE, safe (log 30): R11, D24
and D26 constrain them and name no error. So is the order in which several bad parameters are named (log 27). -/
def construct (g : ConfigInput) : Host.Outcome Config Fault Refusal :=
  andThen (powerOfTwo .blockSizeInWords g.blockSizeInWords) fun b =>
  andThen (powerOfTwo .setCount g.setCount) fun e =>
  andThen (require .associativity (decide (1 ≤ g.associativity.getD 0))) fun _ =>
  andThen (require .xlen (decide (25 ≤ g.xlen))) fun _ =>
  andThen (require .memWords (decide (1 ≤ g.memWords ∧ g.memWords ≤ 2 ^ (g.xlen - 1)))) fun _ =>
  andThen (require .numRegs (decide (1 ≤ g.numRegs ∧ g.numRegs ≤ 8))) fun _ =>
  andThen (require .opcodeMap (decide g.opc.wf)) fun _ =>
  andThen (require .regInit (decide (g.regInit < 2 ^ g.xlen))) fun _ =>
  andThen (require .memFill (decide (g.memFill < 2 ^ g.xlen))) fun _ =>
  .next { blockOffsetBits := b, setIndexBits := e, associativity := g.associativity.getD 0,
          xlen := g.xlen, memWords := g.memWords, numRegs := g.numRegs, regInit := g.regInit, memFill := g.memFill,
          opc := g.opc }

/-- `mem[0 .. n-1]` from the image, `MEM_FILL` above (R40). -/
def loadImage (c : Config) (image : List Word) : Memory := Memory.writeBlock c.memFill [] 0 image

/-- Boot (R184): configuration check, image, reset, `pc = 0`. An image that cannot be read is
ImageLoadError (R164); one that is longer than memory or has a word wider than `XLEN` is refused, the source saying
nothing of them (N14, U23; log 27). -/
def boot (g : ConfigInput) (image : Option (List Word)) : Host.Outcome State Fault Refusal :=
  andThen (construct g) fun c =>
    match image with
    | none => .fault .imageLoadError
    | some ws =>
      if c.memWords < ws.length then .refused .imageLongerThanMemory
      else if ∀ w ∈ ws, w < 2 ^ c.xlen then .next (State.resetWith c (loadImage c ws))
      else .refused .imageWordTooWide

end Sys2Proof.Machine
end

