-- ==== Sys2Proof/Safety.lean ====
section
/-! DEFINITION. The terms claims are stated in: the invariants of 10_state.md R29 to R31, the logical memory of
20_memory.md R62, what an access evicts, writes and emits, the conservation of the counters, a safe run, and the
flat machine the system refines. -/

namespace Sys2Proof.Machine

/-! ## Invariants of the line array -/

/-- The valid lines of a set, in way order. -/
def validLines (ls : List Line) : List Line := ls.filter fun l => l.valid

/-- LRU total order (R29): the ages of the `k` valid lines are a permutation of `0 .. k-1`. -/
abbrev LruOrder (ls : List Line) : Prop :=
  ((validLines ls).map fun l => l.lruAge).Perm (List.range (validLines ls).length)

/-- Tag uniqueness (R30): no two valid lines of a set share a tag. -/
abbrev TagsUnique (ls : List Line) : Prop := ((validLines ls).map fun l => l.tag).Nodup

/-- The valid lines of a set are the ways `0 .. k-1` (R31 (e)): a line above an invalid one is invalid. -/
abbrev FilledFirst (ls : List Line) : Prop := ls.Pairwise fun l l' => l'.valid = true → l.valid = true

/-- An invalid line has age `A-1`, is clean and holds zeros (R31 (a), (b)). -/
abbrev InvalidLineOk (c : Config) (l : Line) : Prop :=
  l.lruAge = c.associativity - 1 ∧ l.dirty = false ∧ l.blockData = List.replicate c.blockSize 0

/-- A valid line of set `i` carries that set index and a block inside memory (R31 (c), (d)), and equals
memory on its whole block while it is clean (R63). -/
abbrev ValidLineOk (s : State) (i : Nat) (l : Line) : Prop :=
  l.setIndex = i ∧ lineBase s.cfg l + s.cfg.blockSize ≤ s.cfg.memWords ∧
    (l.dirty = false → l.blockData = memRead s (lineBase s.cfg l) s.cfg.blockSize)

/-- What holds of each line of set `i`: a block of `B` words, an age in `0 .. A-1` (R27, R28), and R31. -/
abbrev LineOk (s : State) (i : Nat) (l : Line) : Prop :=
  l.blockData.length = s.cfg.blockSize ∧ l.lruAge < s.cfg.associativity ∧
    (l.valid = true → ValidLineOk s i l) ∧ (l.valid = false → InvalidLineOk s.cfg l)

/-- What holds of set `i`: `A` lines, each in order, and R29, R30, R31 (e). -/
abbrev SetOk (s : State) (i : Nat) : Prop :=
  (s.set i).length = s.cfg.associativity ∧ LruOrder (s.set i) ∧ TagsUnique (s.set i) ∧
    FilledFirst (s.set i) ∧ ∀ l ∈ s.set i, LineOk s i l

/-- What holds of the line array: `S` sets (R21), each in order. -/
abbrev CacheOk (s : State) : Prop :=
  s.lines.length = s.cfg.setCount ∧ ∀ i ∈ List.range s.cfg.setCount, SetOk s i

/-- The invariant of the machine: a well-formed configuration (R161), the line array in order, memory in its
canonical form, `NUMREGS` registers (R38). -/
abbrev Inv (s : State) : Prop :=
  s.cfg.wf ∧ CacheOk s ∧ Memory.wf s.cfg.memFill s.cfg.memWords s.mem ∧ s.x.length = s.cfg.numRegs

/-- `v` has `XLEN` bits. -/
abbrev fitsWord (c : Config) (v : Word) : Prop := v < 2 ^ c.xlen

/-- Every word of the state has `XLEN` bits (R11): memory words, line words, registers, the pc and the read data of
the response. -/
abbrev WordsFit (s : State) : Prop :=
  (∀ cell ∈ s.mem, fitsWord s.cfg cell.2) ∧
    (∀ ls ∈ s.lines, ∀ l ∈ ls, ∀ v ∈ l.blockData, fitsWord s.cfg v) ∧
    (∀ v ∈ s.x, fitsWord s.cfg v) ∧ fitsWord s.cfg s.pc ∧ ∀ r ∈ s.resp, fitsWord s.cfg r.rdata

/-! ## Logical memory -/

/-- `L[a]` (R62): the cached copy where a valid line holds the block of `a`, else the memory word. -/
def logical (s : State) (a : Nat) : Word :=
  match holder s a with
  | some h => readWord h a s
  | none => s.memWord a

/-! ## What an access does -/

/-- The valid line a miss on `a` replaces: none on a hit and none while the set has an invalid line (R105). -/
def victim (s : State) (a : Nat) : Option Handle :=
  match holder s a with
  | some _ => none
  | none =>
    match invalidWay (s.set (setIndexOf s.cfg a)) with
    | some _ => none
    | none => (victimWay s.cfg (s.set (setIndexOf s.cfg a))).map fun w => ⟨setIndexOf s.cfg a, w⟩

/-- The start of the block an access of `a` writes to memory: that of a dirty victim, else none (R57, R69). -/
def writtenBlock (s : State) (a : Nat) : Option Nat :=
  match victim s a with
  | some h => if (s.line h.set h.way).dirty then some (lineBase s.cfg (s.line h.set h.way)) else none
  | none => none

/-- What becomes of another line of the set into which INSTALL brings a block (R107): a valid line ages by exactly
one, an invalid line is unchanged. -/
def Line.aged (l : Line) : Line := if l.valid = true then { l with lruAge := l.lruAge + 1 } else l

/-- Between `s` and `t`, INSTALL took the slot `h` (R105) and promoted it (R107): the slot is the lowest invalid way,
or the line of age `A-1` where the set has no invalid line; its prior age is `A-1`; every other line of the set aged. -/
abbrev SlotTaken (s t : State) (h : Handle) : Prop :=
  h.way < s.cfg.associativity ∧
    ((∃ w < s.cfg.associativity, (s.line h.set w).valid = false) →
      (s.line h.set h.way).valid = false ∧ ∀ w < h.way, (s.line h.set w).valid = true) ∧
    (s.line h.set h.way).lruAge = s.cfg.associativity - 1 ∧
    ∀ w, w ≠ h.way → t.line h.set w = (s.line h.set w).aged

/-- The events of the eviction of a line: C2M first if it is dirty, then C2D (R109, R126). -/
def evictionEvents (s : State) (h : Handle) : List Event :=
  (if (s.line h.set h.way).dirty then
      [⟨lineBase s.cfg (s.line h.set h.way), s.cfg.blockSize, .c2m⟩] else []) ++
    [⟨lineBase s.cfg (s.line h.set h.way), s.cfg.blockSize, .c2d⟩]

/-- The events of an access of `a` whose word transfer has kind `x`: the table of R126. -/
def accessEvents (s : State) (a : Nat) (x : EventKind) : List Event :=
  match holder s a with
  | some _ => [⟨a, 1, x⟩]
  | none =>
    (match victim s a with
      | some h => evictionEvents s h
      | none => []) ++ [⟨blockStart s.cfg a, s.cfg.blockSize, .m2c⟩, ⟨a, 1, x⟩]

/-- The dirty lines, in set order then way order (R112). -/
def dirtyHandles (s : State) : List Handle :=
  (allHandles s.cfg).filter fun h => (s.line h.set h.way).dirty

/-- The events of FLUSH (R126). -/
def flushEvents (s : State) : List Event :=
  (dirtyHandles s).map fun h => ⟨lineBase s.cfg (s.line h.set h.way), s.cfg.blockSize, .c2m⟩

/-- `b` lies in the block that starts at `base`. -/
abbrev inBlock (c : Config) (base b : Nat) : Prop := base ≤ b ∧ b < base + c.blockSize

/-- What no access command changes: the configuration, the lifecycle, the report, the requester's pc and
registers, who is attached, the reset input. -/
abbrev SameOutsideCache (s t : State) : Prop :=
  t.cfg = s.cfg ∧ t.ccState = s.ccState ∧ t.report = s.report ∧ t.pc = s.pc ∧ t.x = s.x ∧
    t.requester = s.requester ∧ t.rst = s.rst

/-- What the requester's register instructions never change: everything but the pc and the registers. -/
abbrev SameButRegisters (s t : State) : Prop :=
  t = { s with pc := t.pc, x := t.x }

/-! ## What the requester computes -/

/-- The address of the next sequential instruction, in the `XLEN` bits of the pc (R39, R141). -/
abbrev nextPc (s : State) : Word := (s.pc + 1) % 2 ^ s.cfg.xlen

/-- The effective address of LW and SW: the signed base plus the signed immediate, an integer (R145). -/
abbrev memAddress (s : State) (f1 : BitVec 3) (f2 : BitVec 16) : Int :=
  signedWord s.cfg.xlen (s.reg f1.toNat) + f2.toInt

/-! ## Counters -/

/-- A transfer of one word between requester and cache: every access that does not fault emits exactly one. -/
def Event.isWordTransfer (e : Event) : Bool := e.kind == .c2p || e.kind == .p2c

/-- Hit/miss conservation (R32, R127): the counters add up to the accesses performed since reset. -/
abbrev Conservation (s : State) : Prop :=
  s.hitCount + s.missCount = (s.events.filter Event.isWordTransfer).length

/-- The final report is there exactly in HALTED (R78, R128). -/
abbrev ReportAtHalt (s : State) : Prop := s.report.isSome = true ↔ s.ccState = .halted

/-! ## Safe runs -/

/-- An outcome that is no fault: the run goes on, ends in HALTED, or has no step. -/
def noFault {α : Type} : Host.Outcome α Fault Refusal → Bool
  | .next _ => true
  | .fault _ => false
  | .refused _ => true

/-- A safe step: it is no fault (R166: a claim about a program shows that the fault does not occur). -/
abbrev SafeStep (s : State) : Prop := noFault (step s) = true

/-- The one fault a running machine may take (R160, R165). -/
def isAddressFault : Fault → Bool
  | .addressOutOfRange _ _ => true
  | .configurationError _ => false
  | .imageLoadError => false
  | .noVictim => false
  | .blockOutsideMemory _ => false

/-! ## The flat machine -/

/-- What the reference requester sees of the machine: its word width, its pc, its registers, and the value of every
word. -/
structure View where
  xlen : Nat
  pc : Word
  x : List Word
  word : Nat → Word

/-- The view of a state: memory as the requester reads it is the logical memory (R62). -/
def viewOf (s : State) : View := { xlen := s.cfg.xlen, pc := s.pc, x := s.x, word := logical s }

/-- The effective address of LW and SW on the flat machine (R145). -/
def View.address (v : View) (f1 : BitVec 3) (f2 : BitVec 16) : Nat :=
  (signedWord v.xlen (v.x.getD f1.toNat 0) + f2.toInt).toNat

/-- The address of the next sequential instruction (R39, R141). -/
def View.nextPc (v : View) : Word := (v.pc + 1) % 2 ^ v.xlen

/-- The requester's instruction on a flat memory without a cache: the register, memory and pc effects of
R143 to R150 alone, `v` being the view before the instruction. -/
def flatExec (i : Instr) (v : View) : View :=
  match i with
  | .add f0 f1 f2 =>
    { v with pc := v.nextPc,
             x := v.x.set f2.toInt.toNat ((v.x.getD f0.toNat 0 + v.x.getD f1.toNat 0) % 2 ^ v.xlen) }
  | .nand f0 f1 f2 =>
    { v with pc := v.nextPc,
             x := v.x.set f2.toInt.toNat
               (~~~(bitsOf v.xlen (v.x.getD f0.toNat 0) &&& bitsOf v.xlen (v.x.getD f1.toNat 0))).toNat }
  | .lw f0 f1 f2 => { v with pc := v.nextPc, x := v.x.set f0.toNat (v.word (v.address f1 f2)) }
  | .sw f0 f1 f2 =>
    { v with pc := v.nextPc,
             word := fun b => if b = v.address f1 f2 then v.x.getD f0.toNat 0 else v.word b }
  | .beq f0 f1 f2 =>
    { v with pc := if v.x.getD f0.toNat 0 = v.x.getD f1.toNat 0 then
                     (((v.pc : Int) + 1 + f2.toInt) % 2 ^ v.xlen).toNat
                   else v.nextPc }
  | .jalr f0 f1 => { v with pc := (v.x.set f0.toNat v.nextPc).getD f1.toNat 0, x := v.x.set f0.toNat v.nextPc }
  | .noop => { v with pc := v.nextPc }
  | .halt => v
  | .ifetch _ => v
  | .load _ => v
  | .store a d => { v with word := fun b => if b = a then d else v.word b }
  | .flush => v

end Sys2Proof.Machine
end

