-- ==== Sys2Proof/Certificates/Slice0/Obligations.lean ====
section
/-! DEFINITION. The statements for the provers. Each cites in its docstring the rule or the files of spec/ it
formalises; where it rests on a choice the spec marks as its own, or on one of the model's, the docstring names
it. -/

open Sys2Proof Sys2Proof.Machine

/-! ## Encodings -/

/-- Decoding an encoded well-formed instruction gives it back, for every word width, opcode map, number of registers
and operand (30_encoding.md, sections 2 and 5). -/
def Obligations.DecodeInvertsEncode : Prop :=
  ∀ (c : Config) (i : Instr), c.opc.wf → i.wellFormed c = true → decode c (encode c i) = .ok i

/-- What the decoder accepts is well formed: registers that exist, operands of `XLEN` bits (30_encoding.md, sections 2
and 5). -/
def Obligations.DecodedInstructionsAreWellFormed : Prop :=
  ∀ (c : Config) (code : Code) (i : Instr), decode c code = .ok i → i.wellFormed c = true

/-- Words written out from the spec's encodings decode to the instructions they stand for (the examples of
43_requester.md with the default opcode numbering of log 6, and command words of 30_encoding.md with `XLEN = 32`). -/
def Obligations.SpecWordsDecode : Prop :=
  decodeWord .lc2k 8 0x000A0003 = .ok (.add 1 2 3) ∧
  decodeWord .lc2k 8 0x004A0003 = .ok (.nand 1 2 3) ∧
  decodeWord .lc2k 8 0x00880006 = .ok (.lw 1 0 6) ∧
  decodeWord .lc2k 8 0x00D00007 = .ok (.sw 2 0 7) ∧
  decodeWord .lc2k 8 0x0100FFFD = .ok (.beq 0 0 0xFFFD#16) ∧
  decodeWord .lc2k 8 0x017C0000 = .ok (.jalr 7 4) ∧
  decodeWord .lc2k 8 0x01800000 = .ok .halt ∧
  decodeWord .lc2k 8 0x01C00000 = .ok .noop ∧
  decodeCommand 32 0x10000000D00000005 = .load 13 ∧
  decodeCommand 32 0x20000000D00000005 = .store 13 5

/-- The reserved encodings and no others are refused, by the decoder and by the step that fetches one: some
bit above bit 24 set, a destination of ADD or NAND that is no register, a register field that is no register
(30_encoding.md, section 5; the refusal is the spec's decision D27 to D29, log 22). -/
def Obligations.ReservedEncodingsAreRefused : Prop :=
  ∀ (m : OpcodeMap) (numRegs : Nat) (w : Word), m.wf →
    (highBits w ≠ 0 → decodeWord m numRegs w = .error .highBitsSet) ∧
    (∀ o, highBits w = 0 → decodeOpcode m (opcodeField w) = some o →
      (assemble o w).fieldsAreRegisters numRegs = false →
        decodeWord m numRegs w = .error .fieldNotARegister) ∧
    (∀ o, highBits w = 0 → decodeOpcode m (opcodeField w) = some o →
      (assemble o w).fieldsAreRegisters numRegs = true →
      (assemble o w).destinationIsRegister numRegs = false →
        decodeWord m numRegs w = .error .destinationNotARegister) ∧
    (∀ o, highBits w = 0 → decodeOpcode m (opcodeField w) = some o →
      (assemble o w).namesRegisters numRegs = true → decodeWord m numRegs w = .ok (assemble o w)) ∧
    (∀ (s : State) (r : Reply) (e : DecodeError), s.rst = false → s.requester = .engine →
      ccRead .ifetch s.pc s = .next r → decodeWord s.cfg.opc s.cfg.numRegs r.rdata = .error e →
        step s = .refused (.reservedEncoding e))

/-- Every opcode value selects an instruction, whatever bijection `OPC` is (30_encoding.md, section 5). -/
def Obligations.EveryOpcodeValueIsAssigned : Prop :=
  ∀ (m : OpcodeMap), m.wf → ∀ v : BitVec 3, ∃ o, decodeOpcode m v = some o ∧ encodeOpcode m o = v

/-! ## Address decoder -/

/-- BLOCKOFFSET (R91). -/
def Obligations.BlockOffsetIsRemainder : Prop :=
  ∀ (c : Config) (a : Nat),
    blockOffset c a = a &&& ((1 <<< c.blockOffsetBits) - 1) ∧
    blockOffset c a = a % c.blockSize ∧ blockOffset c a < c.blockSize ∧
    (c.blockSize = 1 → blockOffset c a = 0) ∧ blockOffset c 0 = 0 ∧
    (c.blockSize = 4 → blockOffset c 423 = 3)

/-- SETINDEX (R92). -/
def Obligations.SetIndexIsBlockNumberModuloSets : Prop :=
  ∀ (c : Config) (a : Nat),
    setIndexOf c a = (a >>> c.blockOffsetBits) &&& ((1 <<< c.setIndexBits) - 1) ∧
    setIndexOf c a = a / c.blockSize % c.setCount ∧ setIndexOf c a < c.setCount ∧
    (c.setCount = 1 → setIndexOf c a = 0) ∧
    (c.blockSize = 1 → setIndexOf c a = a &&& (c.setCount - 1)) ∧
    setIndexOf c (a + c.blockSize) = (setIndexOf c a + 1) % c.setCount ∧
    setIndexOf c (a + c.blockSize * c.setCount) = setIndexOf c a ∧
    (c.blockSize = 4 → c.setCount = 8 → setIndexOf c 423 = 1)

/-- TAG (R93). -/
def Obligations.TagIsAllHighBits : Prop :=
  ∀ (c : Config) (a : Nat),
    tagOf c a = a >>> (c.blockOffsetBits + c.setIndexBits) ∧
    tagOf c a = a / (c.blockSize * c.setCount) ∧
    (a < c.blockSize * c.setCount → tagOf c a = 0) ∧
    (c.blockSize = 1 → c.setCount = 1 → tagOf c a = a) ∧
    (c.blockSize = 4 → c.setCount = 8 → tagOf c 423 = 13)

/-- BLOCKSTART (R94). -/
def Obligations.BlockStartIsAligned : Prop :=
  ∀ (c : Config) (a : Nat),
    blockStart c a = a - blockOffset c a ∧ blockStart c a = a / c.blockSize * c.blockSize ∧
    (∀ i, (blockStart c a).testBit i = (a.testBit i && !(c.blockSize - 1).testBit i)) ∧
    c.blockSize ∣ blockStart c a ∧ blockStart c a ≤ a ∧ a < blockStart c a + c.blockSize ∧
    (c.blockSize = 1 → blockStart c a = a) ∧ (c.blockSize ∣ a → blockStart c a = a) ∧
    (c.blockSize = 4 → blockStart c 423 = 420)

/-- LINEBASE of a line whose set index is in range (R95): the fields have no bit in common, and the line a fill
from `a` makes has the base `BLOCKSTART(a)`. -/
def Obligations.LineBaseReconstructsTheBlock : Prop :=
  ∀ (c : Config) (l : Line), l.setIndex < c.setCount →
    lineBase c l = (l.tag <<< (c.setIndexBits + c.blockOffsetBits)) ||| (l.setIndex <<< c.blockOffsetBits) ∧
    lineBase c l = (l.tag <<< (c.setIndexBits + c.blockOffsetBits)) + (l.setIndex <<< c.blockOffsetBits) ∧
    (∀ (a : Nat) (s : State), s.cfg = c → lineBase c (filledLine a s) = blockStart c a) ∧
    (c.setCount = 1 → lineBase c l = l.tag <<< c.blockOffsetBits) ∧
    (c.blockSize = 1 → lineBase c l = (l.tag <<< c.setIndexBits) ||| l.setIndex) ∧
    (c.blockSize = 4 → c.setCount = 8 → l.tag = 13 → l.setIndex = 1 → lineBase c l = 420)

/-- The split of an address is lossless, and the tag of a valid address is bounded (R71). -/
def Obligations.AddressSplitIsLossless : Prop :=
  ∀ (c : Config) (a : Nat),
    ((tagOf c a <<< (c.setIndexBits + c.blockOffsetBits)) ||| (setIndexOf c a <<< c.blockOffsetBits) |||
      blockOffset c a = a) ∧
    (a < c.memWords → tagOf c a ≤ (c.memWords - 1) >>> (c.blockOffsetBits + c.setIndexBits)) ∧
    (c.memWords ≤ 2 ^ (c.blockOffsetBits + c.setIndexBits) → a < c.memWords → tagOf c a = 0)

/-- The round trip (R96): the three fields of an address give it back; (a) without the block offset they give the start
of its block; (b) two addresses lie in the same block exactly when tag and set index agree; (c) the addresses with a
given tag and set index are exactly the `B` addresses from the base of that tag and set index, with their block
offsets in order; the example. -/
def Obligations.AddressRoundTrip : Prop :=
  ∀ (c : Config) (a a' : Nat),
    (∀ t i k, addressOf c t i k =
      ((t <<< (c.setIndexBits + c.blockOffsetBits)) ||| (i <<< c.blockOffsetBits) ||| k)) ∧
    addressOf c (tagOf c a) (setIndexOf c a) (blockOffset c a) = a ∧
    ((tagOf c a <<< (c.setIndexBits + c.blockOffsetBits)) ||| (setIndexOf c a <<< c.blockOffsetBits)) =
      blockStart c a ∧
    (blockStart c a = blockStart c a' ↔ tagOf c a = tagOf c a' ∧ setIndexOf c a = setIndexOf c a') ∧
    (∀ (l : Line), l.setIndex < c.setCount →
      (∀ b, (∃ k < c.blockSize, b = lineBase c l + k) ↔ tagOf c b = l.tag ∧ setIndexOf c b = l.setIndex) ∧
      ∀ k < c.blockSize, blockOffset c (lineBase c l + k) = k) ∧
    (c.blockSize = 4 → c.setCount = 8 → addressOf c 13 1 3 = 423)

/-! ## Cache store primitives -/

/-- LOOKUP (R101): the range test first; then the hit it answers is a valid line of the addressed set with the
whole tag, and it answers a miss only where there is none; a hit does not depend on the way where tags are
unique. It is a function of the state, so it writes nothing. -/
def Obligations.LookupFindsTheMatchingLine : Prop :=
  ∀ (op : AccessOp) (s : State) (a : Int),
    (¬ validAddress s.cfg a → lookup op a s = .fault (.addressOutOfRange op a)) ∧
    (validAddress s.cfg a → ∃ r, lookup op a s = .next r ∧
      (∀ h, r = some h → h.set = setIndexOf s.cfg a.toNat ∧ h.way < (s.set h.set).length ∧
        (s.line h.set h.way).valid = true ∧ (s.line h.set h.way).tag = tagOf s.cfg a.toNat ∧
        (TagsUnique (s.set h.set) → ∀ w < (s.set h.set).length, (s.line h.set w).valid = true →
          (s.line h.set w).tag = tagOf s.cfg a.toNat → w = h.way)) ∧
      (r = none → ∀ l ∈ s.set (setIndexOf s.cfg a.toNat), l.valid = true → l.tag ≠ tagOf s.cfg a.toNat)) ∧
    (s.cfg.blockSize = 1 → s.cfg.setCount = 4 → 6 ≤ s.cfg.memWords →
      (∀ l, s.set 0 = [l] → l.valid = true → l.tag = 1 →
        lookup op 4 s = .next (some ⟨0, 0⟩) ∧ lookup op 0 s = .next none) ∧
      (∀ l, s.set 1 = [l] → l.valid = false → lookup op 5 s = .next none))

/-- TOUCHLRU of a valid line (R103): its age becomes 0, every other valid line of the set younger than its prior
age ages by one, nothing else changes; the corner cases; no age leaves `0 .. A-1`; the LRU order is kept. -/
def Obligations.TouchLruPromotesTheLine : Prop :=
  ∀ (s : State) (h : Handle), h.set < s.lines.length → h.way < (s.set h.set).length →
    (s.line h.set h.way).valid = true →
    (touchLru h s).line h.set h.way = { s.line h.set h.way with lruAge := 0 } ∧
    (∀ w, w ≠ h.way → (touchLru h s).line h.set w =
      if (s.line h.set w).valid = true ∧ (s.line h.set w).lruAge < (s.line h.set h.way).lruAge then
        { s.line h.set w with lruAge := (s.line h.set w).lruAge + 1 }
      else s.line h.set w) ∧
    touchLru h s = { s with lines := (touchLru h s).lines } ∧
    (touchLru h s).lines.length = s.lines.length ∧
    ((touchLru h s).set h.set).length = (s.set h.set).length ∧
    (∀ i, i ≠ h.set → (touchLru h s).set i = s.set i) ∧
    ((s.line h.set h.way).lruAge = 0 → touchLru h s = s) ∧
    ((∀ l ∈ s.set h.set, l.lruAge < s.cfg.associativity) →
      (s.cfg.associativity = 1 → touchLru h s = s) ∧
      ∀ l ∈ (touchLru h s).set h.set, l.lruAge < s.cfg.associativity) ∧
    (LruOrder (s.set h.set) → LruOrder ((touchLru h s).set h.set)) ∧
    ((s.set h.set).map (fun l => (l.valid, l.lruAge)) = [(true, 0), (true, 1), (true, 2), (true, 3)] →
      h.way = 2 → ((touchLru h s).set h.set).map (fun l => l.lruAge) = [1, 2, 0, 3])

/-- INSTALL after a miss (41_cache_store.md, section 3): it takes the lowest invalid way (the spec's decision
D8, log 17), or the line of age `A-1` where no line of the set is invalid, and leaves there a valid clean copy of the
whole block of `a` with age 0, as the line that `holder` finds; every other valid line of the set ages by exactly one
and every other invalid line is unchanged; the events are those of the eviction, then M2C (fields by the spec's
decision D7, log 18); other sets, the counters and the requester are untouched. -/
def Obligations.InstallPlacesTheBlock : Prop :=
  ∀ (op : AccessOp) (s : State) (a : Int), Inv s → addressOk s.cfg a → holder s a.toNat = none →
    ∃ p, install op a s = .next p ∧ p.handle.set = setIndexOf s.cfg a.toNat ∧ SlotTaken s p.state p.handle ∧
      holder p.state a.toNat = some p.handle ∧
      p.state.line p.handle.set p.handle.way =
        { valid := true, dirty := false, setIndex := setIndexOf s.cfg a.toNat, tag := tagOf s.cfg a.toNat,
          lruAge := 0, blockData := memRead s (blockStart s.cfg a.toNat) s.cfg.blockSize } ∧
      p.state.events = s.events ++
        (if (s.line p.handle.set p.handle.way).valid then evictionEvents s p.handle else []) ++
        [⟨blockStart s.cfg a.toNat, s.cfg.blockSize, .m2c⟩] ∧
      (∀ i, i ≠ p.handle.set → p.state.set i = s.set i) ∧
      p.state.hitCount = s.hitCount ∧ p.state.missCount = s.missCount ∧ p.state.resp = s.resp ∧
      p.state.free = s.free ∧ SameOutsideCache s p.state

/-- WRITEBACK of a line whose block lies in memory (41_cache_store.md, section 4): all `B` words go to memory,
word `k` to `LINEBASE + k`, one C2M event is emitted, and nothing else changes. -/
def Obligations.WriteBackCopiesTheBlock : Prop :=
  ∀ (s : State) (h : Handle),
    (s.line h.set h.way).blockData.length = s.cfg.blockSize →
    lineBase s.cfg (s.line h.set h.way) + s.cfg.blockSize ≤ s.cfg.memWords →
    ∃ t, writeBack h s = .next t ∧
      (∀ k < s.cfg.blockSize, t.memWord (lineBase s.cfg (s.line h.set h.way) + k) =
        (s.line h.set h.way).blockData.getD k 0) ∧
      (∀ b, ¬ inBlock s.cfg (lineBase s.cfg (s.line h.set h.way)) b → t.memWord b = s.memWord b) ∧
      t = { s with mem := t.mem,
                   events := s.events ++ [⟨lineBase s.cfg (s.line h.set h.way), s.cfg.blockSize, .c2m⟩] }

/-! ## Access commands -/

/-- IFETCH and LOAD of an accepted address complete: the response is the logical word and whether the lookup
hit, exactly one counter moves, the events are those of the table of 42_access_commands.md section "event
sequences" (its addresses and sizes are the spec's decision D7, log 18), and the line then holding the block has
age 0. On a hit the line array is that of TOUCHLRU of the line found; on a miss the block stands clean in the slot
INSTALL takes (the lowest invalid way by the spec's decision D8, log 17) and the other lines of the set age as it
says (42_access_commands.md; 41_cache_store.md, sections 2 and 3; 20_memory.md, section 3). -/
def Obligations.ReadsCompleteWithTheLogicalWord : Prop :=
  ∀ (s : State) (a : Word) (i : Instr), Inv s → s.ccState = .ready → addressOk s.cfg a →
    i = .ifetch a ∨ i = .load a →
    ∃ t h, exec i s = .next t ∧ holder t a = some h ∧ (t.line h.set h.way).lruAge = 0 ∧
      t.resp = some { rdata := logical s a, hit := (holder s a).isSome, fault := 0 } ∧
      t.hitCount = s.hitCount + (if (holder s a).isSome then 1 else 0) ∧
      t.missCount = s.missCount + (if (holder s a).isSome then 0 else 1) ∧
      t.events = s.events ++ accessEvents s a .c2p ∧
      (∀ k, holder s a = some k → t.lines = (touchLru k s).lines ∧ h = k) ∧
      (holder s a = none → SlotTaken s t h ∧
        t.line h.set h.way =
          { valid := true, dirty := false, setIndex := setIndexOf s.cfg a, tag := tagOf s.cfg a,
            lruAge := 0, blockData := memRead s (blockStart s.cfg a) s.cfg.blockSize }) ∧
      SameOutsideCache s t

/-- Inside CC a LOAD is an IFETCH (42_access_commands.md, LOAD): the same next state, or faults that differ only
in the operation they name. -/
def Obligations.LoadIsIfetchInsideCC : Prop :=
  ∀ (s : State) (a : Word),
    (∀ t, exec (.load a) s = .next t ↔ exec (.ifetch a) s = .next t) ∧
    (∀ r, exec (.load a) s = .refused r ↔ exec (.ifetch a) s = .refused r) ∧
    (∀ b : Int, exec (.load a) s = .fault (.addressOutOfRange .load b) ↔
      exec (.ifetch a) s = .fault (.addressOutOfRange .ifetch b))

/-- STORE of an accepted address completes, hit or miss (write-allocate): the line that then holds the block is
dirty with age 0 and holds the data at the block offset, memory outside a dirty victim's block is unchanged, the
counters and events are as for a read with P2C. On a hit the lines are those of TOUCHLRU of the line found, with the
one word and the dirty bit of that line; on a miss those of INSTALL, with the one word and the dirty bit of the slot it
takes (42_access_commands.md, STORE; 41_cache_store.md, sections 2 and 3; event fields by the spec's decision D7,
log 18; the lowest invalid way by D8, log 17). The response's `rdata` is a free value and not spoken of. -/
def Obligations.StoreCompletesInTheCache : Prop :=
  ∀ (s : State) (a v : Word), Inv s → s.ccState = .ready → addressOk s.cfg a →
    ∃ t h, exec (.store a v) s = .next t ∧ holder t a = some h ∧
      (t.line h.set h.way).dirty = true ∧ (t.line h.set h.way).lruAge = 0 ∧ readWord h a t = v ∧
      (∀ k < s.cfg.blockSize, k ≠ blockOffset s.cfg a →
        (t.line h.set h.way).blockData.getD k 0 = logical s (blockStart s.cfg a + k)) ∧
      (∃ r, t.resp = some r ∧ r.hit = (holder s a).isSome ∧ r.fault = 0) ∧
      t.hitCount = s.hitCount + (if (holder s a).isSome then 1 else 0) ∧
      t.missCount = s.missCount + (if (holder s a).isSome then 0 else 1) ∧
      t.events = s.events ++ accessEvents s a .p2c ∧
      (∀ k, holder s a = some k → h = k ∧
        t.line k.set k.way =
          { (touchLru k s).line k.set k.way with
            dirty := true, blockData := (s.line k.set k.way).blockData.set (blockOffset s.cfg a) v } ∧
        ∀ w, w ≠ k.way → t.line k.set w = (touchLru k s).line k.set w) ∧
      (holder s a = none → SlotTaken s t h ∧
        t.line h.set h.way =
          { valid := true, dirty := true, setIndex := setIndexOf s.cfg a, tag := tagOf s.cfg a, lruAge := 0,
            blockData := (memRead s (blockStart s.cfg a) s.cfg.blockSize).set (blockOffset s.cfg a) v }) ∧
      t.memWord a = s.memWord a ∧
      (∀ b, (∀ base, writtenBlock s a = some base → ¬ inBlock s.cfg base b) →
        t.memWord b = s.memWord b) ∧
      SameOutsideCache s t

/-- FLUSH completes from READY: every dirty line is written back with one C2M event each, in set then way order
(the spec's decision D15, log 17), the report carries the counters, CC is HALTED, and no line, counter or
requester state changes (42_access_commands.md, FLUSH; 41_cache_store.md, section 6). -/
def Obligations.FlushCompletes : Prop :=
  ∀ s : State, Inv s → s.ccState = .ready →
    ∃ t, exec .flush s = .next t ∧ t.ccState = .halted ∧
      t.report = some { hitCount := s.hitCount, missCount := s.missCount } ∧
      t.events = s.events ++ flushEvents s ∧
      (∃ r, t.resp = some r ∧ r.fault = 0) ∧
      t.lines = s.lines ∧ t.hitCount = s.hitCount ∧ t.missCount = s.missCount ∧ t.cfg = s.cfg ∧
      t.pc = s.pc ∧ t.x = s.x ∧ t.requester = s.requester ∧ t.rst = s.rst

/-- After FLUSH memory equals the logical memory at every address (20_memory.md, section 4, FLUSH), which FLUSH
itself does not change. -/
def Obligations.FlushMakesMemoryLogical : Prop :=
  ∀ s t : State, Inv s → exec .flush s = .next t →
    ∀ a, t.memWord a = logical s a ∧ logical t a = logical s a

/-- An address outside memory, or one whose block passes the end of memory (the spec's decision D4, log 16), is
an AddressOutOfRange naming the operation and the address, and nothing else of an access command is: it faults
exactly there. Then the status port shows FAULTED and `resp_fault` the code 2 (60_exceptions.md, sections 1
and 2; the code is the spec's decision D20). -/
def Obligations.AddressFaultsExactlyOutsideMemory : Prop :=
  ∀ (s : State) (a v : Word), Inv s → s.ccState = .ready →
    (exec (.ifetch a) s = .fault (.addressOutOfRange .ifetch a) ↔ ¬ addressOk s.cfg a) ∧
    (exec (.load a) s = .fault (.addressOutOfRange .load a) ↔ ¬ addressOk s.cfg a) ∧
    (exec (.store a v) s = .fault (.addressOutOfRange .store a) ↔ ¬ addressOk s.cfg a) ∧
    (∀ f, exec .flush s ≠ .fault f) ∧
    ∀ i, i = .ifetch a ∨ i = .load a ∨ i = .store a v → ¬ addressOk s.cfg a →
      respFault (exec i s) = some 2 ∧ lifecycleAfter s (exec i s) = .faulted

/-- Counters (R127): every access command that completes moves exactly one counter by one, according to its
lookup, FLUSH moves none; the counters add up to the accesses performed after every step that is no reset, if
they did before; after reset no block is present, and an access makes no block present but its own, so the first
access to a block misses; an access to a block that is present is a hit, whichever command brought it in. -/
def Obligations.CountersCountAccesses : Prop :=
  (∀ (s t : State) (a v : Word) (i : Instr), i = .ifetch a ∨ i = .load a ∨ i = .store a v →
    exec i s = .next t →
    (∀ h, holder s a = some h → t.hitCount = s.hitCount + 1 ∧ t.missCount = s.missCount) ∧
    (holder s a = none → t.hitCount = s.hitCount ∧ t.missCount = s.missCount + 1)) ∧
  (∀ s t : State, exec .flush s = .next t → t.hitCount = s.hitCount ∧ t.missCount = s.missCount) ∧
  (∀ (c : Config) (m : Memory) (a : Nat), holder (State.resetWith c m) a = none ∧
    Conservation (State.resetWith c m)) ∧
  (∀ s t : State, s.rst = false → step s = .next t →
    (Conservation s → Conservation t) ∧ s.hitCount ≤ t.hitCount ∧ s.missCount ≤ t.missCount) ∧
  (∀ (s t : State) (a b v v' : Word) (i j : Instr), Inv s →
    i = .ifetch a ∨ i = .load a ∨ i = .store a v → exec i s = .next t →
    blockStart s.cfg b = blockStart s.cfg a →
    j = .ifetch b ∨ j = .load b ∨ j = .store b v' →
    ∃ u, exec j t = .next u ∧ u.hitCount = t.hitCount + 1 ∧ u.missCount = t.missCount) ∧
  (∀ (s t : State) (a v : Word) (i : Instr) (b : Nat), Inv s →
    i = .ifetch a ∨ i = .load a ∨ i = .store a v → exec i s = .next t → holder s b = none →
    blockStart s.cfg b ≠ blockStart s.cfg a → holder t b = none)

/-- The value law (20_memory.md, section 3, derived there): a store sets the logical memory at its address and
nowhere else; every other command and the fetch leave it alone; a read returns it. -/
def Obligations.LogicalMemoryLaw : Prop :=
  ∀ (s t : State) (a v : Word), Inv s →
    (exec (.store a v) s = .next t →
      ∀ b, logical t b = if b = a then v else logical s b) ∧
    (exec (.ifetch a) s = .next t ∨ exec (.load a) s = .next t →
      (∃ r, t.resp = some r ∧ r.rdata = logical s a) ∧ ∀ b, logical t b = logical s b) ∧
    (exec .flush s = .next t → ∀ b, logical t b = logical s b)

/-- A store is seen by the next fetch or load of the same address, with no operation between, as a hit
(20_memory.md, section 4; 70_reset_and_hazards.md, section 3). That the one event of that read is a C2P record of the
address and size 1 is by the spec's decision D7 (42_access_commands.md, R126; log 18). -/
def Obligations.StoreIsSeenByTheNextFetch : Prop :=
  ∀ (s t : State) (a v : Word) (i : Instr), Inv s → exec (.store a v) s = .next t →
    i = .ifetch a ∨ i = .load a →
    ∃ u, exec i t = .next u ∧ u.resp = some { rdata := v, hit := true, fault := 0 } ∧
      u.events = t.events ++ [⟨a, 1, .c2p⟩]

/-- A second access to a block finds the line the first left there, changes no line and no memory
(42_access_commands.md, corner cases (a)). -/
def Obligations.SecondReadHitsAndChangesNoLine : Prop :=
  ∀ (s t : State) (a b : Word), Inv s → exec (.load a) s = .next t →
    blockStart s.cfg b = blockStart s.cfg a →
    ∃ u, exec (.load b) t = .next u ∧ u.lines = t.lines ∧ u.mem = t.mem ∧
      u.hitCount = t.hitCount + 1 ∧ u.resp = some { rdata := logical s b, hit := true, fault := 0 }

/-- An access never changes a set other than that of its address (42_access_commands.md, corner cases (c)). -/
def Obligations.AccessTouchesOnlyItsSet : Prop :=
  ∀ (s t : State) (a v : Word) (i : Instr), i = .ifetch a ∨ i = .load a ∨ i = .store a v →
    exec i s = .next t → ∀ j, j ≠ setIndexOf s.cfg a → t.set j = s.set j

/-! ## Requester -/

/-- ADD completes for every form that is no reserved encoding: the destination is `x[field2]`, the sum is
modulo `2^XLEN` (the spec's decision D25, log 28), sources are read first, and every other register, flag-like
state, memory word and line is unchanged (43_requester.md, ADD). -/
def Obligations.AddWritesTheSum : Prop :=
  ∀ (s : State) (f0 f1 : BitVec 3) (f2 : BitVec 16), Inv s → s.ccState = .ready →
    (Instr.add f0 f1 f2).namesRegisters s.cfg.numRegs = true →
    ∃ t, exec (.add f0 f1 f2) s = .next t ∧
      t.reg f2.toInt.toNat = (s.reg f0.toNat + s.reg f1.toNat) % 2 ^ s.cfg.xlen ∧
      (∀ n, n ≠ f2.toInt.toNat → t.reg n = s.reg n) ∧ t.pc = nextPc s ∧ SameButRegisters s t

/-- NAND (R144): the same forms as ADD, the complement at `XLEN` bits, the corner cases, its encoding
and its example (whose word is by the default numbering of log 6). -/
def Obligations.NandWritesTheComplement : Prop :=
  (∀ (s : State) (f0 f1 : BitVec 3) (f2 : BitVec 16), Inv s → s.ccState = .ready →
    (Instr.nand f0 f1 f2).namesRegisters s.cfg.numRegs = true →
    decodeWord s.cfg.opc s.cfg.numRegs (packWord s.cfg.opc.nand f0 f1 f2) = .ok (.nand f0 f1 f2) ∧
    ∃ t, exec (.nand f0 f1 f2) s = .next t ∧
      t.reg f2.toInt.toNat =
        (~~~(bitsOf s.cfg.xlen (s.reg f0.toNat) &&& bitsOf s.cfg.xlen (s.reg f1.toNat))).toNat ∧
      (∀ n, n ≠ f2.toInt.toNat → t.reg n = s.reg n) ∧ t.pc = nextPc s ∧ SameButRegisters s t ∧
      (f0 = f1 → t.reg f2.toInt.toNat = (~~~(bitsOf s.cfg.xlen (s.reg f0.toNat))).toNat) ∧
      (s.reg f0.toNat = 0 → s.reg f1.toNat = 0 → t.reg f2.toInt.toNat = 2 ^ s.cfg.xlen - 1 ∧
        signedWord s.cfg.xlen (t.reg f2.toInt.toNat) = -1)) ∧
  decodeWord .lc2k 8 0x004A0003 = .ok (.nand 1 2 3) ∧
  ∀ s : State, Inv s → s.ccState = .ready → s.cfg.xlen = 32 → s.cfg.numRegs = 8 →
    s.reg 1 = 0xC → s.reg 2 = 0xA →
    ∃ t, exec (.nand 1 2 3) s = .next t ∧ t.reg 3 = 0xFFFFFFF7

/-- LW (R145): the effective address is the integer `x[field1] + sext(field2)`; an accepted one completes with
the LOAD of that address and its word in `x[field0]`, whatever the fields; any other faults and gives no next
state, after the fetch was performed and counted; its encoding
and its example (whose word is by the default numbering of log 6). -/
def Obligations.LwLoadsTheLogicalWord : Prop :=
  (∀ (s : State) (f0 f1 : BitVec 3) (f2 : BitVec 16), Inv s → s.ccState = .ready →
    (Instr.lw f0 f1 f2).namesRegisters s.cfg.numRegs = true →
    decodeWord s.cfg.opc s.cfg.numRegs (packWord s.cfg.opc.lw f0 f1 f2) = .ok (.lw f0 f1 f2) ∧
    (addressOk s.cfg (memAddress s f1 f2) →
      ∃ t r, exec (.lw f0 f1 f2) s = .next t ∧
        ccRead .load (memAddress s f1 f2) { s with pc := nextPc s } = .next r ∧
        t = { r.state with x := t.x } ∧ t.pc = nextPc s ∧
        t.reg f0.toNat = logical s (memAddress s f1 f2).toNat ∧
        ∀ n, n ≠ f0.toNat → t.reg n = s.reg n) ∧
    (¬ addressOk s.cfg (memAddress s f1 f2) →
      exec (.lw f0 f1 f2) s = .fault (.addressOutOfRange .load (memAddress s f1 f2)) ∧
      ∀ (u : State) (r : Reply), u.rst = false → u.requester = .engine →
        ccRead .ifetch u.pc u = .next r → r.state = s →
        decodeWord u.cfg.opc u.cfg.numRegs r.rdata = .ok (.lw f0 f1 f2) →
        step u = .fault (.addressOutOfRange .load (memAddress s f1 f2)) ∧
          s.hitCount + s.missCount = u.hitCount + u.missCount + 1)) ∧
  decodeWord .lc2k 8 0x00880006 = .ok (.lw 1 0 6) ∧
  ∀ s : State, Inv s → s.ccState = .ready → s.cfg.numRegs = 8 → s.reg 0 = 0 → addressOk s.cfg 6 →
    logical s 6 = 21 → ∃ t, exec (.lw 1 0 6) s = .next t ∧ t.reg 1 = 21

/-- SW (R146): the same effective address; an accepted one completes as the STORE of `x[field0]` there and
writes no register; the memory word of the address is not written, nor any other but those of a dirty victim's
block; a fetch of the address then gets the data; any other address faults, after the fetch was counted; its
encoding and its example (whose word is by the default numbering of log 6). -/
def Obligations.SwStoresTheRegister : Prop :=
  (∀ (s : State) (f0 f1 : BitVec 3) (f2 : BitVec 16), Inv s → s.ccState = .ready →
    (Instr.sw f0 f1 f2).namesRegisters s.cfg.numRegs = true →
    decodeWord s.cfg.opc s.cfg.numRegs (packWord s.cfg.opc.sw f0 f1 f2) = .ok (.sw f0 f1 f2) ∧
    (addressOk s.cfg (memAddress s f1 f2) →
      ∃ t, exec (.sw f0 f1 f2) s = .next t ∧
        ccStore (memAddress s f1 f2) (s.reg f0.toNat) { s with pc := nextPc s } = .next t ∧
        (∃ h, holder t (memAddress s f1 f2).toNat = some h ∧
          (t.line h.set h.way).dirty = true) ∧
        (∃ r, ccRead .ifetch (memAddress s f1 f2) t = .next r ∧ r.rdata = s.reg f0.toNat) ∧
        t.memWord (memAddress s f1 f2).toNat = s.memWord (memAddress s f1 f2).toNat ∧
        (∀ b, logical t b = if b = (memAddress s f1 f2).toNat then s.reg f0.toNat
          else logical s b) ∧
        (∀ b, (∀ base, writtenBlock s (memAddress s f1 f2).toNat = some base →
          ¬ inBlock s.cfg base b) → t.memWord b = s.memWord b) ∧
        t.x = s.x ∧ t.pc = nextPc s) ∧
    (¬ addressOk s.cfg (memAddress s f1 f2) →
      exec (.sw f0 f1 f2) s = .fault (.addressOutOfRange .store (memAddress s f1 f2)) ∧
      ∀ (u : State) (r : Reply), u.rst = false → u.requester = .engine →
        ccRead .ifetch u.pc u = .next r → r.state = s →
        decodeWord u.cfg.opc u.cfg.numRegs r.rdata = .ok (.sw f0 f1 f2) →
        step u = .fault (.addressOutOfRange .store (memAddress s f1 f2)) ∧
          s.hitCount + s.missCount = u.hitCount + u.missCount + 1)) ∧
  decodeWord .lc2k 8 0x00D00007 = .ok (.sw 2 0 7) ∧
  ∀ s : State, Inv s → s.ccState = .ready → s.cfg.numRegs = 8 → s.reg 0 = 0 → s.reg 2 = 42 →
    exec (.sw 2 0 7) s = exec (.store 7 42) { s with pc := nextPc s }

/-- JALR (R147): the link is written first, then the jump is taken through `x[field1]` as it then is, so equal
fields fall through to the next instruction; `field2` is ignored; a target outside memory faults at the next
fetch; its encoding
and its example (whose word is by the default numbering of log 6). -/
def Obligations.JalrLinksThenJumps : Prop :=
  (∀ (s : State) (f0 f1 : BitVec 3) (f2 : BitVec 16), Inv s → s.ccState = .ready →
    (Instr.jalr f0 f1).namesRegisters s.cfg.numRegs = true →
    decodeWord s.cfg.opc s.cfg.numRegs (packWord s.cfg.opc.jalr f0 f1 f2) = .ok (.jalr f0 f1) ∧
    ∃ t, exec (.jalr f0 f1) s = .next t ∧ t.reg f0.toNat = nextPc s ∧
      (∀ n, n ≠ f0.toNat → t.reg n = s.reg n) ∧
      (f0 ≠ f1 → t.pc = s.reg f1.toNat) ∧ (f0 = f1 → t.pc = nextPc s) ∧ SameButRegisters s t ∧
      (s.rst = false → s.requester = .engine → ¬ validAddress s.cfg t.pc →
        step t = .fault (.addressOutOfRange .ifetch t.pc))) ∧
  decodeWord .lc2k 8 0x017C0000 = .ok (.jalr 7 4) ∧
  ∀ s : State, Inv s → s.ccState = .ready → s.cfg.numRegs = 8 → s.pc = 10 → s.reg 4 = 2 →
    ∃ t, exec (.jalr 7 4) s = .next t ∧ t.reg 7 = 11 ∧ t.pc = 2

/-- BEQ (43_requester.md): taken exactly when the whole words are equal, to the incremented pc plus the signed
immediate; no register is written; the corner cases; a target outside memory faults at the next fetch; its encoding
and its example (whose word is by the default numbering of log 6). A target outside `0 .. 2^XLEN-1` is
reduced to the word the pc is: the model's choice for the spec's decision D35 (log 21). The
incremented pc is read as unsigned, by R148 and not by R151: the model's choice (log 32). -/
def Obligations.BeqBranchesOnEquality : Prop :=
  (∀ (s : State) (f0 f1 : BitVec 3) (f2 : BitVec 16), Inv s → s.ccState = .ready →
    (Instr.beq f0 f1 f2).namesRegisters s.cfg.numRegs = true →
    decodeWord s.cfg.opc s.cfg.numRegs (packWord s.cfg.opc.beq f0 f1 f2) = .ok (.beq f0 f1 f2) ∧
    ∃ t, exec (.beq f0 f1 f2) s = .next t ∧ t = { s with pc := t.pc } ∧
      (s.reg f0.toNat ≠ s.reg f1.toNat → t.pc = nextPc s) ∧
      (s.reg f0.toNat = s.reg f1.toNat →
        (t.pc : Int) = ((s.pc : Int) + 1 + f2.toInt) % 2 ^ s.cfg.xlen ∧
        (0 ≤ (s.pc : Int) + 1 + f2.toInt → (s.pc : Int) + 1 + f2.toInt < 2 ^ s.cfg.xlen →
          (t.pc : Int) = s.pc + 1 + f2.toInt)) ∧
      (f0 = f1 → (t.pc : Int) = ((s.pc : Int) + 1 + f2.toInt) % 2 ^ s.cfg.xlen) ∧
      (f2.toInt = -1 → s.reg f0.toNat = s.reg f1.toNat → s.pc < 2 ^ s.cfg.xlen → t.pc = s.pc) ∧
      (f2 = 0 → t.pc = nextPc s) ∧
      (s.rst = false → s.requester = .engine → ¬ validAddress s.cfg t.pc →
        step t = .fault (.addressOutOfRange .ifetch t.pc))) ∧
  decodeWord .lc2k 8 0x0100FFFD = .ok (.beq 0 0 0xFFFD#16) ∧
  ∀ s : State, Inv s → s.ccState = .ready → s.pc = 5 →
    ∃ t, exec (.beq 0 0 0xFFFD#16) s = .next t ∧ t.pc = 3

/-- NOOP (R149): only the pc advances; all three fields are ignored; a step that runs it counts its fetch as one
access; its encoding
and its example (whose word is by the default numbering of log 6). -/
def Obligations.NoopOnlyAdvancesThePc : Prop :=
  (∀ (s : State) (f0 f1 : BitVec 3) (f2 : BitVec 16), Inv s → s.ccState = .ready →
    decodeWord s.cfg.opc s.cfg.numRegs (packWord s.cfg.opc.noop f0 f1 f2) = .ok .noop ∧
    exec .noop s = .next { s with pc := nextPc s }) ∧
  (∀ (s t : State) (f : Fetched), s.rst = false → s.requester = .engine → fetchNext s = .next f →
    f.instr = .noop → step s = .next t → t.hitCount + t.missCount = s.hitCount + s.missCount + 1) ∧
  decodeWord .lc2k 8 0x01C00000 = .ok .noop

/-- HALT completes as FLUSH with the pc unchanged, whatever its fields (43_requester.md, HALT). -/
def Obligations.HaltFlushesAndStops : Prop :=
  ∀ (s : State) (f0 f1 : BitVec 3) (f2 : BitVec 16), Inv s → s.ccState = .ready →
    decodeWord s.cfg.opc s.cfg.numRegs (packWord s.cfg.opc.halt f0 f1 f2) = .ok .halt ∧
    exec .halt s = exec .flush s ∧
    ∃ t, exec .halt s = .next t ∧ t.pc = s.pc ∧ t.ccState = .halted ∧
      t.report = some { hitCount := s.hitCount, missCount := s.missCount } ∧
      ∀ a, t.memWord a = logical s a

/-- An instruction of the requester that names a register which does not exist (a register field it uses, or the
destination index of ADD or NAND, is not in `0 .. NUMREGS-1`) is refused by name in every READY state
(30_encoding.md, section 5; the spec's decisions D27 and D28, log 22). -/
def Obligations.NonexistentRegistersAreRefused : Prop :=
  ∀ (s : State) (i : Instr), s.ccState = .ready → i.namesRegisters s.cfg.numRegs = false →
    ∃ why, exec i s = .refused (.reservedEncoding why)

/-! ## Frames -/

/-- The register instructions ADD, NAND, BEQ, JALR and NOOP change nothing but the pc and, for ADD, NAND and
JALR, their destination register; they store nothing (43_requester.md). -/
def Obligations.RegisterInstructionsFrame : Prop :=
  ∀ (s t : State) (f0 f1 : BitVec 3) (f2 : BitVec 16),
    (exec (.add f0 f1 f2) s = .next t ∨ exec (.nand f0 f1 f2) s = .next t →
      SameButRegisters s t ∧ (∀ n, n ≠ f2.toInt.toNat → t.reg n = s.reg n) ∧
        ∀ b, t.memWord b = s.memWord b) ∧
    (exec (.jalr f0 f1) s = .next t →
      SameButRegisters s t ∧ (∀ n, n ≠ f0.toNat → t.reg n = s.reg n) ∧ ∀ b, t.memWord b = s.memWord b) ∧
    (exec (.beq f0 f1 f2) s = .next t ∨ exec .noop s = .next t →
      t = { s with pc := t.pc } ∧ ∀ b, t.memWord b = s.memWord b)

/-- IFETCH, LOAD and LW leave the configuration, the lifecycle, the report, who is attached and the reset input
alone, every set but that of the address, every register but LW's destination, and every word of memory outside
the block of a dirty victim, whose block they write as WRITEBACK does (42_access_commands.md; 20_memory.md,
sections 2 and 4). -/
def Obligations.ReadsFrame : Prop :=
  ∀ (s t : State),
    (∀ a, exec (.ifetch a) s = .next t ∨ exec (.load a) s = .next t →
      SameOutsideCache s t ∧ t.free = s.free ∧
      (∀ j, j ≠ setIndexOf s.cfg a → t.set j = s.set j) ∧
      ∀ b, (∀ base, writtenBlock s a = some base → ¬ inBlock s.cfg base b) →
        t.memWord b = s.memWord b) ∧
    (∀ f0 f1 f2, exec (.lw f0 f1 f2) s = .next t →
      SameOutsideCache { s with pc := t.pc, x := t.x } t ∧ t.free = s.free ∧
      (∀ n, n ≠ f0.toNat → t.reg n = s.reg n) ∧
      (∀ j, j ≠ setIndexOf s.cfg (memAddress s f1 f2).toNat → t.set j = s.set j) ∧
      ∀ b, (∀ base, writtenBlock s (memAddress s f1 f2).toNat = some base →
        ¬ inBlock s.cfg base b) → t.memWord b = s.memWord b)

/-- STORE and SW leave the same alone as the reads, and every register (42_access_commands.md, STORE;
43_requester.md, SW). -/
def Obligations.StoresFrame : Prop :=
  ∀ (s t : State),
    (∀ a v, exec (.store a v) s = .next t →
      SameOutsideCache s t ∧ (∀ j, j ≠ setIndexOf s.cfg a → t.set j = s.set j) ∧
      ∀ b, (∀ base, writtenBlock s a = some base → ¬ inBlock s.cfg base b) →
        t.memWord b = s.memWord b) ∧
    (∀ f0 f1 f2, exec (.sw f0 f1 f2) s = .next t →
      SameOutsideCache { s with pc := t.pc } t ∧
      (∀ j, j ≠ setIndexOf s.cfg (memAddress s f1 f2).toNat → t.set j = s.set j) ∧
      ∀ b, (∀ base, writtenBlock s (memAddress s f1 f2).toNat = some base →
        ¬ inBlock s.cfg base b) → t.memWord b = s.memWord b)

/-- FLUSH and HALT leave the line array, both counters, the requester and every word of memory outside the
blocks of dirty lines alone (41_cache_store.md, section 6; 43_requester.md, HALT). -/
def Obligations.FlushFrame : Prop :=
  ∀ (s t : State) (i : Instr), i = .flush ∨ i = .halt → exec i s = .next t →
    t.cfg = s.cfg ∧ t.lines = s.lines ∧ t.hitCount = s.hitCount ∧ t.missCount = s.missCount ∧
    t.pc = s.pc ∧ t.x = s.x ∧ t.requester = s.requester ∧ t.rst = s.rst ∧
    ∀ b, (∀ h ∈ dirtyHandles s, ¬ inBlock s.cfg (lineBase s.cfg (s.line h.set h.way)) b) →
      t.memWord b = s.memWord b

/-! ## The step -/

/-- A step runs the instruction that was fetched: with the reset input low, it is `exec` of the decoded
instruction, for the reference requester on the state after the counted IFETCH of the word at the pc, for a
command stream on the state without the command taken (43_requester.md, the instruction loop; 30_encoding.md,
section 2; the command stream as an input held in the state is the model's choice, log 9). -/
def Obligations.StepRunsTheDecodedInstruction : Prop :=
  (∀ (s : State) (r : Reply) (i : Instr), s.rst = false → s.requester = .engine →
    ccRead .ifetch s.pc s = .next r → decode s.cfg (.word r.rdata) = .ok i →
    step s = exec i r.state) ∧
  (∀ (s : State) (c : CommandWord) (rest : List CommandWord), s.rst = false →
    s.requester = .port (c :: rest) →
    step s = exec (decodeCommand s.cfg.xlen c) { s with requester := .port rest }) ∧
  (∀ s : State, s.rst = false → s.requester = .port [] → step s = .refused .noCommandOffered)

/-- A fetch the requester can make completes with the word of the logical memory, and the step is that word's
instruction (43_requester.md, the instruction loop; 20_memory.md, section 3). -/
def Obligations.EngineFetchesTheLogicalWord : Prop :=
  ∀ s : State, Inv s → s.rst = false → s.requester = .engine → s.ccState = .ready →
    addressOk s.cfg s.pc →
    ∃ r, ccRead .ifetch s.pc s = .next r ∧ r.rdata = logical s s.pc ∧
      ∀ i, decodeWord s.cfg.opc s.cfg.numRegs (logical s s.pc) = .ok i → step s = exec i r.state

/-- Faults within a step come in order (43_requester.md, faults within a STEP): a bad pc faults before anything
is decoded, a bad effective address after the fetch, and each names its own operation and address. An address is bad
outside memory, and also inside memory where its block passes the end of memory: that extent test is the spec's
decision D4 (log 16; 20_memory.md, block extent; 42_access_commands.md, faults inside a command). -/
def Obligations.FetchFaultPrecedesDataFault : Prop :=
  ∀ s : State, Inv s → s.rst = false → s.requester = .engine → s.ccState = .ready →
    (¬ addressOk s.cfg s.pc → step s = .fault (.addressOutOfRange .ifetch s.pc)) ∧
    (addressOk s.cfg s.pc → ∀ f0 f1 f2,
      ¬ addressOk s.cfg (memAddress s f1 f2) →
      (decodeWord s.cfg.opc s.cfg.numRegs (logical s s.pc) = .ok (.lw f0 f1 f2) →
        step s = .fault (.addressOutOfRange .load (memAddress s f1 f2))) ∧
      (decodeWord s.cfg.opc s.cfg.numRegs (logical s s.pc) = .ok (.sw f0 f1 f2) →
        step s = .fault (.addressOutOfRange .store (memAddress s f1 f2))))

/-- The reset input (70_reset_and_hazards.md, section 1): whatever the lifecycle state, the step with it asserted
leaves every line invalid, clean, of age `A-1` and zeroed, both counters 0, READY, no event, no report, the
requester at its reset values, and neither memory nor the configuration nor who is attached changed. The reset
values the source does not give are the spec's decisions D9, D11, D22, D23 (log 4, 5, 24); the response cleared
and the input consumed are the model's choice (log 14, 15). -/
def Obligations.ResetInputRestoresTheResetState : Prop :=
  ∀ s : State, s.rst = true →
    ∃ t, step s = .next t ∧ t.cfg = s.cfg ∧ t.mem = s.mem ∧ t.requester = s.requester ∧
      t.ccState = .ready ∧ t.hitCount = 0 ∧ t.missCount = 0 ∧ t.events = [] ∧ t.report = none ∧
      t.resp = none ∧ t.pc = 0 ∧ t.x = List.replicate s.cfg.numRegs s.cfg.regInit ∧ t.rst = false ∧
      t.lines.length = s.cfg.setCount ∧
      ∀ i < s.cfg.setCount, (t.set i).length = s.cfg.associativity ∧
        ∀ w < s.cfg.associativity, (t.line i w).valid = false ∧ (t.line i w).dirty = false ∧
          (t.line i w).lruAge = s.cfg.associativity - 1 ∧ (t.line i w).tag = 0 ∧
          (t.line i w).setIndex = 0 ∧ (t.line i w).blockData = List.replicate s.cfg.blockSize 0

/-- HALTED and FAULTED are terminal (10_state.md, section 5; the refusal is the spec's decision D11): without
reset there is no step, and no instruction is accepted. -/
def Obligations.NothingRunsOutsideReady : Prop :=
  ∀ s : State, s.ccState ≠ .ready →
    (∀ i : Instr, exec i s = .refused (.notReady s.ccState)) ∧
    (s.rst = false → ∃ r, step s = .refused r)

/-- HALTED is reached only by FLUSH or HALT, and READY is left in no other way that gives a next state
(10_state.md, section 5; 70_reset_and_hazards.md, section 5). That no step gives FAULTED is the model's
representation of R166 (60_exceptions.md, section 2; log 11): AddressOutOfRange, after which CC is FAULTED, is a fault
outcome of the step and no next state. -/
def Obligations.OnlyFlushAndHaltHalt : Prop :=
  ∀ (s t : State) (i : Instr), exec i s = .next t →
    s.ccState = .ready ∧ (t.ccState = .halted ↔ i = .flush ∨ i = .halt) ∧
    (t.ccState = .ready ↔ i ≠ .flush ∧ i ≠ .halt) ∧ t.ccState ≠ .faulted

/-! ## Invariants -/

/-- The machine right after reset is in order. -/
def Obligations.ResetStateIsInOrder : Prop :=
  Inv State.reset ∧ Conservation State.reset ∧ ReportAtHalt State.reset

/-- Boot with any configuration the check accepts and any image that fits gives a state in order whose memory is
the image and then `MEM_FILL`, and whose logical memory is memory (70_reset_and_hazards.md, sections 1 and 2;
10_state.md, section 8). -/
def Obligations.BootGivesAStateInOrder : Prop :=
  ∀ (g : ConfigInput) (ws : List Word) (s : State), boot g (some ws) = .next s →
    Inv s ∧ Conservation s ∧ ReportAtHalt s ∧ s.ccState = .ready ∧ s.events = [] ∧
    some s.cfg.blockSize = g.blockSizeInWords ∧ some s.cfg.setCount = g.setCount ∧
    some s.cfg.associativity = g.associativity ∧ s.cfg.xlen = g.xlen ∧
    (∀ a, s.memWord a = ws.getD a s.cfg.memFill) ∧ ∀ a, logical s a = s.memWord a

/-- Construction fails with ConfigurationError exactly when a parameter is missing or breaks its constraint, and
boot with a good configuration and no image is ImageLoadError (60_exceptions.md, section 1, for `B`, `S`, `A`; the
constraints on `MEM_WORDS` and `XLEN` and their error are the spec's decision D3; the constraints on `NUMREGS` and
`OPC` are D24 and D26). That a bad `NUMREGS`, `OPC`, `REG_INIT` or `MEM_FILL` is this error is the model's own choice
(log 30); which parameter is named first is the model's order (log 27). -/
def Obligations.ConfigurationIsChecked : Prop :=
  ∀ g : ConfigInput,
    ((∃ c, construct g = .next c) ↔
      (∃ b, g.blockSizeInWords = some (2 ^ b)) ∧ (∃ e, g.setCount = some (2 ^ e)) ∧
      (∃ n, g.associativity = some n ∧ 1 ≤ n) ∧ 25 ≤ g.xlen ∧
      1 ≤ g.memWords ∧ g.memWords ≤ 2 ^ (g.xlen - 1) ∧ 1 ≤ g.numRegs ∧ g.numRegs ≤ 8 ∧ g.opc.wf ∧
      g.regInit < 2 ^ g.xlen ∧ g.memFill < 2 ^ g.xlen) ∧
    ((∃ c, construct g = .next c) ∨ ∃ p, construct g = .fault (.configurationError p)) ∧
    (g.xlen < 25 → ∃ p, construct g = .fault (.configurationError p)) ∧
    (∀ b e n, g.blockSizeInWords = some (2 ^ b) → g.setCount = some (2 ^ e) → g.associativity = some (n + 1) →
      g.xlen < 25 → construct g = .fault (.configurationError .xlen)) ∧
    (∀ f, construct g = .fault f → ∀ image, boot g image = .fault f) ∧
    (∀ c, construct g = .next c → boot g none = .fault .imageLoadError)

/-- Every word of the machine keeps its `XLEN` bits (00_scope.md, section 4; 10_state.md, sections 3, 7 and 8): after reset
and boot, and from every state whose words do, through every step and every instruction whose operands do. That a
word is held as a number, so that this has to be said, is the model's choice (log 31). -/
def Obligations.WordsKeepTheirWidth : Prop :=
  WordsFit State.reset ∧
  (∀ (g : ConfigInput) (ws : List Word) (s : State), boot g (some ws) = .next s → WordsFit s) ∧
  (∀ (s t : State) (i : Instr), s.cfg.wf → i.operandsFit s.cfg.xlen = true → WordsFit s →
    exec i s = .next t → WordsFit t) ∧
  ∀ s t : State, s.cfg.wf → WordsFit s → step s = .next t → WordsFit t

/-- Every step keeps the machine in order: the line invariants of 10_state.md section 4, the canonical form of
memory, the number of registers, for every configuration and requester. -/
def Obligations.StepKeepsTheInvariant : Prop :=
  ∀ s t : State, Inv s → step s = .next t → Inv t

/-- LRU total order (R29): from every state in order, after every step and after each primitive that writes ages,
the ages of the `k` valid lines of each set are `0 .. k-1` without gap or duplicate, all of `0 .. A-1` once the set
is full, and an invalid line, which holds `A-1`, never ties with a valid one; it holds after reset. -/
def Obligations.LruTotalOrderHolds : Prop :=
  (∀ (c : Config) (m : Memory) (i : Nat), LruOrder ((State.resetWith c m).set i)) ∧
  (∀ (s : State) (h : Handle), Inv s → (s.line h.set h.way).valid = true →
    ∀ i < s.cfg.setCount, LruOrder ((touchLru h s).set i)) ∧
  (∀ (op : AccessOp) (s : State) (a : Int) (p : Placed), Inv s → holder s a.toNat = none →
    install op a s = .next p → ∀ i < s.cfg.setCount, LruOrder (p.state.set i)) ∧
  ∀ s t : State, Inv s → step s = .next t → ∀ i < t.cfg.setCount,
    LruOrder (t.set i) ∧
    ((∀ l ∈ t.set i, l.valid = true) →
      ((t.set i).map fun l => l.lruAge).Perm (List.range t.cfg.associativity)) ∧
    ∀ l ∈ t.set i, l.valid = false → l.lruAge = t.cfg.associativity - 1 ∧
      ∀ l' ∈ t.set i, l'.valid = true → l'.lruAge < l.lruAge

/-- Tag uniqueness (R30): from every state in order, after every step, no two valid lines of a set share a tag,
because a block is installed only after a miss on it, and a hit changes no tag. -/
def Obligations.TagsStayUnique : Prop :=
  (∀ s t : State, Inv s → step s = .next t → ∀ i < t.cfg.setCount, TagsUnique (t.set i)) ∧
  ∀ (op : AccessOp) (a : Int) (s : State) (r : Accessed), access op a s = .next r →
    (r.hit = false → ∀ l ∈ s.set (setIndexOf s.cfg a.toNat), l.valid = true → l.tag ≠ tagOf s.cfg a.toNat) ∧
    (r.hit = true → ∀ j, (r.state.set j).map (fun l => (l.valid, l.tag)) =
      (s.set j).map fun l => (l.valid, l.tag))

/-- The only fault a running machine in order takes is AddressOutOfRange, whose code is 2: the model's own stops
and the boot errors are never reached (60_exceptions.md, sections 1 and 2; the code by the spec's decision
D20). -/
def Obligations.OnlyAddressFaultsWhileRunning : Prop :=
  ∀ (s : State) (f : Fault), Inv s →
    (step s = .fault f → isAddressFault f = true ∧ faultCode f = some 2) ∧
    ∀ i, exec i s = .fault f → isAddressFault f = true

/-- The configuration is constant: no step and no instruction changes it, nor who is attached other than by
taking a command from the stream (10_state.md, section 2). -/
def Obligations.ConfigurationIsConstant : Prop :=
  ∀ s t : State,
    (step s = .next t → t.cfg = s.cfg ∧
      (t.requester = s.requester ∨ ∃ c rest, s.requester = .port (c :: rest) ∧ t.requester = .port rest)) ∧
    ∀ i, exec i s = .next t → t.cfg = s.cfg ∧ t.requester = s.requester

/-- Memory is written only by write-backs: a word that an instruction changes lies in the block of a line that
was dirty, and a line once valid stays valid (10_state.md, sections 3 and 5; 20_memory.md, section 2). -/
def Obligations.OnlyDirtyBlocksReachMemory : Prop :=
  ∀ (s t : State) (i : Instr), exec i s = .next t →
    (∀ a, t.memWord a ≠ s.memWord a →
      ∃ h : Handle, (s.line h.set h.way).dirty = true ∧ inBlock s.cfg (lineBase s.cfg (s.line h.set h.way)) a) ∧
    ∀ j w, (s.line j w).valid = true → (t.line j w).valid = true

/-- The event stream only grows, and an emitted record is never changed; the report is there exactly in HALTED
(10_state.md, section 8; 30_encoding.md, section 3). -/
def Obligations.EventStreamOnlyGrows : Prop :=
  ∀ s t : State, s.rst = false → step s = .next t →
    (∃ es, t.events = s.events ++ es) ∧ (ReportAtHalt s → ReportAtHalt t)

/-! ## Refinement -/

/-- The machine with the cache refines the flat machine: each instruction that completes changes the requester's
view (pc, registers, the word at every address) exactly as the flat machine does, whatever the geometry and the
contents of the cache (10_state.md, section 6; 20_memory.md, section 3). -/
def Obligations.CacheRefinesFlatMemory : Prop :=
  ∀ (s t : State) (i : Instr), Inv s → exec i s = .next t →
    t.pc = (flatExec i (viewOf s)).pc ∧ t.x = (flatExec i (viewOf s)).x ∧
    ∀ a, logical t a = (flatExec i (viewOf s)).word a

/-- The cache is invisible to the program (10_state.md, section 6; 42_access_commands.md, corner cases (f)): two
machines that differ in block size, set count, associativity and the contents of cache and memory, but agree on
what the requester sees, agree on it after each step both can take. -/
def Obligations.GeometryIsInvisible : Prop :=
  ∀ s s' t t' : State, Inv s → Inv s' → s.rst = false → s'.rst = false →
    s.requester = .engine → s'.requester = .engine →
    s.cfg.xlen = s'.cfg.xlen → s.cfg.numRegs = s'.cfg.numRegs → s.cfg.opc = s'.cfg.opc →
    s.pc = s'.pc → s.x = s'.x → (∀ a, logical s a = logical s' a) →
    step s = .next t → step s' = .next t' →
    t.pc = t'.pc ∧ t.x = t'.x ∧ (∀ a, logical t a = logical t' a) ∧ t.ccState = t'.ccState
end

