-- ==== Sys2Proof/Laws/AddressDecoder.lean ====
section
/-! SUPPORT. The address decoder as quotients and remainders (40_address_decoder.md R97). -/

namespace Sys2Proof.Machine

variable (c : Config) (a : Nat)

theorem blockSize_pos : 0 < c.blockSize := Nat.two_pow_pos _
theorem setCount_pos : 0 < c.setCount := Nat.two_pow_pos _

theorem and_mask (a n : Nat) : a &&& ((1 <<< n) - 1) = a % 2 ^ n := by
  rw [Nat.one_shiftLeft, Nat.and_two_pow_sub_one_eq_mod]

theorem blockOffset_eq_mod : blockOffset c a = a % c.blockSize := and_mask _ _

theorem setIndexOf_eq_mod : setIndexOf c a = a / c.blockSize % c.setCount := by
  rw [setIndexOf, and_mask, Nat.shiftRight_eq_div_pow]; rfl

theorem tagOf_eq_div : tagOf c a = a / (c.blockSize * c.setCount) := by
  rw [tagOf, Nat.shiftRight_eq_div_pow, Nat.pow_add]; rfl

theorem blockOffset_lt : blockOffset c a < c.blockSize := by
  rw [blockOffset_eq_mod]; exact Nat.mod_lt _ (blockSize_pos c)

theorem setIndexOf_lt : setIndexOf c a < c.setCount := by
  rw [setIndexOf_eq_mod]; exact Nat.mod_lt _ (setCount_pos c)

theorem blockStart_eq_mul : blockStart c a = a / c.blockSize * c.blockSize := by
  have := Nat.div_add_mod a c.blockSize
  rw [blockStart, blockOffset_eq_mod, Nat.mul_comm]
  omega

theorem blockStart_add_offset : blockStart c a + blockOffset c a = a := by
  have h : blockOffset c a ≤ a := by rw [blockOffset_eq_mod]; exact Nat.mod_le _ _
  rw [blockStart]; omega

theorem blockStart_le : blockStart c a ≤ a := Nat.sub_le _ _

theorem lt_blockStart_add : a < blockStart c a + c.blockSize := by
  have := blockStart_add_offset c a; have := blockOffset_lt c a; omega

/-- The reconstructed address as a number: tag and set index have no bit in common. -/
theorem baseOf_eq {t i : Nat} (h : i < c.setCount) : baseOf c t i = (t * c.setCount + i) * c.blockSize := by
  have h1 : i <<< c.blockOffsetBits < 2 ^ (c.setIndexBits + c.blockOffsetBits) := by
    rw [Nat.shiftLeft_eq, Nat.pow_add]
    exact Nat.mul_lt_mul_of_pos_right h (Nat.two_pow_pos _)
  rw [baseOf, ← Nat.shiftLeft_add_eq_or_of_lt h1, Nat.shiftLeft_eq, Nat.shiftLeft_eq, Nat.pow_add,
    ← Nat.mul_assoc, ← Nat.add_mul]
  rfl

theorem baseOf_tag_setIndex : baseOf c (tagOf c a) (setIndexOf c a) = blockStart c a := by
  rw [baseOf_eq c (setIndexOf_lt c a), tagOf_eq_div, setIndexOf_eq_mod, blockStart_eq_mul,
    ← Nat.div_div_eq_div_mul, Nat.div_add_mod']

/-- The round trip of R96: a block offset has no bit in common with the start of its block. -/
theorem addressOf_fields : addressOf c (tagOf c a) (setIndexOf c a) (blockOffset c a) = a := by
  have h : blockStart c a = (a / c.blockSize) <<< c.blockOffsetBits := by
    rw [blockStart_eq_mul, Nat.shiftLeft_eq]; rfl
  rw [addressOf, baseOf_tag_setIndex, h, ← Nat.shiftLeft_add_eq_or_of_lt (blockOffset_lt c a), ← h,
    blockStart_add_offset]

/-- The tag and set index of an address inside the block of a base. -/
theorem tag_and_set_in_block {t i k : Nat} (hi : i < c.setCount) (hk : k < c.blockSize) :
    tagOf c (baseOf c t i + k) = t ∧ setIndexOf c (baseOf c t i + k) = i ∧ blockOffset c (baseOf c t i + k) = k := by
  have hB := blockSize_pos c
  have hq : (baseOf c t i + k) / c.blockSize = t * c.setCount + i := by
    rw [baseOf_eq c hi, Nat.add_comm, Nat.add_mul_div_right _ _ hB, Nat.div_eq_of_lt hk, Nat.zero_add]
  refine ⟨?_, ?_, ?_⟩
  · rw [tagOf_eq_div, ← Nat.div_div_eq_div_mul, hq, Nat.add_comm, Nat.add_mul_div_right _ _ (setCount_pos c),
      Nat.div_eq_of_lt hi, Nat.zero_add]
  · rw [setIndexOf_eq_mod, hq, Nat.add_comm, Nat.add_mul_mod_self_right, Nat.mod_eq_of_lt hi]
  · rw [blockOffset_eq_mod, baseOf_eq c hi, Nat.add_comm, Nat.add_mul_mod_self_right, Nat.mod_eq_of_lt hk]

/-- An address lies in the block of a base exactly when it has its tag and set index. -/
theorem inBlock_baseOf_iff {t i b : Nat} (hi : i < c.setCount) :
    (baseOf c t i ≤ b ∧ b < baseOf c t i + c.blockSize) ↔ tagOf c b = t ∧ setIndexOf c b = i := by
  constructor
  · rintro ⟨h1, h2⟩
    have := tag_and_set_in_block c (t := t) (k := b - baseOf c t i) hi (by omega)
    rw [Nat.add_sub_cancel' h1] at this
    exact ⟨this.1, this.2.1⟩
  · rintro ⟨rfl, rfl⟩
    rw [baseOf_tag_setIndex]
    exact ⟨blockStart_le c b, lt_blockStart_add c b⟩

theorem blockStart_eq_iff {a a' : Nat} :
    blockStart c a = blockStart c a' ↔ tagOf c a = tagOf c a' ∧ setIndexOf c a = setIndexOf c a' := by
  constructor
  · intro h
    have h1 := (inBlock_baseOf_iff c (t := tagOf c a') (i := setIndexOf c a') (b := a) (setIndexOf_lt c a')).1
    rw [baseOf_tag_setIndex] at h1
    exact h1 ⟨h ▸ blockStart_le c a, h ▸ lt_blockStart_add c a⟩
  · rintro ⟨h1, h2⟩
    rw [← baseOf_tag_setIndex, h1, h2, baseOf_tag_setIndex]

end Sys2Proof.Machine
end

