-- ==== Sys2Proof/Laws/LruOrder.lean ====
section
/-! SUPPORT. The invariants of one set, by ways: what the promotion of R103 and R107 does to the ages, the tags and
the valid bits of a set. -/

namespace Sys2Proof.Machine

/-! ## The invariants by pairs of ways -/

/-- A list of valid lines' values without repeats, by pairs of lines. -/
theorem nodup_validLines_iff (f : Line → Nat) (ls : List Line) :
    ((validLines ls).map f).Nodup ↔
      ls.Pairwise fun l l' => l.valid = true → l'.valid = true → f l ≠ f l' := by
  simp only [validLines, List.Nodup, List.pairwise_map, List.pairwise_filter]

theorem length_validLines (ls : List Line) : (validLines ls).length = ls.countP fun l => l.valid := by
  rw [validLines, List.countP_eq_length_filter]

/-- The LRU total order: the valid ages are pairwise different and below the number of valid lines. -/
theorem lruOrder_iff (ls : List Line) : LruOrder ls ↔
    (ls.Pairwise fun l l' => l.valid = true → l'.valid = true → l.lruAge ≠ l'.lruAge) ∧
      ∀ l ∈ ls, l.valid = true → l.lruAge < ls.countP fun l => l.valid := by
  rw [← nodup_validLines_iff fun l => l.lruAge, ← length_validLines]
  constructor
  · intro h
    refine ⟨h.nodup_iff.2 List.nodup_range, fun l hl hv => ?_⟩
    exact List.mem_range.1 (h.mem_iff.1 (List.mem_map.2 ⟨l, List.mem_filter.2 ⟨hl, hv⟩, rfl⟩))
  · rintro ⟨h1, h2⟩
    refine (List.subperm_of_subset h1 fun x hx => ?_).perm_of_length_le (by simp)
    obtain ⟨l, hl, rfl⟩ := List.mem_map.1 hx
    obtain ⟨hl, hv⟩ := List.mem_filter.1 hl
    exact List.mem_range.2 (h2 l hl hv)

/-! ## Ageing and promotion -/

@[simp] theorem ageBelow_valid (p : Nat) (l : Line) : (ageBelow p l).valid = l.valid := by
  unfold ageBelow; split <;> rfl
@[simp] theorem ageBelow_dirty (p : Nat) (l : Line) : (ageBelow p l).dirty = l.dirty := by
  unfold ageBelow; split <;> rfl
@[simp] theorem ageBelow_setIndex (p : Nat) (l : Line) : (ageBelow p l).setIndex = l.setIndex := by
  unfold ageBelow; split <;> rfl
@[simp] theorem ageBelow_tag (p : Nat) (l : Line) : (ageBelow p l).tag = l.tag := by
  unfold ageBelow; split <;> rfl
@[simp] theorem ageBelow_blockData (p : Nat) (l : Line) : (ageBelow p l).blockData = l.blockData := by
  unfold ageBelow; split <;> rfl

theorem ageBelow_lruAge (p : Nat) (l : Line) :
    (ageBelow p l).lruAge = if l.valid = true ∧ l.lruAge < p then l.lruAge + 1 else l.lruAge := by
  unfold ageBelow; split <;> rfl

theorem ageBelow_of_invalid {p : Nat} {l : Line} (h : l.valid = false) : ageBelow p l = l := by
  simp [ageBelow, h]

theorem ageBelow_zero (l : Line) : ageBelow 0 l = l := by simp [ageBelow]

/-- An ageing line changes its age alone. -/
theorem ageBelow_eq (p : Nat) (l : Line) : ageBelow p l = { l with lruAge := (ageBelow p l).lruAge } := by
  unfold ageBelow; split <;> rfl

@[simp] theorem promote_length (w p : Nat) (l : Line) (ls : List Line) :
    (promote w p l ls).length = ls.length := by simp [promote]

theorem promote_getElem (w p : Nat) (l : Line) (ls : List Line) (j : Nat) (hj : j < (promote w p l ls).length) :
    (promote w p l ls)[j] =
      if w = j then { l with lruAge := 0 } else ageBelow p (ls[j]'(by simpa using hj)) := by
  simp only [promote, List.getElem_set, List.getElem_map]

theorem promote_getD (w p : Nat) (l d : Line) (ls : List Line) (j : Nat) (hd : d.valid = false)
    (hw : w < ls.length) : (promote w p l ls).getD j d =
      if j = w then { l with lruAge := 0 } else ageBelow p (ls.getD j d) := by
  by_cases hj : j < ls.length
  · rw [List.getD_eq_getElem _ _ (by simpa using hj), promote_getElem, List.getD_eq_getElem _ _ hj]
    simp only [eq_comm]
  · rw [List.getD_eq_default _ _ (by simp; omega), List.getD_eq_default _ _ (by omega), if_neg (by omega),
      ageBelow_of_invalid hd]

theorem mem_promote {w p : Nat} {l : Line} {ls : List Line} {x : Line} (h : x ∈ promote w p l ls) :
    x = { l with lruAge := 0 } ∨ ∃ y ∈ ls, x = ageBelow p y := by
  obtain ⟨j, hj, rfl⟩ := List.getElem_of_mem h
  rw [promote_getElem]
  split
  · exact .inl rfl
  · exact .inr ⟨_, List.getElem_mem _, rfl⟩

theorem countP_promote {w p : Nat} {l : Line} {ls : List Line} (hw : w < ls.length) (hl : l.valid = true) :
    (promote w p l ls).countP (fun l => l.valid) =
      (ls.countP fun l => l.valid) + if ls[w].valid = true then 0 else 1 := by
  rw [promote, List.countP_set (by simpa using hw)]
  simp only [List.countP_map, List.getElem_map, ageBelow_valid, hl]
  have hc : List.countP ((fun l => l.valid) ∘ ageBelow p) ls = List.countP (fun l => l.valid) ls :=
    List.countP_congr (by simp)
  rw [hc]
  by_cases hv : ls[w].valid = true
  · have : 0 < List.countP (fun l => l.valid) ls := List.countP_pos_iff.2 ⟨_, List.getElem_mem hw, hv⟩
    simp [hv]; omega
  · simp [hv]

/-- Two different ways of a set, as the invariants compare them. -/
theorem pairwise_ways {R : Line → Line → Prop} (hR : ∀ a b, R a b → R b a) {ls : List Line} :
    ls.Pairwise R ↔ ∀ i j (hi : i < ls.length) (hj : j < ls.length), i ≠ j → R ls[i] ls[j] := by
  rw [List.pairwise_iff_getElem]
  constructor
  · intro h i j hi hj hij
    rcases Nat.lt_or_gt_of_ne hij with h1 | h1
    · exact h i j hi hj h1
    · exact hR _ _ (h j i hj hi h1)
  · intro h i j hi hj hij
    exact h i j hi hj (by omega)

/-- Promotion keeps the LRU total order (R103 (f), R107): where no other valid line has the pivot's age, and the
pivot of a valid slot is the age of a valid line. -/
theorem lruOrder_promote {w p : Nat} {l : Line} {ls : List Line} (hw : w < ls.length) (hl : l.valid = true)
    (h : LruOrder ls) (hother : ∀ j (hj : j < ls.length), j ≠ w → ls[j].valid = true → ls[j].lruAge ≠ p)
    (hslot : ls[w].valid = true → p < ls.countP fun l => l.valid) : LruOrder (promote w p l ls) := by
  rw [lruOrder_iff] at h ⊢
  have h1 := (pairwise_ways fun a b hab hb ha he => hab ha hb he.symm).1 h.1
  have aged : ∀ j (hj : j < ls.length), j ≠ w → ls[j].valid = true →
      (ageBelow p ls[j]).lruAge = if ls[j].lruAge < p then ls[j].lruAge + 1 else ls[j].lruAge := by
    intro j hj _ hv; simp [ageBelow_lruAge, hv]
  refine ⟨(pairwise_ways fun a b hab hb ha he => hab ha hb he.symm).2 ?_, ?_⟩
  · intro i j hi hj hij hvi hvj
    have hi' : i < ls.length := by simpa using hi
    have hj' : j < ls.length := by simpa using hj
    rw [promote_getElem] at hvi hvj ⊢
    rw [promote_getElem]
    by_cases hiw : w = i
    · have hjw : j ≠ w := by omega
      rw [if_neg (by omega), ageBelow_valid] at hvj
      rw [if_pos hiw, if_neg (by omega), aged j hj' hjw hvj]
      have := hother j hj' hjw hvj
      dsimp only
      split <;> omega
    · by_cases hjw : w = j
      · rw [if_neg hiw, ageBelow_valid] at hvi
        rw [if_neg hiw, if_pos hjw, aged i hi' (by omega) hvi]
        have := hother i hi' (by omega) hvi
        dsimp only
        split <;> omega
      · rw [if_neg hiw, ageBelow_valid] at hvi
        rw [if_neg hjw, ageBelow_valid] at hvj
        rw [if_neg hiw, if_neg hjw, aged i hi' (by omega) hvi, aged j hj' (by omega) hvj]
        have e1 := h1 i j hi' hj' hij hvi hvj
        have e2 := hother i hi' (by omega) hvi
        have e3 := hother j hj' (by omega) hvj
        split <;> split <;> omega
  · intro x hx hv
    rw [countP_promote hw hl]
    obtain ⟨j, hj, rfl⟩ := List.getElem_of_mem hx
    have hj' : j < ls.length := by simpa using hj
    rw [promote_getElem] at hv ⊢
    by_cases hjw : w = j
    · rw [if_pos hjw]
      dsimp only
      split
      · rename_i hwv
        have : 0 < List.countP (fun l => l.valid) ls := List.countP_pos_iff.2 ⟨_, List.getElem_mem hw, hwv⟩
        omega
      · omega
    · rw [if_neg hjw, ageBelow_valid] at hv
      rw [if_neg hjw, aged j hj' (by omega) hv]
      have hb := h.2 _ (List.getElem_mem hj') hv
      split
      · split
        · rename_i hlt hwv; have := hslot hwv; omega
        · omega
      · split <;> omega

/-- Promotion keeps tags unique where the line put in carries a tag no other valid line has. -/
theorem tagsUnique_promote {w p : Nat} {l : Line} {ls : List Line} (h : TagsUnique ls)
    (hnew : ∀ j (hj : j < ls.length), j ≠ w → ls[j].valid = true → ls[j].tag ≠ l.tag) :
    TagsUnique (promote w p l ls) := by
  rw [TagsUnique, nodup_validLines_iff, pairwise_ways fun a b hab hb ha he => hab ha hb he.symm] at h ⊢
  intro i j hi hj hij hvi hvj
  have hi' : i < ls.length := by simpa using hi
  have hj' : j < ls.length := by simpa using hj
  rw [promote_getElem] at hvi hvj ⊢
  rw [promote_getElem]
  by_cases hiw : w = i
  · rw [if_neg (by omega), ageBelow_valid] at hvj
    rw [if_pos hiw, if_neg (by omega), ageBelow_tag]
    exact (hnew j hj' (by omega) hvj).symm
  · rw [if_neg hiw, ageBelow_valid] at hvi
    by_cases hjw : w = j
    · rw [if_neg hiw, if_pos hjw, ageBelow_tag]
      exact hnew i hi' (by omega) hvi
    · rw [if_neg hjw, ageBelow_valid] at hvj
      rw [if_neg hiw, if_neg hjw, ageBelow_tag, ageBelow_tag]
      exact h i j hi' hj' hij hvi hvj

/-- Promotion keeps the valid lines at the low ways where every line below the slot is valid. -/
theorem filledFirst_promote {w p : Nat} {l : Line} {ls : List Line} (h : FilledFirst ls) (hl : l.valid = true)
    (hlow : ∀ j (hj : j < ls.length), j < w → ls[j].valid = true) : FilledFirst (promote w p l ls) := by
  rw [FilledFirst, List.pairwise_iff_getElem] at h ⊢
  intro i j hi hj hij hv
  have hi' : i < ls.length := by simpa using hi
  have hj' : j < ls.length := by simpa using hj
  rw [promote_getElem] at hv ⊢
  by_cases hiw : w = i
  · rw [if_pos hiw]; exact hl
  · rw [if_neg hiw, ageBelow_valid]
    by_cases hjw : w = j
    · exact hlow i hi' (by omega)
    · rw [if_neg hjw, ageBelow_valid] at hv
      exact h i j hi' hj' hij hv

/-- The ages of a full set are below its size, those of a set that is not full below its last age (R29, R31). -/
theorem countP_valid_lt_of_invalid {ls : List Line} {l : Line} (hl : l ∈ ls) (hv : l.valid = false) :
    (ls.countP fun l => l.valid) < ls.length := by
  rcases Nat.lt_or_ge (ls.countP fun l => l.valid) ls.length with h | h
  · exact h
  · have := List.countP_eq_length.1 (Nat.le_antisymm List.countP_le_length h) l hl
    rw [hv] at this; cases this

end Sys2Proof.Machine
end

