-- ==== Sys2Proof/Laws/Memory.lean ====
section
/-! SUPPORT. The laws of the backing memory: a read after a write, the canonical form kept by every operation, and
blocks. -/

namespace Sys2Proof.Machine

variable {fill : Word} {m : Memory} {a b limit : Nat} {v : Word}

theorem Memory.read_insert : (Memory.insert m a v).read fill b = if b = a then v else m.read fill b := by
  induction m with
  | nil => simp [Memory.insert, Memory.read]
  | cons cell m ih =>
    simp only [Memory.insert]
    split
    · simp [Memory.read]
    · split
      · subst_vars; by_cases h : b = cell.1 <;> simp [Memory.read, h]
      · rename_i h1 h2
        by_cases h : b = cell.1
        · simp [Memory.read, h, Ne.symm h2]
        · simp [Memory.read, h, ih]

theorem Memory.read_erase : (Memory.erase m a).read fill b = if b = a then fill else m.read fill b := by
  induction m with
  | nil => simp [Memory.erase, Memory.read]
  | cons cell m ih =>
    simp only [Memory.erase] at ih ⊢
    by_cases h : cell.1 = a
    · by_cases hb : b = a <;> simp_all [Memory.read]
    · by_cases hb : b = a
      · subst hb; simp_all [Memory.read, Ne.symm h]
      · by_cases hc : b = cell.1 <;> simp_all [Memory.read]

/-- Reading after a write: the word written there, the old word elsewhere. No premise on the list. -/
theorem Memory.read_write : (Memory.write fill m a v).read fill b = if b = a then v else m.read fill b := by
  unfold Memory.write
  split <;> simp_all [Memory.read_erase, Memory.read_insert]

theorem Memory.read_writeBlock (vs : List Word) : ∀ {m : Memory} {a : Nat},
    (Memory.writeBlock fill m a vs).read fill b =
      if a ≤ b ∧ b < a + vs.length then vs.getD (b - a) 0 else m.read fill b := by
  induction vs with
  | nil => intro m a; rw [if_neg (by rw [List.length_nil]; omega)]; rfl
  | cons v vs ih =>
    intro m a
    rw [Memory.writeBlock, ih, Memory.read_write]
    by_cases h : b = a
    · subst h; simp
    · by_cases h' : a + 1 ≤ b ∧ b < a + 1 + vs.length
      · have : b - a = (b - (a + 1)) + 1 := by omega
        rw [if_pos h', if_pos (by simp only [List.length_cons]; omega), this, List.getD_cons_succ]
      · rw [if_neg h', if_neg h, if_neg (by simp only [List.length_cons]; omega)]

theorem Memory.mem_insert {cell : Nat × Word} (h : cell ∈ Memory.insert m a v) : cell = (a, v) ∨ cell ∈ m := by
  induction m with
  | nil => simpa [Memory.insert] using h
  | cons c m ih =>
    simp only [Memory.insert] at h
    split at h
    · simpa using h
    · split at h
      · simp only [List.mem_cons] at h ⊢; tauto
      · simp only [List.mem_cons] at h ⊢
        rcases h with h | h
        · tauto
        · rcases ih h with h | h <;> tauto

theorem Memory.sorted_insert (h : m.Pairwise fun x y => x.1 < y.1) :
    (Memory.insert m a v).Pairwise fun x y => x.1 < y.1 := by
  induction m with
  | nil => simp [Memory.insert]
  | cons c m ih =>
    rw [List.pairwise_cons] at h
    simp only [Memory.insert]
    split
    · rename_i hlt
      refine List.Pairwise.cons ?_ (List.Pairwise.cons h.1 h.2)
      intro x hx
      rcases List.mem_cons.1 hx with rfl | hx
      · exact hlt
      · exact lt_trans hlt (h.1 x hx)
    · split
      · subst_vars; exact List.Pairwise.cons h.1 h.2
      · rename_i h1 h2
        refine List.Pairwise.cons ?_ (ih h.2)
        intro x hx
        rcases Memory.mem_insert hx with rfl | hx
        · show c.1 < a; omega
        · exact h.1 x hx

/-- One write inside memory keeps the canonical form. -/
theorem Memory.wf_write (h : Memory.wf fill limit m) (ha : a < limit) :
    Memory.wf fill limit (Memory.write fill m a v) := by
  unfold Memory.write
  split
  · exact ⟨h.1.filter _, fun c hc => h.2 c (List.mem_filter.1 hc).1⟩
  · rename_i hv
    refine ⟨Memory.sorted_insert h.1, fun c hc => ?_⟩
    rcases Memory.mem_insert hc with rfl | hc
    · exact ⟨ha, hv⟩
    · exact h.2 c hc

/-- A block write inside memory keeps the canonical form. -/
theorem Memory.wf_writeBlock (vs : List Word) : ∀ {m : Memory} {a : Nat}, Memory.wf fill limit m →
    a + vs.length ≤ limit → Memory.wf fill limit (Memory.writeBlock fill m a vs) := by
  induction vs with
  | nil => intro m a h _; exact h
  | cons v vs ih =>
    intro m a h hl
    simp only [List.length_cons] at hl
    exact ih (Memory.wf_write h (by omega)) (by omega)

theorem Memory.wf_nil : Memory.wf fill limit [] := by simp [Memory.wf]

theorem Memory.read_of_lt_all (h : ∀ c ∈ m, a < c.1) : m.read fill a = fill := by
  induction m with
  | nil => rfl
  | cons c m ih =>
    have := h c (by simp)
    rw [Memory.read, if_neg (by omega)]
    exact ih fun c hc => h c (by simp [hc])

/-- In canonical form equal memories are equal lists. -/
theorem Memory.ext_of_wf {m' : Memory} : ∀ {m : Memory}, Memory.wf fill limit m → Memory.wf fill limit m' →
    (∀ a, m.read fill a = m'.read fill a) → m = m' := by
  induction m' with
  | nil =>
    intro m h _ heq
    cases m with
    | nil => rfl
    | cons c m =>
      have := heq c.1
      simp only [Memory.read] at this
      exact absurd this (h.2 c (by simp)).2
  | cons c' m' ih =>
    intro m h h' heq
    have hs' := List.pairwise_cons.1 h'.1
    have hv' := (h'.2 c' (by simp)).2
    cases m with
    | nil =>
      have := heq c'.1
      simp only [Memory.read] at this
      exact absurd this.symm hv'
    | cons c m =>
      have hs := List.pairwise_cons.1 h.1
      have hv := (h.2 c (by simp)).2
      have key : c.1 = c'.1 := by
        rcases lt_trichotomy c.1 c'.1 with hlt | heq' | hlt
        · have h1 := heq c.1
          rw [Memory.read, if_pos rfl, Memory.read_of_lt_all (m := c' :: m')] at h1
          · exact absurd h1 hv
          · intro x hx
            rcases List.mem_cons.1 hx with rfl | hx
            · exact hlt
            · exact lt_trans hlt (hs'.1 x hx)
        · exact heq'
        · have h1 := heq c'.1
          rw [Memory.read_of_lt_all (m := c :: m), Memory.read, if_pos rfl] at h1
          · exact absurd h1.symm hv'
          · intro x hx
            rcases List.mem_cons.1 hx with rfl | hx
            · exact hlt
            · exact lt_trans hlt (hs.1 x hx)
      have hval : c.2 = c'.2 := by
        have h1 := heq c.1
        rw [Memory.read, if_pos rfl, Memory.read, if_pos key] at h1
        exact h1
      have hcc : c = c' := Prod.ext key hval
      subst hcc
      congr 1
      refine ih ⟨hs.2, fun x hx => h.2 x (by simp [hx])⟩ ⟨hs'.2, fun x hx => h'.2 x (by simp [hx])⟩ fun a => ?_
      by_cases ha : a = c.1
      · subst ha
        rw [Memory.read_of_lt_all hs.1, Memory.read_of_lt_all hs'.1]
      · have h1 := heq a
        rwa [Memory.read, if_neg ha, Memory.read, if_neg ha] at h1

/-! ## Through the state -/

theorem memRead_length (s : State) (a n : Nat) : (memRead s a n).length = n := by simp [memRead]

theorem memRead_getD (s : State) (a n k : Nat) (h : k < n) : (memRead s a n).getD k 0 = s.memWord (a + k) := by
  simp [memRead, h]

/-- Everything a block write can answer. -/
theorem memWriteBlock_eq_next {s t : State} {vs : List Word} : memWriteBlock a vs s = .next t ↔
    a + s.cfg.blockSize ≤ s.cfg.memWords ∧
      t = { s with mem := Memory.writeBlock s.cfg.memFill s.mem a (vs.take s.cfg.blockSize) } := by
  unfold memWriteBlock
  split <;> simp_all [eq_comm]

theorem memWriteBlock_ne_refused {s : State} {vs : List Word} {r : Refusal} :
    memWriteBlock a vs s ≠ .refused r := by
  unfold memWriteBlock
  split <;> simp

/-- A word after a block write: the block's words, the old word elsewhere. -/
theorem memWord_writeBlock (s : State) (a : Nat) (vs : List Word) (b : Nat) :
    State.memWord { s with mem := Memory.writeBlock s.cfg.memFill s.mem a vs } b =
      if a ≤ b ∧ b < a + vs.length then vs.getD (b - a) 0 else s.memWord b := by
  simp [State.memWord, Memory.read_writeBlock]

end Sys2Proof.Machine
end

