-- ==== Sys2Proof/Laws/Outcome.lean ====
section
/-! SUPPORT. What the sequencing of outcomes and the READY test can answer. -/

namespace Sys2Proof.Machine

variable {α β : Type} {o : Host.Outcome α Fault Refusal} {k : α → Host.Outcome β Fault Refusal}

@[simp] theorem andThen_next (a : α) : andThen (.next a) k = k a := rfl
@[simp] theorem andThen_fault (f : Fault) : andThen (.fault f) k = .fault f := rfl
@[simp] theorem andThen_refused (r : Refusal) : andThen (.refused r) k = .refused r := rfl

theorem andThen_eq_next {b : β} : andThen o k = .next b ↔ ∃ a, o = .next a ∧ k a = .next b := by
  cases o <;> simp

theorem andThen_eq_fault {f : Fault} :
    andThen o k = .fault f ↔ o = .fault f ∨ ∃ a, o = .next a ∧ k a = .fault f := by
  cases o <;> simp

theorem andThen_eq_refused {r : Refusal} :
    andThen o k = .refused r ↔ o = .refused r ∨ ∃ a, o = .next a ∧ k a = .refused r := by
  cases o <;> simp

theorem whenReady_of_ready {s : State} (h : s.ccState = .ready) : whenReady s o = o := by
  simp [whenReady, h]

theorem whenReady_of_not_ready {s : State} (h : s.ccState ≠ .ready) :
    whenReady s o = .refused (.notReady s.ccState) := by
  cases hc : s.ccState <;> simp_all [whenReady]

theorem whenReady_eq_next {s : State} {a : α} : whenReady s o = .next a ↔ s.ccState = .ready ∧ o = .next a := by
  cases hc : s.ccState <;> simp [whenReady, hc]

theorem whenReady_eq_fault {s : State} {f : Fault} :
    whenReady s o = .fault f ↔ s.ccState = .ready ∧ o = .fault f := by
  cases hc : s.ccState <;> simp [whenReady, hc]

@[simp] theorem raiseAddressOutOfRange_ne_next {op : AccessOp} {a : Int} {x : α} :
    raiseAddressOutOfRange op a ≠ (.next x : Host.Outcome α Fault Refusal) := by
  simp [raiseAddressOutOfRange]

end Sys2Proof.Machine
end

