-- ==== Sys2Proof/Laws/State.lean ====
section
/-! SUPPORT. One lemma per field per update of the state, so that no proof unfolds an update. -/

namespace Sys2Proof.Machine

@[simp] theorem putSet_cfg (s : State) (i : Nat) (ls : List Line) :
    (s.putSet i ls).cfg = s.cfg := rfl
@[simp] theorem putSet_lines (s : State) (i : Nat) (ls : List Line) :
    (s.putSet i ls).lines = s.lines.set i ls := rfl
@[simp] theorem putSet_hitCount (s : State) (i : Nat) (ls : List Line) :
    (s.putSet i ls).hitCount = s.hitCount := rfl
@[simp] theorem putSet_missCount (s : State) (i : Nat) (ls : List Line) :
    (s.putSet i ls).missCount = s.missCount := rfl
@[simp] theorem putSet_ccState (s : State) (i : Nat) (ls : List Line) :
    (s.putSet i ls).ccState = s.ccState := rfl
@[simp] theorem putSet_mem (s : State) (i : Nat) (ls : List Line) :
    (s.putSet i ls).mem = s.mem := rfl
@[simp] theorem putSet_events (s : State) (i : Nat) (ls : List Line) :
    (s.putSet i ls).events = s.events := rfl
@[simp] theorem putSet_report (s : State) (i : Nat) (ls : List Line) :
    (s.putSet i ls).report = s.report := rfl
@[simp] theorem putSet_resp (s : State) (i : Nat) (ls : List Line) :
    (s.putSet i ls).resp = s.resp := rfl
@[simp] theorem putSet_pc (s : State) (i : Nat) (ls : List Line) :
    (s.putSet i ls).pc = s.pc := rfl
@[simp] theorem putSet_x (s : State) (i : Nat) (ls : List Line) :
    (s.putSet i ls).x = s.x := rfl
@[simp] theorem putSet_requester (s : State) (i : Nat) (ls : List Line) :
    (s.putSet i ls).requester = s.requester := rfl
@[simp] theorem putSet_rst (s : State) (i : Nat) (ls : List Line) :
    (s.putSet i ls).rst = s.rst := rfl
@[simp] theorem putSet_free (s : State) (i : Nat) (ls : List Line) :
    (s.putSet i ls).free = s.free := rfl

@[simp] theorem putLine_cfg (s : State) (i w : Nat) (l : Line) :
    (s.putLine i w l).cfg = s.cfg := rfl
@[simp] theorem putLine_lines (s : State) (i w : Nat) (l : Line) :
    (s.putLine i w l).lines = s.lines.set i ((s.set i).set w l) := rfl
@[simp] theorem putLine_hitCount (s : State) (i w : Nat) (l : Line) :
    (s.putLine i w l).hitCount = s.hitCount := rfl
@[simp] theorem putLine_missCount (s : State) (i w : Nat) (l : Line) :
    (s.putLine i w l).missCount = s.missCount := rfl
@[simp] theorem putLine_ccState (s : State) (i w : Nat) (l : Line) :
    (s.putLine i w l).ccState = s.ccState := rfl
@[simp] theorem putLine_mem (s : State) (i w : Nat) (l : Line) :
    (s.putLine i w l).mem = s.mem := rfl
@[simp] theorem putLine_events (s : State) (i w : Nat) (l : Line) :
    (s.putLine i w l).events = s.events := rfl
@[simp] theorem putLine_report (s : State) (i w : Nat) (l : Line) :
    (s.putLine i w l).report = s.report := rfl
@[simp] theorem putLine_resp (s : State) (i w : Nat) (l : Line) :
    (s.putLine i w l).resp = s.resp := rfl
@[simp] theorem putLine_pc (s : State) (i w : Nat) (l : Line) :
    (s.putLine i w l).pc = s.pc := rfl
@[simp] theorem putLine_x (s : State) (i w : Nat) (l : Line) :
    (s.putLine i w l).x = s.x := rfl
@[simp] theorem putLine_requester (s : State) (i w : Nat) (l : Line) :
    (s.putLine i w l).requester = s.requester := rfl
@[simp] theorem putLine_rst (s : State) (i w : Nat) (l : Line) :
    (s.putLine i w l).rst = s.rst := rfl
@[simp] theorem putLine_free (s : State) (i w : Nat) (l : Line) :
    (s.putLine i w l).free = s.free := rfl

@[simp] theorem emit_cfg (a n : Nat) (k : EventKind) (s : State) :
    (emit a n k s).cfg = s.cfg := rfl
@[simp] theorem emit_lines (a n : Nat) (k : EventKind) (s : State) :
    (emit a n k s).lines = s.lines := rfl
@[simp] theorem emit_hitCount (a n : Nat) (k : EventKind) (s : State) :
    (emit a n k s).hitCount = s.hitCount := rfl
@[simp] theorem emit_missCount (a n : Nat) (k : EventKind) (s : State) :
    (emit a n k s).missCount = s.missCount := rfl
@[simp] theorem emit_ccState (a n : Nat) (k : EventKind) (s : State) :
    (emit a n k s).ccState = s.ccState := rfl
@[simp] theorem emit_mem (a n : Nat) (k : EventKind) (s : State) :
    (emit a n k s).mem = s.mem := rfl
@[simp] theorem emit_events (a n : Nat) (k : EventKind) (s : State) :
    (emit a n k s).events = s.events ++ [⟨a, n, k⟩] := rfl
@[simp] theorem emit_report (a n : Nat) (k : EventKind) (s : State) :
    (emit a n k s).report = s.report := rfl
@[simp] theorem emit_resp (a n : Nat) (k : EventKind) (s : State) :
    (emit a n k s).resp = s.resp := rfl
@[simp] theorem emit_pc (a n : Nat) (k : EventKind) (s : State) :
    (emit a n k s).pc = s.pc := rfl
@[simp] theorem emit_x (a n : Nat) (k : EventKind) (s : State) :
    (emit a n k s).x = s.x := rfl
@[simp] theorem emit_requester (a n : Nat) (k : EventKind) (s : State) :
    (emit a n k s).requester = s.requester := rfl
@[simp] theorem emit_rst (a n : Nat) (k : EventKind) (s : State) :
    (emit a n k s).rst = s.rst := rfl
@[simp] theorem emit_free (a n : Nat) (k : EventKind) (s : State) :
    (emit a n k s).free = s.free := rfl

@[simp] theorem emitReport_cfg (s : State) :
    (emitReport s).cfg = s.cfg := rfl
@[simp] theorem emitReport_lines (s : State) :
    (emitReport s).lines = s.lines := rfl
@[simp] theorem emitReport_hitCount (s : State) :
    (emitReport s).hitCount = s.hitCount := rfl
@[simp] theorem emitReport_missCount (s : State) :
    (emitReport s).missCount = s.missCount := rfl
@[simp] theorem emitReport_ccState (s : State) :
    (emitReport s).ccState = s.ccState := rfl
@[simp] theorem emitReport_mem (s : State) :
    (emitReport s).mem = s.mem := rfl
@[simp] theorem emitReport_events (s : State) :
    (emitReport s).events = s.events := rfl
@[simp] theorem emitReport_report (s : State) :
    (emitReport s).report = some ⟨s.hitCount, s.missCount⟩ := rfl
@[simp] theorem emitReport_resp (s : State) :
    (emitReport s).resp = s.resp := rfl
@[simp] theorem emitReport_pc (s : State) :
    (emitReport s).pc = s.pc := rfl
@[simp] theorem emitReport_x (s : State) :
    (emitReport s).x = s.x := rfl
@[simp] theorem emitReport_requester (s : State) :
    (emitReport s).requester = s.requester := rfl
@[simp] theorem emitReport_rst (s : State) :
    (emitReport s).rst = s.rst := rfl
@[simp] theorem emitReport_free (s : State) :
    (emitReport s).free = s.free := rfl

@[simp] theorem putReg_cfg (s : State) (n : Nat) (v : Word) :
    (s.putReg n v).cfg = s.cfg := rfl
@[simp] theorem putReg_lines (s : State) (n : Nat) (v : Word) :
    (s.putReg n v).lines = s.lines := rfl
@[simp] theorem putReg_hitCount (s : State) (n : Nat) (v : Word) :
    (s.putReg n v).hitCount = s.hitCount := rfl
@[simp] theorem putReg_missCount (s : State) (n : Nat) (v : Word) :
    (s.putReg n v).missCount = s.missCount := rfl
@[simp] theorem putReg_ccState (s : State) (n : Nat) (v : Word) :
    (s.putReg n v).ccState = s.ccState := rfl
@[simp] theorem putReg_mem (s : State) (n : Nat) (v : Word) :
    (s.putReg n v).mem = s.mem := rfl
@[simp] theorem putReg_events (s : State) (n : Nat) (v : Word) :
    (s.putReg n v).events = s.events := rfl
@[simp] theorem putReg_report (s : State) (n : Nat) (v : Word) :
    (s.putReg n v).report = s.report := rfl
@[simp] theorem putReg_resp (s : State) (n : Nat) (v : Word) :
    (s.putReg n v).resp = s.resp := rfl
@[simp] theorem putReg_pc (s : State) (n : Nat) (v : Word) :
    (s.putReg n v).pc = s.pc := rfl
@[simp] theorem putReg_x (s : State) (n : Nat) (v : Word) :
    (s.putReg n v).x = s.x.set n v := rfl
@[simp] theorem putReg_requester (s : State) (n : Nat) (v : Word) :
    (s.putReg n v).requester = s.requester := rfl
@[simp] theorem putReg_rst (s : State) (n : Nat) (v : Word) :
    (s.putReg n v).rst = s.rst := rfl
@[simp] theorem putReg_free (s : State) (n : Nat) (v : Word) :
    (s.putReg n v).free = s.free := rfl

@[simp] theorem advancePc_cfg (s : State) :
    (advancePc s).cfg = s.cfg := rfl
@[simp] theorem advancePc_lines (s : State) :
    (advancePc s).lines = s.lines := rfl
@[simp] theorem advancePc_hitCount (s : State) :
    (advancePc s).hitCount = s.hitCount := rfl
@[simp] theorem advancePc_missCount (s : State) :
    (advancePc s).missCount = s.missCount := rfl
@[simp] theorem advancePc_ccState (s : State) :
    (advancePc s).ccState = s.ccState := rfl
@[simp] theorem advancePc_mem (s : State) :
    (advancePc s).mem = s.mem := rfl
@[simp] theorem advancePc_events (s : State) :
    (advancePc s).events = s.events := rfl
@[simp] theorem advancePc_report (s : State) :
    (advancePc s).report = s.report := rfl
@[simp] theorem advancePc_resp (s : State) :
    (advancePc s).resp = s.resp := rfl
@[simp] theorem advancePc_pc (s : State) :
    (advancePc s).pc = wrap s.cfg.xlen (s.pc + 1) := rfl
@[simp] theorem advancePc_x (s : State) :
    (advancePc s).x = s.x := rfl
@[simp] theorem advancePc_requester (s : State) :
    (advancePc s).requester = s.requester := rfl
@[simp] theorem advancePc_rst (s : State) :
    (advancePc s).rst = s.rst := rfl
@[simp] theorem advancePc_free (s : State) :
    (advancePc s).free = s.free := rfl

@[simp] theorem respondRead_cfg (v : Word) (b : Bool) (s : State) :
    (respondRead v b s).cfg = s.cfg := rfl
@[simp] theorem respondRead_lines (v : Word) (b : Bool) (s : State) :
    (respondRead v b s).lines = s.lines := rfl
@[simp] theorem respondRead_hitCount (v : Word) (b : Bool) (s : State) :
    (respondRead v b s).hitCount = s.hitCount := rfl
@[simp] theorem respondRead_missCount (v : Word) (b : Bool) (s : State) :
    (respondRead v b s).missCount = s.missCount := rfl
@[simp] theorem respondRead_ccState (v : Word) (b : Bool) (s : State) :
    (respondRead v b s).ccState = s.ccState := rfl
@[simp] theorem respondRead_mem (v : Word) (b : Bool) (s : State) :
    (respondRead v b s).mem = s.mem := rfl
@[simp] theorem respondRead_events (v : Word) (b : Bool) (s : State) :
    (respondRead v b s).events = s.events := rfl
@[simp] theorem respondRead_report (v : Word) (b : Bool) (s : State) :
    (respondRead v b s).report = s.report := rfl
@[simp] theorem respondRead_resp (v : Word) (b : Bool) (s : State) :
    (respondRead v b s).resp = some ⟨v, b, 0⟩ := rfl
@[simp] theorem respondRead_pc (v : Word) (b : Bool) (s : State) :
    (respondRead v b s).pc = s.pc := rfl
@[simp] theorem respondRead_x (v : Word) (b : Bool) (s : State) :
    (respondRead v b s).x = s.x := rfl
@[simp] theorem respondRead_requester (v : Word) (b : Bool) (s : State) :
    (respondRead v b s).requester = s.requester := rfl
@[simp] theorem respondRead_rst (v : Word) (b : Bool) (s : State) :
    (respondRead v b s).rst = s.rst := rfl
@[simp] theorem respondRead_free (v : Word) (b : Bool) (s : State) :
    (respondRead v b s).free = s.free := rfl

@[simp] theorem respondStore_cfg (b : Bool) (s : State) :
    (respondStore b s).cfg = s.cfg := rfl
@[simp] theorem respondStore_lines (b : Bool) (s : State) :
    (respondStore b s).lines = s.lines := rfl
@[simp] theorem respondStore_hitCount (b : Bool) (s : State) :
    (respondStore b s).hitCount = s.hitCount := rfl
@[simp] theorem respondStore_missCount (b : Bool) (s : State) :
    (respondStore b s).missCount = s.missCount := rfl
@[simp] theorem respondStore_ccState (b : Bool) (s : State) :
    (respondStore b s).ccState = s.ccState := rfl
@[simp] theorem respondStore_mem (b : Bool) (s : State) :
    (respondStore b s).mem = s.mem := rfl
@[simp] theorem respondStore_events (b : Bool) (s : State) :
    (respondStore b s).events = s.events := rfl
@[simp] theorem respondStore_report (b : Bool) (s : State) :
    (respondStore b s).report = s.report := rfl
@[simp] theorem respondStore_resp (b : Bool) (s : State) :
    (respondStore b s).resp = some ⟨freeRdata s, b, 0⟩ := rfl
@[simp] theorem respondStore_pc (b : Bool) (s : State) :
    (respondStore b s).pc = s.pc := rfl
@[simp] theorem respondStore_x (b : Bool) (s : State) :
    (respondStore b s).x = s.x := rfl
@[simp] theorem respondStore_requester (b : Bool) (s : State) :
    (respondStore b s).requester = s.requester := rfl
@[simp] theorem respondStore_rst (b : Bool) (s : State) :
    (respondStore b s).rst = s.rst := rfl
@[simp] theorem respondStore_free (b : Bool) (s : State) :
    (respondStore b s).free = s.free + 1 := rfl

@[simp] theorem respondFlush_cfg (s : State) :
    (respondFlush s).cfg = s.cfg := rfl
@[simp] theorem respondFlush_lines (s : State) :
    (respondFlush s).lines = s.lines := rfl
@[simp] theorem respondFlush_hitCount (s : State) :
    (respondFlush s).hitCount = s.hitCount := rfl
@[simp] theorem respondFlush_missCount (s : State) :
    (respondFlush s).missCount = s.missCount := rfl
@[simp] theorem respondFlush_ccState (s : State) :
    (respondFlush s).ccState = s.ccState := rfl
@[simp] theorem respondFlush_mem (s : State) :
    (respondFlush s).mem = s.mem := rfl
@[simp] theorem respondFlush_events (s : State) :
    (respondFlush s).events = s.events := rfl
@[simp] theorem respondFlush_report (s : State) :
    (respondFlush s).report = s.report := rfl
@[simp] theorem respondFlush_resp (s : State) :
    (respondFlush s).resp = some ⟨freeRdata s, Config.freeHit s.free, 0⟩ := rfl
@[simp] theorem respondFlush_pc (s : State) :
    (respondFlush s).pc = s.pc := rfl
@[simp] theorem respondFlush_x (s : State) :
    (respondFlush s).x = s.x := rfl
@[simp] theorem respondFlush_requester (s : State) :
    (respondFlush s).requester = s.requester := rfl
@[simp] theorem respondFlush_rst (s : State) :
    (respondFlush s).rst = s.rst := rfl
@[simp] theorem respondFlush_free (s : State) :
    (respondFlush s).free = s.free + 1 := rfl

@[simp] theorem touchLru_cfg (h : Handle) (s : State) :
    (touchLru h s).cfg = s.cfg := rfl
@[simp] theorem touchLru_hitCount (h : Handle) (s : State) :
    (touchLru h s).hitCount = s.hitCount := rfl
@[simp] theorem touchLru_missCount (h : Handle) (s : State) :
    (touchLru h s).missCount = s.missCount := rfl
@[simp] theorem touchLru_ccState (h : Handle) (s : State) :
    (touchLru h s).ccState = s.ccState := rfl
@[simp] theorem touchLru_mem (h : Handle) (s : State) :
    (touchLru h s).mem = s.mem := rfl
@[simp] theorem touchLru_events (h : Handle) (s : State) :
    (touchLru h s).events = s.events := rfl
@[simp] theorem touchLru_report (h : Handle) (s : State) :
    (touchLru h s).report = s.report := rfl
@[simp] theorem touchLru_resp (h : Handle) (s : State) :
    (touchLru h s).resp = s.resp := rfl
@[simp] theorem touchLru_pc (h : Handle) (s : State) :
    (touchLru h s).pc = s.pc := rfl
@[simp] theorem touchLru_x (h : Handle) (s : State) :
    (touchLru h s).x = s.x := rfl
@[simp] theorem touchLru_requester (h : Handle) (s : State) :
    (touchLru h s).requester = s.requester := rfl
@[simp] theorem touchLru_rst (h : Handle) (s : State) :
    (touchLru h s).rst = s.rst := rfl
@[simp] theorem touchLru_free (h : Handle) (s : State) :
    (touchLru h s).free = s.free := rfl

@[simp] theorem markDirty_cfg (h : Handle) (s : State) :
    (markDirty h s).cfg = s.cfg := rfl
@[simp] theorem markDirty_hitCount (h : Handle) (s : State) :
    (markDirty h s).hitCount = s.hitCount := rfl
@[simp] theorem markDirty_missCount (h : Handle) (s : State) :
    (markDirty h s).missCount = s.missCount := rfl
@[simp] theorem markDirty_ccState (h : Handle) (s : State) :
    (markDirty h s).ccState = s.ccState := rfl
@[simp] theorem markDirty_mem (h : Handle) (s : State) :
    (markDirty h s).mem = s.mem := rfl
@[simp] theorem markDirty_events (h : Handle) (s : State) :
    (markDirty h s).events = s.events := rfl
@[simp] theorem markDirty_report (h : Handle) (s : State) :
    (markDirty h s).report = s.report := rfl
@[simp] theorem markDirty_resp (h : Handle) (s : State) :
    (markDirty h s).resp = s.resp := rfl
@[simp] theorem markDirty_pc (h : Handle) (s : State) :
    (markDirty h s).pc = s.pc := rfl
@[simp] theorem markDirty_x (h : Handle) (s : State) :
    (markDirty h s).x = s.x := rfl
@[simp] theorem markDirty_requester (h : Handle) (s : State) :
    (markDirty h s).requester = s.requester := rfl
@[simp] theorem markDirty_rst (h : Handle) (s : State) :
    (markDirty h s).rst = s.rst := rfl
@[simp] theorem markDirty_free (h : Handle) (s : State) :
    (markDirty h s).free = s.free := rfl

@[simp] theorem writeWord_cfg (h : Handle) (a : Nat) (v : Word) (s : State) :
    (writeWord h a v s).cfg = s.cfg := rfl
@[simp] theorem writeWord_hitCount (h : Handle) (a : Nat) (v : Word) (s : State) :
    (writeWord h a v s).hitCount = s.hitCount := rfl
@[simp] theorem writeWord_missCount (h : Handle) (a : Nat) (v : Word) (s : State) :
    (writeWord h a v s).missCount = s.missCount := rfl
@[simp] theorem writeWord_ccState (h : Handle) (a : Nat) (v : Word) (s : State) :
    (writeWord h a v s).ccState = s.ccState := rfl
@[simp] theorem writeWord_mem (h : Handle) (a : Nat) (v : Word) (s : State) :
    (writeWord h a v s).mem = s.mem := rfl
@[simp] theorem writeWord_events (h : Handle) (a : Nat) (v : Word) (s : State) :
    (writeWord h a v s).events = s.events := rfl
@[simp] theorem writeWord_report (h : Handle) (a : Nat) (v : Word) (s : State) :
    (writeWord h a v s).report = s.report := rfl
@[simp] theorem writeWord_resp (h : Handle) (a : Nat) (v : Word) (s : State) :
    (writeWord h a v s).resp = s.resp := rfl
@[simp] theorem writeWord_pc (h : Handle) (a : Nat) (v : Word) (s : State) :
    (writeWord h a v s).pc = s.pc := rfl
@[simp] theorem writeWord_x (h : Handle) (a : Nat) (v : Word) (s : State) :
    (writeWord h a v s).x = s.x := rfl
@[simp] theorem writeWord_requester (h : Handle) (a : Nat) (v : Word) (s : State) :
    (writeWord h a v s).requester = s.requester := rfl
@[simp] theorem writeWord_rst (h : Handle) (a : Nat) (v : Word) (s : State) :
    (writeWord h a v s).rst = s.rst := rfl
@[simp] theorem writeWord_free (h : Handle) (a : Nat) (v : Word) (s : State) :
    (writeWord h a v s).free = s.free := rfl

@[simp] theorem fill_cfg (a : Nat) (h : Handle) (s : State) :
    (fill a h s).cfg = s.cfg := rfl
@[simp] theorem fill_hitCount (a : Nat) (h : Handle) (s : State) :
    (fill a h s).hitCount = s.hitCount := rfl
@[simp] theorem fill_missCount (a : Nat) (h : Handle) (s : State) :
    (fill a h s).missCount = s.missCount := rfl
@[simp] theorem fill_ccState (a : Nat) (h : Handle) (s : State) :
    (fill a h s).ccState = s.ccState := rfl
@[simp] theorem fill_mem (a : Nat) (h : Handle) (s : State) :
    (fill a h s).mem = s.mem := rfl
@[simp] theorem fill_events (a : Nat) (h : Handle) (s : State) :
    (fill a h s).events = s.events ++ [⟨blockStart s.cfg a, s.cfg.blockSize, .m2c⟩] := rfl
@[simp] theorem fill_report (a : Nat) (h : Handle) (s : State) :
    (fill a h s).report = s.report := rfl
@[simp] theorem fill_resp (a : Nat) (h : Handle) (s : State) :
    (fill a h s).resp = s.resp := rfl
@[simp] theorem fill_pc (a : Nat) (h : Handle) (s : State) :
    (fill a h s).pc = s.pc := rfl
@[simp] theorem fill_x (a : Nat) (h : Handle) (s : State) :
    (fill a h s).x = s.x := rfl
@[simp] theorem fill_requester (a : Nat) (h : Handle) (s : State) :
    (fill a h s).requester = s.requester := rfl
@[simp] theorem fill_rst (a : Nat) (h : Handle) (s : State) :
    (fill a h s).rst = s.rst := rfl
@[simp] theorem fill_free (a : Nat) (h : Handle) (s : State) :
    (fill a h s).free = s.free := rfl

@[simp] theorem countHit_cfg (s : State) :
    (countHit s).cfg = s.cfg := rfl
@[simp] theorem countHit_lines (s : State) :
    (countHit s).lines = s.lines := rfl
@[simp] theorem countHit_hitCount (s : State) :
    (countHit s).hitCount = s.hitCount + 1 := rfl
@[simp] theorem countHit_missCount (s : State) :
    (countHit s).missCount = s.missCount := rfl
@[simp] theorem countHit_ccState (s : State) :
    (countHit s).ccState = s.ccState := rfl
@[simp] theorem countHit_mem (s : State) :
    (countHit s).mem = s.mem := rfl
@[simp] theorem countHit_events (s : State) :
    (countHit s).events = s.events := rfl
@[simp] theorem countHit_report (s : State) :
    (countHit s).report = s.report := rfl
@[simp] theorem countHit_resp (s : State) :
    (countHit s).resp = s.resp := rfl
@[simp] theorem countHit_pc (s : State) :
    (countHit s).pc = s.pc := rfl
@[simp] theorem countHit_x (s : State) :
    (countHit s).x = s.x := rfl
@[simp] theorem countHit_requester (s : State) :
    (countHit s).requester = s.requester := rfl
@[simp] theorem countHit_rst (s : State) :
    (countHit s).rst = s.rst := rfl
@[simp] theorem countHit_free (s : State) :
    (countHit s).free = s.free := rfl

@[simp] theorem countMiss_cfg (s : State) :
    (countMiss s).cfg = s.cfg := rfl
@[simp] theorem countMiss_lines (s : State) :
    (countMiss s).lines = s.lines := rfl
@[simp] theorem countMiss_hitCount (s : State) :
    (countMiss s).hitCount = s.hitCount := rfl
@[simp] theorem countMiss_missCount (s : State) :
    (countMiss s).missCount = s.missCount + 1 := rfl
@[simp] theorem countMiss_ccState (s : State) :
    (countMiss s).ccState = s.ccState := rfl
@[simp] theorem countMiss_mem (s : State) :
    (countMiss s).mem = s.mem := rfl
@[simp] theorem countMiss_events (s : State) :
    (countMiss s).events = s.events := rfl
@[simp] theorem countMiss_report (s : State) :
    (countMiss s).report = s.report := rfl
@[simp] theorem countMiss_resp (s : State) :
    (countMiss s).resp = s.resp := rfl
@[simp] theorem countMiss_pc (s : State) :
    (countMiss s).pc = s.pc := rfl
@[simp] theorem countMiss_x (s : State) :
    (countMiss s).x = s.x := rfl
@[simp] theorem countMiss_requester (s : State) :
    (countMiss s).requester = s.requester := rfl
@[simp] theorem countMiss_rst (s : State) :
    (countMiss s).rst = s.rst := rfl
@[simp] theorem countMiss_free (s : State) :
    (countMiss s).free = s.free := rfl

@[simp] theorem putFieldReg_cfg (s : State) (f : BitVec 3) (v : Word) :
    (putFieldReg s f v).cfg = s.cfg := rfl
@[simp] theorem putFieldReg_lines (s : State) (f : BitVec 3) (v : Word) :
    (putFieldReg s f v).lines = s.lines := rfl
@[simp] theorem putFieldReg_hitCount (s : State) (f : BitVec 3) (v : Word) :
    (putFieldReg s f v).hitCount = s.hitCount := rfl
@[simp] theorem putFieldReg_missCount (s : State) (f : BitVec 3) (v : Word) :
    (putFieldReg s f v).missCount = s.missCount := rfl
@[simp] theorem putFieldReg_ccState (s : State) (f : BitVec 3) (v : Word) :
    (putFieldReg s f v).ccState = s.ccState := rfl
@[simp] theorem putFieldReg_mem (s : State) (f : BitVec 3) (v : Word) :
    (putFieldReg s f v).mem = s.mem := rfl
@[simp] theorem putFieldReg_events (s : State) (f : BitVec 3) (v : Word) :
    (putFieldReg s f v).events = s.events := rfl
@[simp] theorem putFieldReg_report (s : State) (f : BitVec 3) (v : Word) :
    (putFieldReg s f v).report = s.report := rfl
@[simp] theorem putFieldReg_resp (s : State) (f : BitVec 3) (v : Word) :
    (putFieldReg s f v).resp = s.resp := rfl
@[simp] theorem putFieldReg_pc (s : State) (f : BitVec 3) (v : Word) :
    (putFieldReg s f v).pc = s.pc := rfl
@[simp] theorem putFieldReg_x (s : State) (f : BitVec 3) (v : Word) :
    (putFieldReg s f v).x = s.x.set f.toNat v := rfl
@[simp] theorem putFieldReg_requester (s : State) (f : BitVec 3) (v : Word) :
    (putFieldReg s f v).requester = s.requester := rfl
@[simp] theorem putFieldReg_rst (s : State) (f : BitVec 3) (v : Word) :
    (putFieldReg s f v).rst = s.rst := rfl
@[simp] theorem putFieldReg_free (s : State) (f : BitVec 3) (v : Word) :
    (putFieldReg s f v).free = s.free := rfl

@[simp] theorem putDestination_cfg (s : State) (f : BitVec 16) (v : Word) :
    (putDestination s f v).cfg = s.cfg := rfl
@[simp] theorem putDestination_lines (s : State) (f : BitVec 16) (v : Word) :
    (putDestination s f v).lines = s.lines := rfl
@[simp] theorem putDestination_hitCount (s : State) (f : BitVec 16) (v : Word) :
    (putDestination s f v).hitCount = s.hitCount := rfl
@[simp] theorem putDestination_missCount (s : State) (f : BitVec 16) (v : Word) :
    (putDestination s f v).missCount = s.missCount := rfl
@[simp] theorem putDestination_ccState (s : State) (f : BitVec 16) (v : Word) :
    (putDestination s f v).ccState = s.ccState := rfl
@[simp] theorem putDestination_mem (s : State) (f : BitVec 16) (v : Word) :
    (putDestination s f v).mem = s.mem := rfl
@[simp] theorem putDestination_events (s : State) (f : BitVec 16) (v : Word) :
    (putDestination s f v).events = s.events := rfl
@[simp] theorem putDestination_report (s : State) (f : BitVec 16) (v : Word) :
    (putDestination s f v).report = s.report := rfl
@[simp] theorem putDestination_resp (s : State) (f : BitVec 16) (v : Word) :
    (putDestination s f v).resp = s.resp := rfl
@[simp] theorem putDestination_pc (s : State) (f : BitVec 16) (v : Word) :
    (putDestination s f v).pc = s.pc := rfl
@[simp] theorem putDestination_x (s : State) (f : BitVec 16) (v : Word) :
    (putDestination s f v).x = s.x.set f.toInt.toNat v := rfl
@[simp] theorem putDestination_requester (s : State) (f : BitVec 16) (v : Word) :
    (putDestination s f v).requester = s.requester := rfl
@[simp] theorem putDestination_rst (s : State) (f : BitVec 16) (v : Word) :
    (putDestination s f v).rst = s.rst := rfl
@[simp] theorem putDestination_free (s : State) (f : BitVec 16) (v : Word) :
    (putDestination s f v).free = s.free := rfl

end Sys2Proof.Machine
end

