-- ==== Sys2Proof/Laws/CacheStore.lean ====
section
/-! SUPPORT. What the primitives of the cache store can do: the line array after an update, what LOOKUP finds, and
the inversion of WRITEBACK, the eviction, the choice of a slot, INSTALL and FLUSHALL. -/

namespace Sys2Proof.Machine

/-! ## The line array after an update -/

theorem lineAfterReset_valid (c : Config) : (Line.afterReset c).valid = false := rfl
theorem lineAfterReset_dirty (c : Config) : (Line.afterReset c).dirty = false := rfl

theorem set_putSet (s : State) (i j : Nat) (ls : List Line) :
    (s.putSet i ls).set j = if i = j ∧ i < s.lines.length then ls else s.set j := by
  simp only [State.set, putSet_lines]
  by_cases hi : i < s.lines.length
  · by_cases hij : i = j
    · subst hij; simp [hi]
    · simp [hij, List.getD_eq_getElem?_getD, List.getElem?_set_ne hij]
  · rw [List.set_eq_of_length_le (by omega)]; simp [hi]

theorem set_putSet_ne {s : State} {i j : Nat} {ls : List Line} (h : i ≠ j) : (s.putSet i ls).set j = s.set j := by
  rw [set_putSet, if_neg (by tauto)]

theorem set_putSet_same {s : State} {i : Nat} {ls : List Line} (h : i < s.lines.length) :
    (s.putSet i ls).set i = ls := by rw [set_putSet, if_pos ⟨rfl, h⟩]

theorem set_eq_nil {s : State} {i : Nat} (h : s.lines.length ≤ i) : s.set i = [] :=
  List.getD_eq_default _ _ h

theorem lt_of_set_ne_nil {s : State} {i : Nat} (h : s.set i ≠ []) : i < s.lines.length := by
  by_contra hn; exact h (set_eq_nil (by omega))

/-- A set and a line depend on the line array (and a line that does not exist on the configuration) alone. -/
theorem set_congr {s t : State} (h : t.lines = s.lines) (i : Nat) : t.set i = s.set i := by
  simp only [State.set, h]

theorem line_congr {s t : State} (h : t.lines = s.lines) (hc : t.cfg = s.cfg) (i w : Nat) :
    t.line i w = s.line i w := by simp only [State.line, State.set, h, hc]

theorem line_of_set {s t : State} {i : Nat} (h : t.set i = s.set i) (hc : t.cfg = s.cfg) (w : Nat) :
    t.line i w = s.line i w := by simp only [State.line, h, hc]

theorem line_eq_getElem {s : State} {i w : Nat} (h : w < (s.set i).length) : s.line i w = (s.set i)[w] :=
  List.getD_eq_getElem _ _ h

theorem line_eq_afterReset {s : State} {i w : Nat} (h : (s.set i).length ≤ w) : s.line i w = Line.afterReset s.cfg :=
  List.getD_eq_default _ _ h

theorem lt_of_line_valid {s : State} {i w : Nat} (h : (s.line i w).valid = true) :
    w < (s.set i).length ∧ i < s.lines.length := by
  have hw : w < (s.set i).length := by
    by_contra hn
    rw [line_eq_afterReset (by omega)] at h
    cases h
  exact ⟨hw, lt_of_set_ne_nil fun h => by simp [h] at hw⟩

theorem line_mem {s : State} {i w : Nat} (h : w < (s.set i).length) : s.line i w ∈ s.set i := by
  rw [line_eq_getElem h]; exact List.getElem_mem h

theorem exists_way_of_mem {s : State} {i : Nat} {l : Line} (h : l ∈ s.set i) :
    ∃ w, w < (s.set i).length ∧ s.line i w = l := by
  obtain ⟨w, hw, rfl⟩ := List.getElem_of_mem h
  exact ⟨w, hw, line_eq_getElem hw⟩

theorem memWord_congr {s t : State} (hm : t.mem = s.mem) (hc : t.cfg = s.cfg) (a : Nat) :
    t.memWord a = s.memWord a := by simp only [State.memWord, hm, hc]

theorem memRead_congr {s t : State} {a n : Nat} (h : ∀ k < n, t.memWord (a + k) = s.memWord (a + k)) :
    memRead t a n = memRead s a n := by
  simp only [memRead]
  exact List.map_congr_left fun k hk => h k (List.mem_range.1 hk)

/-! ## Promotion in the state -/

/-- The lines of a set after a promotion in it. -/
theorem line_putSet_promote {s : State} {i w p : Nat} {l : Line} (hw : w < (s.set i).length) (j v : Nat) :
    (s.putSet i (promote w p l (s.set i))).line j v =
      if j = i then if v = w then { l with lruAge := 0 } else ageBelow p (s.line i v) else s.line j v := by
  have hi : i < s.lines.length := lt_of_set_ne_nil fun h => by simp [h] at hw
  by_cases hj : j = i
  · subst hj
    simp only [State.line, set_putSet_same hi, putSet_cfg, if_pos]
    exact promote_getD _ _ _ _ _ _ rfl hw
  · rw [if_neg hj]
    exact line_of_set (set_putSet_ne (fun h => hj h.symm)) rfl v

theorem line_touchLru {s : State} {h : Handle} (hw : h.way < (s.set h.set).length) (j v : Nat) :
    (touchLru h s).line j v =
      if j = h.set then
        if v = h.way then { s.line h.set h.way with lruAge := 0 }
        else ageBelow (s.line h.set h.way).lruAge (s.line h.set v)
      else s.line j v := line_putSet_promote hw j v

theorem line_fill {s : State} {a : Nat} {h : Handle} (hw : h.way < (s.set h.set).length) (j v : Nat) :
    (fill a h s).line j v =
      if j = h.set then
        if v = h.way then filledLine a s else ageBelow (s.line h.set h.way).lruAge (s.line h.set v)
      else s.line j v := by
  have := line_putSet_promote (p := (s.line h.set h.way).lruAge) (l := filledLine a s) hw j v
  exact (line_congr rfl rfl j v).trans this

theorem line_putLine {s : State} {i w : Nat} {l : Line} (hw : w < (s.set i).length) (j v : Nat) :
    (s.putLine i w l).line j v = if j = i ∧ v = w then l else s.line j v := by
  have hi : i < s.lines.length := lt_of_set_ne_nil fun h => by simp [h] at hw
  by_cases hj : j = i
  · subst hj
    simp only [State.line, State.putLine, set_putSet_same hi, putSet_cfg]
    by_cases hv : v = w
    · subst hv; simp [hw]
    · simp [hv, List.getD_eq_getElem?_getD, List.getElem?_set_ne (Ne.symm hv)]
  · rw [if_neg (by tauto)]
    exact line_of_set (set_putSet_ne (fun h => hj h.symm)) rfl v

/-! ## LOOKUP -/

theorem matchingWay_eq_some {ls : List Line} {t w : Nat} : matchingWay ls t = some w ↔
    ∃ hw : w < ls.length, (ls[w].valid = true ∧ ls[w].tag = t) ∧
      ∀ j (hj : j < w), ¬ (ls[j].valid = true ∧ ls[j].tag = t) := by
  simp only [matchingWay, List.findIdx?_eq_some_iff_getElem, Bool.and_eq_true, beq_iff_eq]

theorem matchingWay_eq_none {ls : List Line} {t : Nat} :
    matchingWay ls t = none ↔ ∀ l ∈ ls, l.valid = true → l.tag ≠ t := by
  simp [matchingWay, List.findIdx?_eq_none_iff]

/-- What a hit says (R101). -/
theorem holder_eq_some {s : State} {a : Nat} {h : Handle} (hh : holder s a = some h) :
    h.set = setIndexOf s.cfg a ∧ h.way < (s.set h.set).length ∧ (s.line h.set h.way).valid = true ∧
      (s.line h.set h.way).tag = tagOf s.cfg a := by
  simp only [holder, Option.map_eq_some_iff] at hh
  obtain ⟨w, hw, rfl⟩ := hh
  obtain ⟨hlt, hv, -⟩ := matchingWay_eq_some.1 hw
  exact ⟨rfl, hlt, by rw [line_eq_getElem hlt]; exact hv.1, by rw [line_eq_getElem hlt]; exact hv.2⟩

theorem holder_eq_none {s : State} {a : Nat} : holder s a = none ↔
    ∀ l ∈ s.set (setIndexOf s.cfg a), l.valid = true → l.tag ≠ tagOf s.cfg a := by
  simp only [holder, Option.map_eq_none_iff, matchingWay_eq_none]

/-- In a set whose tags are unique, the line with the tag is the one LOOKUP finds. -/
theorem holder_of_line {s : State} {a w : Nat} (ht : TagsUnique (s.set (setIndexOf s.cfg a)))
    (hv : (s.line (setIndexOf s.cfg a) w).valid = true)
    (htag : (s.line (setIndexOf s.cfg a) w).tag = tagOf s.cfg a) :
    holder s a = some ⟨setIndexOf s.cfg a, w⟩ := by
  have hw := (lt_of_line_valid hv).1
  rw [TagsUnique, nodup_validLines_iff, pairwise_ways fun a b hab hb ha he => hab ha hb he.symm] at ht
  rw [line_eq_getElem hw] at hv htag
  simp only [holder, Option.map_eq_some_iff]
  refine ⟨w, matchingWay_eq_some.2 ⟨hw, ⟨hv, htag⟩, fun j hj hc => ?_⟩, rfl⟩
  exact ht j w (by omega) hw (by omega) hc.1 hv (hc.2.trans htag.symm)

theorem holder_congr {s t : State} {a : Nat} (hc : t.cfg = s.cfg)
    (hset : t.set (setIndexOf s.cfg a) = s.set (setIndexOf s.cfg a)) : holder t a = holder s a := by
  simp only [holder, hc, hset]

theorem lookup_of_valid {op : AccessOp} {a : Int} {s : State} (h : validAddress s.cfg a) :
    lookup op a s = .next (holder s a.toNat) := if_pos h

theorem lookup_of_not_valid {op : AccessOp} {a : Int} {s : State} (h : ¬ validAddress s.cfg a) :
    lookup op a s = .fault (.addressOutOfRange op a) := if_neg h

/-! ## WRITEBACK and eviction -/

/-- The state after a write-back. -/
def writtenBack (h : Handle) (s : State) : State :=
  { s with
    mem := Memory.writeBlock s.cfg.memFill s.mem (lineBase s.cfg (s.line h.set h.way))
      ((s.line h.set h.way).blockData.take s.cfg.blockSize),
    events := s.events ++ [⟨lineBase s.cfg (s.line h.set h.way), s.cfg.blockSize, .c2m⟩] }

/-- Everything WRITEBACK can answer. -/
theorem writeBack_eq (h : Handle) (s : State) : writeBack h s =
    if lineBase s.cfg (s.line h.set h.way) + s.cfg.blockSize ≤ s.cfg.memWords then .next (writtenBack h s)
    else .fault (.blockOutsideMemory (lineBase s.cfg (s.line h.set h.way))) := by
  unfold writeBack memWriteBlock
  split <;> rfl

/-- A word after a write-back. -/
theorem memWord_writtenBack (h : Handle) (s : State) (b : Nat) : (writtenBack h s).memWord b =
    if lineBase s.cfg (s.line h.set h.way) ≤ b ∧ b < lineBase s.cfg (s.line h.set h.way) +
        min s.cfg.blockSize (s.line h.set h.way).blockData.length then
      (s.line h.set h.way).blockData.getD (b - lineBase s.cfg (s.line h.set h.way)) 0
    else s.memWord b := by
  have := memWord_writeBlock s (lineBase s.cfg (s.line h.set h.way))
    ((s.line h.set h.way).blockData.take s.cfg.blockSize) b
  refine (memWord_congr rfl rfl b).trans (this.trans ?_)
  rw [List.length_take]
  split
  · rename_i hb
    rw [List.getD_eq_getElem?_getD, List.getD_eq_getElem?_getD, List.getElem?_take, if_pos (by omega)]
  · rfl

/-- Everything the conditional write-back can answer: where it answers a next state, only memory and the event
stream differ, and memory only inside the block of a dirty line. -/
theorem writeBackIfDirty_eq_next {h : Handle} {s t : State} (ht : writeBackIfDirty h s = .next t) :
    t = { s with mem := t.mem, events := t.events } ∧
    t.events = s.events ++ (if (s.line h.set h.way).dirty = true then
      [⟨lineBase s.cfg (s.line h.set h.way), s.cfg.blockSize, .c2m⟩] else []) ∧
    (∀ b, t.memWord b = if (s.line h.set h.way).dirty = true ∧
        lineBase s.cfg (s.line h.set h.way) ≤ b ∧ b < lineBase s.cfg (s.line h.set h.way) +
          min s.cfg.blockSize (s.line h.set h.way).blockData.length then
        (s.line h.set h.way).blockData.getD (b - lineBase s.cfg (s.line h.set h.way)) 0
      else s.memWord b) ∧
    (Memory.wf s.cfg.memFill s.cfg.memWords s.mem → Memory.wf s.cfg.memFill s.cfg.memWords t.mem) := by
  unfold writeBackIfDirty at ht
  by_cases hd : (s.line h.set h.way).dirty = true
  · rw [if_pos hd, writeBack_eq] at ht
    split at ht
    · rename_i hfit
      cases ht
      refine ⟨rfl, by simp [writtenBack, hd], fun b => ?_, fun hwf => ?_⟩
      · rw [memWord_writtenBack]; simp [hd]
      · refine Memory.wf_writeBlock _ hwf ?_
        rw [List.length_take]; omega
    · cases ht
  · rw [if_neg hd] at ht
    cases ht
    exact ⟨rfl, by simp [hd], fun b => by simp [hd], id⟩

/-- Where the conditional write-back does not answer a next state, the line is dirty and outside memory. -/
theorem writeBackIfDirty_cases (h : Handle) (s : State) : (∃ t, writeBackIfDirty h s = .next t) ∨
    ((s.line h.set h.way).dirty = true ∧
      s.cfg.memWords < lineBase s.cfg (s.line h.set h.way) + s.cfg.blockSize ∧
      writeBackIfDirty h s = .fault (.blockOutsideMemory (lineBase s.cfg (s.line h.set h.way)))) := by
  unfold writeBackIfDirty
  by_cases hd : (s.line h.set h.way).dirty = true
  · rw [if_pos hd, writeBack_eq]
    split
    · exact .inl ⟨_, rfl⟩
    · exact .inr ⟨hd, by omega, rfl⟩
  · rw [if_neg hd]; exact .inl ⟨_, rfl⟩

/-- Everything the eviction can answer. -/
theorem evict_eq_next {h : Handle} {s t : State} (ht : evict h s = .next t) :
    t = { s with mem := t.mem, events := t.events } ∧ t.events = s.events ++ evictionEvents s h ∧
    (∀ b, t.memWord b = if (s.line h.set h.way).dirty = true ∧
        lineBase s.cfg (s.line h.set h.way) ≤ b ∧ b < lineBase s.cfg (s.line h.set h.way) +
          min s.cfg.blockSize (s.line h.set h.way).blockData.length then
        (s.line h.set h.way).blockData.getD (b - lineBase s.cfg (s.line h.set h.way)) 0
      else s.memWord b) ∧
    (Memory.wf s.cfg.memFill s.cfg.memWords s.mem → Memory.wf s.cfg.memFill s.cfg.memWords t.mem) := by
  obtain ⟨u, hu, ht⟩ := andThen_eq_next.1 ht
  obtain ⟨h1, h2, h3, h4⟩ := writeBackIfDirty_eq_next hu
  cases ht
  refine ⟨?_, ?_, fun b => ?_, h4⟩
  · rw [h1]; rfl
  · rw [emit_events, h2, evictionEvents, List.append_assoc]
  · exact (memWord_congr rfl rfl b).trans (h3 b)

/-! ## The slot of INSTALL -/

theorem invalidWay_eq_some {ls : List Line} {w : Nat} : invalidWay ls = some w ↔
    ∃ hw : w < ls.length, ls[w].valid = false ∧ ∀ j (hj : j < w), ls[j].valid = true := by
  simp only [invalidWay, List.findIdx?_eq_some_iff_getElem, Bool.not_eq_true', Bool.not_eq_false]

theorem invalidWay_eq_none {ls : List Line} : invalidWay ls = none ↔ ∀ l ∈ ls, l.valid = true := by
  simp [invalidWay, List.findIdx?_eq_none_iff]

theorem victimWay_eq_some {c : Config} {ls : List Line} {w : Nat} (h : victimWay c ls = some w) :
    ∃ hw : w < ls.length, ls[w].lruAge = c.associativity - 1 := by
  simp only [victimWay, List.findIdx?_eq_some_iff_getElem, beq_iff_eq] at h
  obtain ⟨hw, h, -⟩ := h
  exact ⟨hw, h⟩

theorem victimWay_eq_none {c : Config} {ls : List Line} :
    victimWay c ls = none ↔ ∀ l ∈ ls, l.lruAge ≠ c.associativity - 1 := by
  simp [victimWay, List.findIdx?_eq_none_iff]

/-- What the choice of a slot answers: the lowest invalid way with nothing changed, or the way of age `A-1` of a
full set after its eviction. -/
theorem makeRoom_eq_next {a : Nat} {s : State} {p : Placed} (hp : makeRoom a s = .next p) :
    p.handle.set = setIndexOf s.cfg a ∧
    ((invalidWay (s.set p.handle.set) = some p.handle.way ∧ p.state = s) ∨
      (invalidWay (s.set p.handle.set) = none ∧ victimWay s.cfg (s.set p.handle.set) = some p.handle.way ∧
        evict p.handle s = .next p.state)) := by
  unfold makeRoom at hp
  split at hp
  · rename_i w hw
    cases hp
    exact ⟨rfl, .inl ⟨hw, rfl⟩⟩
  · rename_i hinv
    split at hp
    · rename_i w hw
      obtain ⟨u, hu, hp⟩ := andThen_eq_next.1 hp
      cases hp
      exact ⟨rfl, .inr ⟨hinv, hw, hu⟩⟩
    · cases hp

theorem makeRoom_way_lt {a : Nat} {s : State} {p : Placed} (hp : makeRoom a s = .next p) :
    p.handle.way < (s.set p.handle.set).length := by
  rcases (makeRoom_eq_next hp).2 with ⟨h, -⟩ | ⟨-, h, -⟩
  · exact (invalidWay_eq_some.1 h).1
  · exact (victimWay_eq_some h).1

/-- Only memory and the event stream differ after room was made, and memory only inside a dirty victim's block. -/
theorem makeRoom_frame {a : Nat} {s : State} {p : Placed} (hp : makeRoom a s = .next p) :
    p.state = { s with mem := p.state.mem, events := p.state.events } ∧
    (Memory.wf s.cfg.memFill s.cfg.memWords s.mem → Memory.wf s.cfg.memFill s.cfg.memWords p.state.mem) := by
  rcases (makeRoom_eq_next hp).2 with ⟨-, h⟩ | ⟨-, -, h⟩
  · rw [h]; exact ⟨rfl, id⟩
  · exact ⟨(evict_eq_next h).1, (evict_eq_next h).2.2.2⟩

/-! ## INSTALL -/

theorem install_of_ok {op : AccessOp} {a : Int} {s : State} (h : addressOk s.cfg a) :
    install op a s = andThen (makeRoom a.toNat s) fun p => .next ⟨fill a.toNat p.handle p.state, p.handle⟩ :=
  if_pos h

/-! ## MARKDIRTY and WRITEWORD -/

theorem line_markDirty {s : State} {h : Handle} (hw : h.way < (s.set h.set).length) (j v : Nat) :
    (markDirty h s).line j v =
      if j = h.set ∧ v = h.way then { s.line h.set h.way with dirty := true } else s.line j v :=
  line_putLine hw j v

theorem line_writeWord {s : State} {h : Handle} {a : Nat} {x : Word} (hw : h.way < (s.set h.set).length)
    (j v : Nat) : (writeWord h a x s).line j v =
      if j = h.set ∧ v = h.way then
        { s.line h.set h.way with
          blockData := (s.line h.set h.way).blockData.set (blockOffset s.cfg a) x }
      else s.line j v :=
  line_putLine hw j v

theorem length_set_putLine (s : State) (i w : Nat) (l : Line) (j : Nat) :
    ((s.putLine i w l).set j).length = (s.set j).length := by
  rw [State.putLine, set_putSet]
  split
  · rename_i h; simp [h.1]
  · rfl

theorem length_set_touchLru (h : Handle) (s : State) (j : Nat) :
    ((touchLru h s).set j).length = (s.set j).length := by
  rw [touchLru, set_putSet]
  split
  · rename_i h; simp [h.1]
  · rfl

theorem length_set_fill (a : Nat) (h : Handle) (s : State) (j : Nat) :
    ((fill a h s).set j).length = (s.set j).length := by
  rw [fill, set_congr (emit_lines _ _ _ _), set_putSet]
  split
  · rename_i h; simp [h.1]
  · rfl

/-! ## FLUSHALL -/

/-- What flushing a list of handles can answer: only memory and the event stream differ. -/
theorem flushHandles_frame : ∀ (hs : List Handle) {s t : State}, flushHandles hs s = .next t →
    t = { s with mem := t.mem, events := t.events } ∧
    t.events = s.events ++ (hs.filter fun h => (s.line h.set h.way).dirty).map
      (fun h => ⟨lineBase s.cfg (s.line h.set h.way), s.cfg.blockSize, .c2m⟩) ∧
    (Memory.wf s.cfg.memFill s.cfg.memWords s.mem → Memory.wf s.cfg.memFill s.cfg.memWords t.mem) := by
  intro hs
  induction hs with
  | nil => intro s t h; cases h; exact ⟨rfl, by simp, id⟩
  | cons h hs ih =>
    intro s t ht
    obtain ⟨u, hu, ht⟩ := andThen_eq_next.1 ht
    obtain ⟨u1, u2, -, u4⟩ := writeBackIfDirty_eq_next hu
    have hlines : u.lines = s.lines := by rw [u1]
    have hcfg : u.cfg = s.cfg := by rw [u1]
    obtain ⟨t1, t2, t3⟩ := ih ht
    refine ⟨?_, ?_, ?_⟩
    · rw [t1, u1]
    · rw [t2, u2, List.append_assoc, List.filter_cons]
      simp only [line_congr hlines hcfg, hcfg]
      split <;> simp
    · intro hwf
      rw [hcfg] at t3
      exact t3 (u4 hwf)

/-- A word after flushing a list of handles: unchanged outside the blocks of the dirty lines among them. -/
theorem flushHandles_memWord_of_outside : ∀ (hs : List Handle) {s t : State}, flushHandles hs s = .next t →
    ∀ b, (∀ h ∈ hs, (s.line h.set h.way).dirty = true →
      ¬ inBlock s.cfg (lineBase s.cfg (s.line h.set h.way)) b) → t.memWord b = s.memWord b := by
  intro hs
  induction hs with
  | nil => intro s t h b _; cases h; rfl
  | cons h hs ih =>
    intro s t ht b hb
    obtain ⟨u, hu, ht⟩ := andThen_eq_next.1 ht
    obtain ⟨u1, -, u3, -⟩ := writeBackIfDirty_eq_next hu
    have hlines : u.lines = s.lines := by rw [u1]
    have hcfg : u.cfg = s.cfg := by rw [u1]
    rw [ih ht b ?_, u3, if_neg ?_]
    · rintro ⟨hd, h1, h2⟩
      exact hb h (by simp) hd ⟨h1, by omega⟩
    · intro h' hh' hd
      rw [line_congr hlines hcfg, hcfg] at *
      exact hb h' (by simp [hh']) hd

theorem mem_allHandles {c : Config} {h : Handle} :
    h ∈ allHandles c ↔ h.set < c.setCount ∧ h.way < c.associativity := by
  simp only [allHandles, List.mem_flatMap, List.mem_map, List.mem_range]
  constructor
  · rintro ⟨i, hi, w, hw, rfl⟩; exact ⟨hi, hw⟩
  · rintro ⟨h1, h2⟩; exact ⟨h.set, h1, h.way, h2, rfl⟩

end Sys2Proof.Machine
end

