-- ==== Sys2Proof/Laws/Invariant.lean ====
section
/-! SUPPORT. What the invariant says of a line, and that each primitive, applied as the commands apply it, keeps it
(41_cache_store.md R113). -/

namespace Sys2Proof.Machine

/-! ## Reading the invariant -/

theorem Inv.cfg_wf {s : State} (h : Inv s) : s.cfg.wf := h.1
theorem Inv.constraints {s : State} (h : Inv s) : s.cfg.constraints := of_decide_eq_true h.cfg_wf
theorem Inv.cache {s : State} (h : Inv s) : CacheOk s := h.2.1
theorem Inv.mem {s : State} (h : Inv s) : Memory.wf s.cfg.memFill s.cfg.memWords s.mem := h.2.2.1
theorem Inv.regs {s : State} (h : Inv s) : s.x.length = s.cfg.numRegs := h.2.2.2

theorem CacheOk.setOk {s : State} (h : CacheOk s) {i : Nat} (hi : i < s.cfg.setCount) : SetOk s i :=
  h.2 i (List.mem_range.2 hi)

theorem CacheOk.length_set {s : State} (h : CacheOk s) {i : Nat} (hi : i < s.cfg.setCount) :
    (s.set i).length = s.cfg.associativity := (h.setOk hi).1

theorem CacheOk.lineOk {s : State} (h : CacheOk s) {i w : Nat} (hi : i < s.cfg.setCount)
    (hw : w < s.cfg.associativity) : LineOk s i (s.line i w) :=
  (h.setOk hi).2.2.2.2 _ (line_mem (by rw [h.length_set hi]; exact hw))

/-- A valid line stands in the array. -/
theorem CacheOk.bounds_of_valid {s : State} (h : CacheOk s) {i w : Nat} (hv : (s.line i w).valid = true) :
    i < s.cfg.setCount ∧ w < s.cfg.associativity := by
  obtain ⟨hw, hi⟩ := lt_of_line_valid hv
  rw [h.1] at hi
  rw [h.length_set hi] at hw
  exact ⟨hi, hw⟩

theorem CacheOk.validLineOk {s : State} (h : CacheOk s) {i w : Nat} (hv : (s.line i w).valid = true) :
    ValidLineOk s i (s.line i w) ∧ (s.line i w).blockData.length = s.cfg.blockSize :=
  have hb := h.bounds_of_valid hv
  ⟨(h.lineOk hb.1 hb.2).2.2.1 hv, (h.lineOk hb.1 hb.2).1⟩

/-- A dirty line is valid (R31 (b)). -/
theorem CacheOk.valid_of_dirty {s : State} (h : CacheOk s) {i w : Nat} (hd : (s.line i w).dirty = true) :
    (s.line i w).valid = true := by
  by_contra hv
  have hv : (s.line i w).valid = false := by simpa using hv
  by_cases hb : i < s.cfg.setCount ∧ w < s.cfg.associativity
  · have := ((h.lineOk hb.1 hb.2).2.2.2 hv).2.1
    rw [hd] at this; cases this
  · have : s.line i w = Line.afterReset s.cfg := by
      refine line_eq_afterReset ?_
      by_cases hi : i < s.cfg.setCount
      · rw [h.length_set hi]; omega
      · rw [set_eq_nil (by rw [h.1]; omega)]; simp
    rw [this] at hd; cases hd

/-- The base of a valid line, through its position. -/
theorem CacheOk.lineBase_eq {s : State} (h : CacheOk s) {i w : Nat} (hv : (s.line i w).valid = true) :
    lineBase s.cfg (s.line i w) = baseOf s.cfg (s.line i w).tag i := by
  rw [lineBase, (h.validLineOk hv).1.1]

/-- The addresses of the block of a valid line are those with its tag and set index (R96 (c)). -/
theorem CacheOk.inBlock_iff {s : State} (h : CacheOk s) {i w b : Nat} (hv : (s.line i w).valid = true) :
    inBlock s.cfg (lineBase s.cfg (s.line i w)) b ↔ tagOf s.cfg b = (s.line i w).tag ∧ setIndexOf s.cfg b = i := by
  rw [h.lineBase_eq hv]
  exact inBlock_baseOf_iff s.cfg (h.bounds_of_valid hv).1

theorem CacheOk.offset_of_inBlock {s : State} (h : CacheOk s) {i w b : Nat} (hv : (s.line i w).valid = true)
    (hb : inBlock s.cfg (lineBase s.cfg (s.line i w)) b) :
    blockOffset s.cfg b = b - lineBase s.cfg (s.line i w) := by
  rw [h.lineBase_eq hv] at hb ⊢
  obtain ⟨h1, h2⟩ := hb
  have := (tag_and_set_in_block s.cfg (t := (s.line i w).tag) (k := b - baseOf s.cfg (s.line i w).tag i)
    (h.bounds_of_valid hv).1 (by omega)).2.2
  rwa [Nat.add_sub_cancel' h1] at this

/-- The line LOOKUP finds is the valid line whose block holds the address. -/
theorem CacheOk.holder_iff {s : State} (h : CacheOk s) {b : Nat} {k : Handle} : holder s b = some k ↔
    (s.line k.set k.way).valid = true ∧ inBlock s.cfg (lineBase s.cfg (s.line k.set k.way)) b := by
  constructor
  · intro hk
    obtain ⟨h1, h2, h3, h4⟩ := holder_eq_some hk
    exact ⟨h3, (h.inBlock_iff h3).2 ⟨h4.symm, h1.symm⟩⟩
  · rintro ⟨hv, hb⟩
    obtain ⟨h1, h2⟩ := (h.inBlock_iff hv).1 hb
    have hi := (h.bounds_of_valid hv).1
    have := holder_of_line (s := s) (a := b) (w := k.way)
      (by rw [h2]; exact (h.setOk hi).2.2.1) (by rw [h2]; exact hv) (by rw [h2]; exact h1.symm)
    rw [this, h2]

theorem CacheOk.holder_none_iff {s : State} (h : CacheOk s) {b : Nat} : holder s b = none ↔
    ∀ i w, (s.line i w).valid = true → ¬ inBlock s.cfg (lineBase s.cfg (s.line i w)) b := by
  constructor
  · intro hn i w hv hb
    rw [(h.holder_iff (k := ⟨i, w⟩)).2 ⟨hv, hb⟩] at hn
    cases hn
  · intro hn
    cases hk : holder s b with
    | none => rfl
    | some k =>
      obtain ⟨hv, hb⟩ := h.holder_iff.1 hk
      exact absurd hb (hn _ _ hv)

/-- Two valid lines hold different blocks (R30). -/
theorem CacheOk.same_line {s : State} (h : CacheOk s) {i w i' w' b : Nat} (hv : (s.line i w).valid = true)
    (hv' : (s.line i' w').valid = true) (hb : inBlock s.cfg (lineBase s.cfg (s.line i w)) b)
    (hb' : inBlock s.cfg (lineBase s.cfg (s.line i' w')) b) : i = i' ∧ w = w' := by
  have h1 := (h.holder_iff (k := ⟨i, w⟩)).2 ⟨hv, hb⟩
  have h2 := (h.holder_iff (k := ⟨i', w'⟩)).2 ⟨hv', hb'⟩
  rw [h1] at h2
  cases h2
  exact ⟨rfl, rfl⟩

/-! ## The logical memory -/

/-- The logical word in the block of a valid line is the line's (R62). -/
theorem CacheOk.logical_of_inBlock {s : State} (h : CacheOk s) {i w b : Nat} (hv : (s.line i w).valid = true)
    (hb : inBlock s.cfg (lineBase s.cfg (s.line i w)) b) :
    logical s b = (s.line i w).blockData.getD (b - lineBase s.cfg (s.line i w)) 0 := by
  have hk := (h.holder_iff (k := ⟨i, w⟩)).2 ⟨hv, hb⟩
  have : logical s b = readWord ⟨i, w⟩ b s := by rw [logical, hk]
  rw [this, readWord, h.offset_of_inBlock hv hb]

theorem logical_of_holder_none {s : State} {b : Nat} (h : holder s b = none) : logical s b = s.memWord b := by
  rw [logical, h]

/-- The logical memory depends on the configuration, the line array and the memory words alone. -/
theorem logical_congr {s t : State} (hc : t.cfg = s.cfg) (hl : t.lines = s.lines) (hm : t.mem = s.mem) (b : Nat) :
    logical t b = logical s b := by
  have hh : holder t b = holder s b := holder_congr hc (set_congr hl _)
  simp only [logical, hh, readWord, line_congr hl hc, hc, memWord_congr hm hc]

/-- So does the invariant, with the number of registers. -/
theorem Inv.congr {s t : State} (h : Inv s) (hc : t.cfg = s.cfg) (hl : t.lines = s.lines) (hm : t.mem = s.mem)
    (hx : t.x.length = s.x.length) : Inv t := by
  obtain ⟨cfg', lines', h1, h2, h3, mem', h4, h5, h6, h7, x', h8, h9, h10⟩ := t
  dsimp only at hc hl hm hx
  subst hc hl hm
  exact ⟨h.1, h.2.1, h.2.2.1, by rw [hx]; exact h.regs⟩

/-- A state with the same lines, whose memory differs from that of `s` only in blocks of dirty lines, is in order. -/
theorem Inv.of_mem {s t : State} (h : Inv s) (ht : t = { s with mem := t.mem, events := t.events })
    (hwf : Memory.wf s.cfg.memFill s.cfg.memWords t.mem)
    (hsame : ∀ i w, (s.line i w).valid = true → (s.line i w).dirty = false → ∀ b,
      inBlock s.cfg (lineBase s.cfg (s.line i w)) b → t.memWord b = s.memWord b) : Inv t := by
  have hc : t.cfg = s.cfg := by rw [ht]
  have hl : t.lines = s.lines := by rw [ht]
  have hx : t.x = s.x := by rw [ht]
  refine ⟨by rw [hc]; exact h.1, ⟨by rw [hc, hl]; exact h.cache.1, fun i hi => ?_⟩, by rw [hc]; exact hwf,
    by rw [hx, hc]; exact h.regs⟩
  rw [hc] at hi
  have hs := h.cache.setOk (List.mem_range.1 hi)
  rw [SetOk, set_congr hl, hc]
  refine ⟨hs.1, hs.2.1, hs.2.2.1, hs.2.2.2.1, fun l hl' => ?_⟩
  have hok := hs.2.2.2.2 l hl'
  refine ⟨by rw [hc]; exact hok.1, by rw [hc]; exact hok.2.1, fun hv => ?_, by rw [hc]; exact hok.2.2.2⟩
  have hvok := hok.2.2.1 hv
  refine ⟨hvok.1, by rw [hc]; exact hvok.2.1, fun hd => ?_⟩
  rw [hvok.2.2 hd, hc]
  obtain ⟨w, -, rfl⟩ := exists_way_of_mem hl'
  refine (memRead_congr fun k hk => hsame i w hv hd _ ⟨by omega, by omega⟩).symm

/-! ## Eviction -/

/-- The eviction of a line keeps the invariant. -/
theorem Inv.evict {s t : State} {k : Handle} (h : Inv s) (ht : evict k s = .next t) : Inv t := by
  obtain ⟨h1, -, h3, h4⟩ := evict_eq_next ht
  refine h.of_mem h1 (h4 h.mem) fun i w hv hd b hb => ?_
  rw [h3, if_neg]
  rintro ⟨hkd, hb1, hb2⟩
  have hkv := h.cache.valid_of_dirty hkd
  obtain ⟨rfl, rfl⟩ := h.cache.same_line hv hkv hb ⟨hb1, by omega⟩
  rw [hd] at hkd; cases hkd

/-- The eviction of a line leaves the logical memory alone. -/
theorem logical_evict {s t : State} {k : Handle} (h : Inv s) (ht : evict k s = .next t) (b : Nat) :
    logical t b = logical s b := by
  obtain ⟨h1, -, h3, -⟩ := evict_eq_next ht
  have hc : t.cfg = s.cfg := by rw [h1]
  have hl : t.lines = s.lines := by rw [h1]
  have hh : holder t b = holder s b := holder_congr hc (set_congr hl _)
  cases hb : holder s b with
  | some k' => simp only [logical, hh, hb, readWord, line_congr hl hc, hc]
  | none =>
    rw [logical_of_holder_none (hh.trans hb), logical_of_holder_none hb, h3, if_neg]
    rintro ⟨hkd, hb1, hb2⟩
    exact h.cache.holder_none_iff.1 hb _ _ (h.cache.valid_of_dirty hkd) ⟨hb1, by omega⟩

/-- After the eviction of a line memory holds the logical words of its block (R109). -/
theorem memWord_evict_of_inBlock {s t : State} {k : Handle} (h : Inv s) (ht : evict k s = .next t)
    (hv : (s.line k.set k.way).valid = true) {b : Nat}
    (hb : inBlock s.cfg (lineBase s.cfg (s.line k.set k.way)) b) : t.memWord b = logical s b := by
  obtain ⟨-, -, h3, -⟩ := evict_eq_next ht
  obtain ⟨hvok, hlen⟩ := h.cache.validLineOk hv
  rw [h3, h.cache.logical_of_inBlock hv hb]
  by_cases hd : (s.line k.set k.way).dirty = true
  · rw [if_pos ⟨hd, hb.1, by rw [hlen]; have := hb.2; omega⟩]
  · rw [if_neg (by tauto), hvok.2.2 (by simpa using hd), memRead_getD _ _ _ _ (by have := hb.2; omega),
      Nat.add_sub_cancel' hb.1]

/-! ## A line of a set replaced by promotion -/

/-- Replacing one line of a set by promotion keeps the invariant, where the line put in is in order and its tag is
new in the set, and the pivot is that of R103 and R107. -/
theorem Inv.promote {s : State} {i w p : Nat} {l : Line} (h : Inv s) (hi : i < s.cfg.setCount)
    (hw : w < s.cfg.associativity) (hl : l.valid = true)
    (hlen : l.blockData.length = s.cfg.blockSize) (hlok : ValidLineOk s i l)
    (hother : ∀ j < s.cfg.associativity, j ≠ w → (s.line i j).valid = true →
      (s.line i j).lruAge ≠ p ∧ (s.line i j).tag ≠ l.tag)
    (hp : p < s.cfg.associativity)
    (hslot : (s.line i w).valid = true → p < (s.set i).countP fun l => l.valid)
    (hlow : ∀ j < w, (s.line i j).valid = true) :
    Inv (s.putSet i (promote w p l (s.set i))) := by
  have hset := h.cache.setOk hi
  have hlength := hset.1
  have hil : i < s.lines.length := by rw [h.cache.1]; exact hi
  have hget : ∀ j (hj : j < (s.set i).length), (s.set i)[j] = s.line i j := fun j hj => (line_eq_getElem hj).symm
  refine ⟨h.1, ⟨by simpa using h.cache.1, fun i' hi' => ?_⟩, h.mem, h.regs⟩
  by_cases hii : i = i'
  · subst hii
    rw [SetOk, set_putSet_same hil]
    refine ⟨by simpa using hlength, ?_, ?_, ?_, ?_⟩
    · refine lruOrder_promote (by omega) hl hset.2.1 (fun j hj hjw hv => ?_) (fun hv => hslot ?_)
      · rw [hget] at hv ⊢
        exact (hother j (by omega) hjw hv).1
      · rwa [hget] at hv
    · refine tagsUnique_promote hset.2.2.1 fun j hj hjw hv => ?_
      rw [hget] at hv ⊢
      exact (hother j (by omega) hjw hv).2
    · refine filledFirst_promote hset.2.2.2.1 hl fun j hj hjw => ?_
      rw [hget]; exact hlow j hjw
    · intro x hx
      rcases mem_promote hx with rfl | ⟨y, hy, rfl⟩
      · exact ⟨hlen, by show 0 < s.cfg.associativity; omega, fun _ => hlok, fun hv => by
          have : l.valid = false := hv
          rw [hl] at this; cases this⟩
      · have hy' := hset.2.2.2.2 y hy
        refine ⟨by simpa using hy'.1, ?_, fun hv => ?_, fun hv => ?_⟩
        · show (ageBelow p y).lruAge < s.cfg.associativity
          rw [ageBelow_lruAge]
          split
          · omega
          · exact hy'.2.1
        · have hb : lineBase s.cfg (ageBelow p y) = lineBase s.cfg y := by simp [lineBase]
          rw [ageBelow_valid] at hv
          have := hy'.2.2.1 hv
          refine ⟨by simpa using this.1, ?_, fun hd => ?_⟩
          · show lineBase s.cfg (ageBelow p y) + _ ≤ _
            rw [hb]; exact this.2.1
          · rw [ageBelow_blockData, this.2.2 (by simpa using hd)]
            show _ = memRead _ (lineBase s.cfg (ageBelow p y)) _
            rw [hb]; rfl
        · rw [ageBelow_valid] at hv
          rw [ageBelow_of_invalid hv]
          exact hy'.2.2.2 hv
  · rw [SetOk, set_putSet_ne hii]
    exact h.cache.setOk (List.mem_range.1 hi')

/-- Two valid lines of a set differ in age and tag (R29, R30). -/
theorem CacheOk.ways_differ {s : State} (h : CacheOk s) {i j w : Nat} (hj : (s.line i j).valid = true)
    (hw : (s.line i w).valid = true) (hjw : j ≠ w) :
    (s.line i j).lruAge ≠ (s.line i w).lruAge ∧ (s.line i j).tag ≠ (s.line i w).tag := by
  obtain ⟨hi, hjl⟩ := h.bounds_of_valid hj
  obtain ⟨-, hwl⟩ := h.bounds_of_valid hw
  have hs := h.setOk hi
  have h1 := ((lruOrder_iff _).1 hs.2.1).1
  have h2 := (nodup_validLines_iff (fun l => l.tag) _).1 hs.2.2.1
  rw [pairwise_ways fun a b hab hb ha he => hab ha hb he.symm] at h1 h2
  rw [← hs.1] at hjl hwl
  rw [line_eq_getElem hjl] at hj ⊢
  rw [line_eq_getElem hwl] at hw ⊢
  exact ⟨h1 j w hjl hwl hjw hj hw, h2 j w hjl hwl hjw hj hw⟩

/-- The age of a valid line is below the number of valid lines of its set (R29). -/
theorem CacheOk.age_lt_count {s : State} (h : CacheOk s) {i w : Nat} (hv : (s.line i w).valid = true) :
    (s.line i w).lruAge < (s.set i).countP fun l => l.valid := by
  obtain ⟨hi, hw⟩ := h.bounds_of_valid hv
  exact ((lruOrder_iff _).1 (h.setOk hi).2.1).2 _ (line_mem (by rw [h.length_set hi]; exact hw)) hv

/-- The ways below a valid one are valid (R31 (e)). -/
theorem CacheOk.valid_below {s : State} (h : CacheOk s) {i j w : Nat} (hv : (s.line i w).valid = true)
    (hj : j < w) : (s.line i j).valid = true := by
  obtain ⟨hi, hw⟩ := h.bounds_of_valid hv
  have hs := h.setOk hi
  rw [← hs.1] at hw
  have h1 := List.pairwise_iff_getElem.1 hs.2.2.2.1 j w (by omega) hw hj
  rw [line_eq_getElem hw] at hv
  rw [line_eq_getElem (by omega)]
  exact h1 hv

/-! ## TOUCHLRU -/

/-- TOUCHLRU of a valid line keeps the invariant (R103). -/
theorem Inv.touchLru {s : State} {k : Handle} (h : Inv s) (hv : (s.line k.set k.way).valid = true) :
    Inv (touchLru k s) := by
  obtain ⟨hi, hw⟩ := h.cache.bounds_of_valid hv
  have hl := h.cache.lineOk hi hw
  exact h.promote hi hw hv hl.1 (hl.2.2.1 hv) (fun j _ hjw hjv => h.cache.ways_differ hjv hv hjw) hl.2.1
    (fun _ => h.cache.age_lt_count hv) (fun j hj => h.cache.valid_below hv hj)

/-- Which line holds an address does not depend on ages. -/
theorem holder_of_same_keys {s t : State} {b : Nat} (hc : t.cfg = s.cfg)
    (h : (t.set (setIndexOf s.cfg b)).map (fun l => (l.valid, l.tag)) =
      (s.set (setIndexOf s.cfg b)).map fun l => (l.valid, l.tag)) : holder t b = holder s b := by
  have key : ∀ ls : List Line, matchingWay ls (tagOf s.cfg b) =
      (ls.map fun l => (l.valid, l.tag)).findIdx? fun x => x.1 && x.2 == tagOf s.cfg b := by
    intro ls; rw [List.findIdx?_map]; rfl
  simp only [holder, hc, key, h]

theorem keys_touchLru {s : State} {k : Handle} (hw : k.way < (s.set k.set).length) (j : Nat) :
    ((touchLru k s).set j).map (fun l => (l.valid, l.tag)) = (s.set j).map fun l => (l.valid, l.tag) := by
  rw [Sys2Proof.Machine.touchLru, set_putSet]
  split
  · rename_i hj
    obtain ⟨rfl, -⟩ := hj
    refine List.ext_getElem (by simp) fun n h1 h2 => ?_
    rw [List.getElem_map, List.getElem_map, promote_getElem]
    split
    · rename_i hn; subst hn; rw [line_eq_getElem hw]
    · simp
  · rfl

theorem holder_touchLru {s : State} {k : Handle} (hw : k.way < (s.set k.set).length) (b : Nat) :
    holder (touchLru k s) b = holder s b := holder_of_same_keys rfl (keys_touchLru hw _)

theorem blockData_touchLru {s : State} {k : Handle} (hw : k.way < (s.set k.set).length) (i j : Nat) :
    ((touchLru k s).line i j).blockData = (s.line i j).blockData := by
  rw [line_touchLru hw]
  split
  · rename_i hi; subst hi
    split
    · rename_i hj; subst hj; rfl
    · simp
  · rfl

theorem logical_touchLru {s : State} {k : Handle} (hw : k.way < (s.set k.set).length) (b : Nat) :
    logical (touchLru k s) b = logical s b := by
  simp only [logical, holder_touchLru hw, readWord, blockData_touchLru hw, touchLru_cfg]
  rfl

/-! ## INSTALL -/

/-- The base of the line a fill makes is the start of the block (R95, R96). -/
theorem lineBase_filledLine (a : Nat) (s : State) : lineBase s.cfg (filledLine a s) = blockStart s.cfg a :=
  baseOf_tag_setIndex s.cfg a

/-- What makes a slot one INSTALL may fill: its lowest invalid way, or the line of age `A-1` of a full set. -/
def FillSlot (s : State) (a : Nat) (k : Handle) : Prop :=
  k.set = setIndexOf s.cfg a ∧
    (invalidWay (s.set k.set) = some k.way ∨
      invalidWay (s.set k.set) = none ∧ k.way < (s.set k.set).length ∧
        (s.line k.set k.way).lruAge = s.cfg.associativity - 1)

theorem FillSlot.way_lt {s : State} {a : Nat} {k : Handle} (h : FillSlot s a k) : k.way < (s.set k.set).length := by
  rcases h.2 with h | ⟨-, h, -⟩
  · exact (invalidWay_eq_some.1 h).1
  · exact h

/-- The pre-install age of the slot is `A-1` (R107). -/
theorem FillSlot.age {s : State} {a : Nat} {k : Handle} (h : FillSlot s a k) (hs : Inv s) :
    (s.line k.set k.way).lruAge = s.cfg.associativity - 1 := by
  have hi : k.set < s.cfg.setCount := h.1 ▸ setIndexOf_lt _ _
  rcases h.2 with h' | ⟨-, -, h'⟩
  · obtain ⟨hw, hv, -⟩ := invalidWay_eq_some.1 h'
    rw [← line_eq_getElem hw] at hv
    exact ((hs.cache.lineOk hi (by rw [← hs.cache.length_set hi]; exact hw)).2.2.2 hv).1
  · exact h'

/-- The fill of a slot with a block no line holds keeps the invariant (R106, R107). -/
theorem Inv.fill {s : State} {a : Nat} {k : Handle} (h : Inv s) (hk : FillSlot s a k) (hn : holder s a = none)
    (hfit : blockStart s.cfg a + s.cfg.blockSize ≤ s.cfg.memWords) : Inv (fill a k s) := by
  have hi : k.set < s.cfg.setCount := hk.1 ▸ setIndexOf_lt _ _
  have hlen := h.cache.length_set hi
  have hwl := hk.way_lt
  have hw : k.way < s.cfg.associativity := by omega
  have hage := hk.age h
  refine Inv.congr (s := s.putSet k.set (Sys2Proof.Machine.promote k.way (s.line k.set k.way).lruAge
    (filledLine a s) (s.set k.set))) ?_ rfl rfl rfl rfl
  refine h.promote hi hw rfl (memRead_length _ _ _) ⟨hk.1.symm, ?_, fun _ => ?_⟩ (fun j hj hjw hjv => ⟨?_, ?_⟩)
    (h.cache.lineOk hi hw).2.1 (fun hv => h.cache.age_lt_count hv) (fun j hj => ?_)
  · rw [lineBase_filledLine]; exact hfit
  · rw [lineBase_filledLine]; rfl
  · rw [hage]
    have hcount := h.cache.age_lt_count hjv
    rcases hk.2 with h' | ⟨h', -, -⟩
    · obtain ⟨hw', hv, -⟩ := invalidWay_eq_some.1 h'
      have := countP_valid_lt_of_invalid (List.getElem_mem hw') hv
      omega
    · have hv : (s.line k.set k.way).valid = true := invalidWay_eq_none.1 h' _ (line_mem hwl)
      rw [← hage]
      exact (h.cache.ways_differ hjv hv hjw).1
  · exact holder_eq_none.1 hn _ (by rw [← hk.1]; exact line_mem (by omega)) hjv
  · rcases hk.2 with h' | ⟨h', -, -⟩
    · have := (invalidWay_eq_some.1 h').2.2 j hj
      rwa [← line_eq_getElem] at this
    · exact invalidWay_eq_none.1 h' _ (line_mem (by omega))

/-- After the fill the slot holds the block. -/
theorem holder_fill {s : State} {a : Nat} {k : Handle} (h : Inv s) (hk : FillSlot s a k) (hn : holder s a = none)
    (hfit : blockStart s.cfg a + s.cfg.blockSize ≤ s.cfg.memWords) {b : Nat}
    (hb : blockStart s.cfg b = blockStart s.cfg a) : holder (fill a k s) b = some k := by
  have hline : (fill a k s).line k.set k.way = filledLine a s := by simp [line_fill hk.way_lt]
  refine (h.fill hk hn hfit).cache.holder_iff.2 ⟨by rw [hline]; rfl, ?_⟩
  rw [hline, fill_cfg, lineBase_filledLine, ← hb]
  exact ⟨blockStart_le _ _, lt_blockStart_add _ _⟩

/-- The logical memory after a fill: unchanged, where memory holds the logical words of the block dropped. -/
theorem logical_fill {s : State} {a : Nat} {k : Handle} (h : Inv s) (hk : FillSlot s a k) (hn : holder s a = none)
    (hfit : blockStart s.cfg a + s.cfg.blockSize ≤ s.cfg.memWords)
    (hdrop : (s.line k.set k.way).valid = true → ∀ b,
      inBlock s.cfg (lineBase s.cfg (s.line k.set k.way)) b → s.memWord b = logical s b) (b : Nat) :
    logical (fill a k s) b = logical s b := by
  have h' := h.fill hk hn hfit
  have hline := fun j v => line_fill (a := a) hk.way_lt j v
  by_cases hba : blockStart s.cfg b = blockStart s.cfg a
  · have hhold := holder_fill h hk hn hfit hba
    have hn' : holder s b = none := by
      rw [holder_eq_none] at hn ⊢
      rw [(blockStart_eq_iff s.cfg).1 hba |>.1, (blockStart_eq_iff s.cfg).1 hba |>.2]
      exact hn
    have hrd : logical (fill a k s) b = readWord k b (fill a k s) := by rw [logical, hhold]
    rw [hrd, logical_of_holder_none hn', readWord, hline, if_pos rfl, if_pos rfl, fill_cfg]
    show (memRead s (blockStart s.cfg a) s.cfg.blockSize).getD _ 0 = _
    rw [memRead_getD _ _ _ _ (blockOffset_lt _ _), ← hba, blockStart_add_offset]
  · cases hb : holder s b with
    | some k' =>
      obtain ⟨hv, hin⟩ := h.cache.holder_iff.1 hb
      by_cases hkk : k' = k
      · subst hkk
        have hn' : holder (fill a k' s) b = none := by
          rw [h'.cache.holder_none_iff]
          intro i w hv' hb'
          rw [hline, fill_cfg] at hb'
          rw [hline] at hv'
          by_cases hi : i = k'.set
          · rw [if_pos hi] at hv' hb'
            by_cases hw : w = k'.way
            · rw [if_pos hw, lineBase_filledLine] at hb'
              have e1 := (inBlock_baseOf_iff s.cfg (t := tagOf s.cfg a) (i := setIndexOf s.cfg a) (b := b)
                (setIndexOf_lt _ _)).1 (by rw [baseOf_tag_setIndex]; exact hb')
              exact hba ((blockStart_eq_iff s.cfg).2 e1)
            · rw [if_neg hw] at hv' hb'
              rw [ageBelow_valid] at hv'
              have hb'' : inBlock s.cfg (lineBase s.cfg (s.line k'.set w)) b := by
                simpa [lineBase] using hb'
              exact hw (h.cache.same_line hv' hv hb'' hin).2
          · rw [if_neg hi] at hv' hb'
            exact hi (h.cache.same_line hv' hv hb' hin).1
        rw [logical_of_holder_none hn']
        exact (memWord_congr rfl rfl b).trans (hdrop hv b hin)
      · have hb2 : holder (fill a k s) b = some k' := by
          refine h'.cache.holder_iff.2 ?_
          rw [hline, fill_cfg]
          by_cases hi : k'.set = k.set
          · have hw : k'.way ≠ k.way := fun hw => hkk (by cases k; cases k'; simp_all)
            rw [if_pos hi, if_neg hw, ageBelow_valid, ← hi]
            exact ⟨hv, by simpa [lineBase] using hin⟩
          · rw [if_neg hi]; exact ⟨hv, hin⟩
        have hrd : logical (fill a k s) b = readWord k' b (fill a k s) := by rw [logical, hb2]
        have hrd' : logical s b = readWord k' b s := by rw [logical, hb]
        rw [hrd, hrd', readWord, readWord, hline, fill_cfg]
        by_cases hi : k'.set = k.set
        · have hw : k'.way ≠ k.way := fun hw => hkk (by cases k; cases k'; simp_all)
          rw [if_pos hi, if_neg hw, ageBelow_blockData, ← hi]
        · rw [if_neg hi]
    | none =>
      have hn' : holder (fill a k s) b = none := by
        rw [h'.cache.holder_none_iff]
        intro i w hv' hb'
        rw [hline, fill_cfg] at hb'
        rw [hline] at hv'
        by_cases hi : i = k.set
        · rw [if_pos hi] at hv' hb'
          by_cases hw : w = k.way
          · rw [if_pos hw, lineBase_filledLine] at hb'
            have e1 := (inBlock_baseOf_iff s.cfg (t := tagOf s.cfg a) (i := setIndexOf s.cfg a) (b := b)
              (setIndexOf_lt _ _)).1 (by rw [baseOf_tag_setIndex]; exact hb')
            exact hba ((blockStart_eq_iff s.cfg).2 e1)
          · rw [if_neg hw] at hv' hb'
            rw [ageBelow_valid] at hv'
            have hb'' : inBlock s.cfg (lineBase s.cfg (s.line k.set w)) b := by simpa [lineBase] using hb'
            exact h.cache.holder_none_iff.1 hb _ _ hv' hb''
        · rw [if_neg hi] at hv' hb'
          exact h.cache.holder_none_iff.1 hb _ _ hv' hb'
      rw [logical_of_holder_none hn', logical_of_holder_none hb]
      exact memWord_congr rfl rfl b

/-! ## The write of a word -/

/-- The line a store leaves. -/
def storedLine (s : State) (k : Handle) (a : Nat) (v : Word) : Line :=
  { s.line k.set k.way with
    blockData := (s.line k.set k.way).blockData.set (blockOffset s.cfg a) v, dirty := true }

/-- WRITEWORD and MARKDIRTY together, as STORE applies them. -/
theorem markDirty_writeWord {s : State} {k : Handle} {a : Nat} {v : Word} (hw : k.way < (s.set k.set).length) :
    markDirty k (writeWord k a v s) = s.putLine k.set k.way (storedLine s k a v) := by
  have hi : k.set < s.lines.length := lt_of_set_ne_nil fun h => by simp [h] at hw
  have h1 : (writeWord k a v s).line k.set k.way =
      { s.line k.set k.way with
        blockData := (s.line k.set k.way).blockData.set (blockOffset s.cfg a) v } := by
    simp [line_writeWord hw]
  have h2 : (writeWord k a v s).set k.set = (s.set k.set).set k.way ((writeWord k a v s).line k.set k.way) := by
    rw [h1]; exact set_putSet_same hi
  simp only [markDirty, State.putLine, h2, h1, List.set_set, State.putSet, storedLine]
  simp [writeWord, State.putLine, State.putSet, List.set_set]

/-- The store of a word in a valid line keeps the invariant (R113). -/
theorem Inv.store {s : State} {k : Handle} {a : Nat} {v : Word} (h : Inv s)
    (hv : (s.line k.set k.way).valid = true) : Inv (markDirty k (writeWord k a v s)) := by
  obtain ⟨hi, hw⟩ := h.cache.bounds_of_valid hv
  have hset := h.cache.setOk hi
  have hwl : k.way < (s.set k.set).length := by rw [hset.1]; exact hw
  have hil : k.set < s.lines.length := by rw [h.cache.1]; exact hi
  rw [markDirty_writeWord hwl]
  have hline := h.cache.lineOk hi hw
  have hkeep : ∀ (f : Line → Line → Prop), (∀ x y z, x.valid = z.valid → x.lruAge = z.lruAge → x.tag = z.tag →
      (f x y ↔ f z y) ∧ (f y x ↔ f y z)) → (s.set k.set).Pairwise f →
      ((s.set k.set).set k.way (storedLine s k a v)).Pairwise f := by
    intro f hf hp
    rw [List.pairwise_iff_getElem] at hp ⊢
    intro i j hi' hj' hij
    simp only [List.length_set] at hi' hj'
    have := hp i j hi' hj' hij
    rw [List.getElem_set, List.getElem_set]
    by_cases h1 : k.way = i
    · have h2 : k.way ≠ j := by omega
      rw [if_pos h1, if_neg h2]
      subst h1
      rw [← line_eq_getElem hwl] at this
      exact (hf (s.line k.set k.way) _ (storedLine s k a v) rfl rfl rfl).1.1 this
    · by_cases h2 : k.way = j
      · rw [if_neg h1, if_pos h2]
        subst h2
        rw [← line_eq_getElem hwl] at this
        exact (hf (s.line k.set k.way) _ (storedLine s k a v) rfl rfl rfl).2.1 this
      · rw [if_neg h1, if_neg h2]; exact this
  have hcount : ((s.set k.set).set k.way (storedLine s k a v)).countP (fun l => l.valid) =
      (s.set k.set).countP fun l => l.valid := by
    have hpos : 0 < (s.set k.set).countP fun l => l.valid :=
      List.countP_pos_iff.2 ⟨_, line_mem hwl, hv⟩
    rw [List.countP_set hwl, ← line_eq_getElem hwl]
    simp only [storedLine, hv]
    simp only [if_true]
    omega
  refine ⟨h.1, ⟨by simpa using h.cache.1, fun i' hi' => ?_⟩, h.mem, h.regs⟩
  by_cases hii : k.set = i'
  · subst hii
    rw [SetOk, State.putLine, set_putSet_same hil]
    refine ⟨by simpa using hset.1, ?_, ?_, ?_, ?_⟩
    · rw [lruOrder_iff, hcount]
      have h0 := (lruOrder_iff _).1 hset.2.1
      refine ⟨hkeep _ (fun x y z e1 e2 _ => by rw [e1, e2]; exact ⟨Iff.rfl, Iff.rfl⟩) h0.1, fun l hl hlv => ?_⟩
      rcases List.mem_or_eq_of_mem_set hl with hl | rfl
      · exact h0.2 l hl hlv
      · exact h0.2 (s.line k.set k.way) (line_mem hwl) hv
    · rw [TagsUnique, nodup_validLines_iff]
      have h0 := (nodup_validLines_iff (fun l => l.tag) _).1 hset.2.2.1
      exact hkeep _ (fun x y z e1 _ e3 => by rw [e1, e3]; exact ⟨Iff.rfl, Iff.rfl⟩) h0
    · exact hkeep _ (fun x y z e1 _ _ => by rw [e1]; exact ⟨Iff.rfl, Iff.rfl⟩) hset.2.2.2.1
    · intro l hl
      rcases List.mem_or_eq_of_mem_set hl with hl | rfl
      · exact hset.2.2.2.2 l hl
      · refine ⟨by simpa [storedLine] using hline.1, hline.2.1, fun _ => ⟨(hline.2.2.1 hv).1, (hline.2.2.1 hv).2.1,
          fun hd => ?_⟩, fun hv' => ?_⟩
        · cases hd
        · have : (s.line k.set k.way).valid = false := hv'
          rw [hv] at this; cases this
  · rw [SetOk, State.putLine, set_putSet_ne hii]
    exact h.cache.setOk (List.mem_range.1 hi')

theorem keys_store {s : State} {k : Handle} {a : Nat} {v : Word} (hw : k.way < (s.set k.set).length) (j : Nat) :
    ((markDirty k (writeWord k a v s)).set j).map (fun l => (l.valid, l.tag)) =
      (s.set j).map fun l => (l.valid, l.tag) := by
  rw [markDirty_writeWord hw, State.putLine, set_putSet]
  split
  · rename_i hj
    obtain ⟨rfl, -⟩ := hj
    refine List.ext_getElem (by simp) fun n h1 h2 => ?_
    rw [List.getElem_map, List.getElem_map, List.getElem_set]
    split
    · rename_i hn; subst hn; rw [← line_eq_getElem hw]; rfl
    · rfl
  · rfl

theorem holder_store {s : State} {k : Handle} {a : Nat} {v : Word} (hw : k.way < (s.set k.set).length) (b : Nat) :
    holder (markDirty k (writeWord k a v s)) b = holder s b := holder_of_same_keys rfl (keys_store hw _)

theorem line_store {s : State} {k : Handle} {a : Nat} {v : Word} (hw : k.way < (s.set k.set).length) (i j : Nat) :
    (markDirty k (writeWord k a v s)).line i j =
      if i = k.set ∧ j = k.way then storedLine s k a v else s.line i j := by
  rw [markDirty_writeWord hw, line_putLine hw]

/-- The store of a word sets the logical memory there and nowhere else. -/
theorem logical_store {s : State} {k : Handle} {a : Nat} {v : Word} (h : Inv s) (hk : holder s a = some k) (b : Nat) :
    logical (markDirty k (writeWord k a v s)) b = if b = a then v else logical s b := by
  obtain ⟨hset, hw, hv, htag⟩ := holder_eq_some hk
  have hlen := (h.cache.validLineOk hv).2
  have hoff := blockOffset_lt s.cfg a
  cases hb : holder s b with
  | none =>
    have hba : b ≠ a := fun e => by rw [e, hk] at hb; cases hb
    rw [if_neg hba, logical_of_holder_none ((holder_store hw b).trans hb), logical_of_holder_none hb]
    exact memWord_congr rfl rfl b
  | some k' =>
    have hrd : logical (markDirty k (writeWord k a v s)) b = readWord k' b (markDirty k (writeWord k a v s)) := by
      rw [logical, holder_store hw, hb]
    have hrd' : logical s b = readWord k' b s := by rw [logical, hb]
    rw [hrd, hrd', readWord, readWord, line_store hw, markDirty_cfg, writeWord_cfg]
    by_cases hkk : k' = k
    · subst hkk
      rw [if_pos ⟨rfl, rfl⟩]
      simp only [storedLine]
      by_cases hba : b = a
      · subst hba
        rw [if_pos rfl, List.getD_eq_getElem _ _ (by simp; omega), List.getElem_set_self]
      · have hne : blockOffset s.cfg a ≠ blockOffset s.cfg b := by
          intro e
          obtain ⟨hs', -, -, ht'⟩ := holder_eq_some hb
          have : blockStart s.cfg b = blockStart s.cfg a :=
            (blockStart_eq_iff s.cfg).2 ⟨ht'.symm.trans htag, hs'.symm.trans hset⟩
          have e1 := blockStart_add_offset s.cfg a
          have e2 := blockStart_add_offset s.cfg b
          omega
        rw [if_neg hba, List.getD_eq_getElem?_getD, List.getElem?_set_ne hne, ← List.getD_eq_getElem?_getD]
    · have hba : b ≠ a := fun e => by rw [e, hk] at hb; cases hb; exact hkk rfl
      rw [if_neg hba, if_neg]
      rintro ⟨e1, e2⟩
      exact hkk (by cases k; cases k'; simp_all)

/-! ## FLUSHALL -/

/-- FLUSHALL keeps the invariant. -/
theorem Inv.flushAll {s t : State} (h : Inv s) (ht : flushAll s = .next t) : Inv t := by
  obtain ⟨h1, -, h3⟩ := flushHandles_frame _ ht
  refine h.of_mem h1 (h3 h.mem) fun i w hv hd b hb => ?_
  refine flushHandles_memWord_of_outside _ ht b fun k _ hkd hkb => ?_
  obtain ⟨rfl, rfl⟩ := h.cache.same_line hv (h.cache.valid_of_dirty hkd) hb hkb
  rw [hd] at hkd; cases hkd

/-- Flushing handles of a machine in order always completes. -/
theorem flushHandles_completes : ∀ (hs : List Handle) {s : State}, Inv s → ∃ t, flushHandles hs s = .next t := by
  intro hs
  induction hs with
  | nil => intro s _; exact ⟨s, rfl⟩
  | cons k hs ih =>
    intro s h
    rcases writeBackIfDirty_cases k s with ⟨u, hu⟩ | ⟨hd, hlt, -⟩
    · obtain ⟨u1, -, u3, u4⟩ := writeBackIfDirty_eq_next hu
      have hInv : Inv u := h.of_mem u1 (u4 h.mem) fun i w hv hd b hb => by
        rw [u3, if_neg]
        rintro ⟨hkd, hb1, hb2⟩
        obtain ⟨rfl, rfl⟩ := h.cache.same_line hv (h.cache.valid_of_dirty hkd) hb ⟨hb1, by omega⟩
        rw [hd] at hkd; cases hkd
      obtain ⟨t, ht⟩ := ih hInv
      exact ⟨t, by simp only [flushHandles, hu, andThen_next, ht]⟩
    · have := (h.cache.validLineOk (h.cache.valid_of_dirty hd)).1.2.1
      omega

end Sys2Proof.Machine
end

