-- ==== Sys2Proof/Laws/Access.lean ====
section
/-! SUPPORT. What ACCESS and the commands over it can do: their inversions in every state, and what they keep in a
state that is in order. -/

namespace Sys2Proof.Machine

/-! ## ACCESS in every state -/

/-- A hit of ACCESS. -/
def accessHit (k : Handle) (s : State) : Accessed := ⟨touchLru k (countHit s), k, true⟩

/-- A miss of ACCESS, after room was made. -/
def accessMiss (a : Nat) (p : Placed) : Accessed := ⟨fill a p.handle p.state, p.handle, false⟩

theorem access_of_hit {op : AccessOp} {a : Int} {s : State} {k : Handle} (hr : s.ccState = .ready)
    (ha : addressOk s.cfg a) (hk : holder s a.toNat = some k) : access op a s = .next (accessHit k s) := by
  rw [access, whenReady_of_ready hr, if_pos ha, lookup_of_valid ha.1, hk]; rfl

theorem access_of_miss {op : AccessOp} {a : Int} {s : State} (hr : s.ccState = .ready) (ha : addressOk s.cfg a)
    (hk : holder s a.toNat = none) : access op a s =
      andThen (makeRoom a.toNat (countMiss s)) fun p => .next (accessMiss a.toNat p) := by
  rw [access, whenReady_of_ready hr, if_pos ha, lookup_of_valid ha.1, hk, andThen_next, accessFound,
    install_of_ok (s := countMiss s) ha]
  cases makeRoom a.toNat (countMiss s) <;> rfl

theorem access_of_bad {op : AccessOp} {a : Int} {s : State} (hr : s.ccState = .ready) (ha : ¬ addressOk s.cfg a) :
    access op a s = .fault (.addressOutOfRange op a) := by
  rw [access, whenReady_of_ready hr, if_neg ha]; rfl

theorem access_of_not_ready {op : AccessOp} {a : Int} {s : State} (hr : s.ccState ≠ .ready) :
    access op a s = .refused (.notReady s.ccState) := by
  rw [access, whenReady_of_not_ready hr]

/-- Everything ACCESS can do where it answers. -/
theorem access_eq_next {op : AccessOp} {a : Int} {s : State} {r : Accessed} (h : access op a s = .next r) :
    s.ccState = .ready ∧ addressOk s.cfg a ∧
      ((∃ k, holder s a.toNat = some k ∧ r = accessHit k s) ∨
        (holder s a.toNat = none ∧
          ∃ p, makeRoom a.toNat (countMiss s) = .next p ∧ r = accessMiss a.toNat p)) := by
  have hr : s.ccState = .ready := (whenReady_eq_next.1 h).1
  by_cases ha : addressOk s.cfg a
  · refine ⟨hr, ha, ?_⟩
    cases hk : holder s a.toNat with
    | some k => rw [access_of_hit hr ha hk] at h; cases h; exact .inl ⟨k, rfl, rfl⟩
    | none =>
      rw [access_of_miss hr ha hk] at h
      obtain ⟨p, hp, h⟩ := andThen_eq_next.1 h
      cases h
      exact .inr ⟨rfl, p, hp, rfl⟩
  · rw [access_of_bad hr ha] at h; cases h

/-- The operation is only named in the fault. -/
theorem access_op {op op' : AccessOp} {a : Int} {s : State} {r : Accessed} (h : access op a s = .next r) :
    access op' a s = .next r := by
  obtain ⟨hr, ha, ⟨k, hk, rfl⟩ | ⟨hk, p, hp, rfl⟩⟩ := access_eq_next h
  · exact access_of_hit hr ha hk
  · rw [access_of_miss hr ha hk, hp]; rfl

/-- `victim` of a miss is the slot room is made in, when the set is full. -/
theorem victim_of_miss {a : Nat} {s : State} {p : Placed} (hk : holder s a = none)
    (hp : makeRoom a s = .next p) :
    (victim s a = none ∧ p.state = s ∧ invalidWay (s.set p.handle.set) = some p.handle.way) ∨
    (victim s a = some p.handle ∧ evict p.handle s = .next p.state ∧ invalidWay (s.set p.handle.set) = none) := by
  obtain ⟨hset, ⟨h1, h2⟩ | ⟨h1, h2, h3⟩⟩ := makeRoom_eq_next hp
  · rw [hset] at h1
    exact .inl ⟨by simp only [victim, hk, h1], h2, by rw [hset]; exact h1⟩
  · refine .inr ⟨?_, h3, h1⟩
    rw [hset] at h1 h2
    simp only [victim, hk, h1, h2, Option.map_some]
    rw [← hset]

theorem victim_countMiss (a : Nat) (s : State) : victim (countMiss s) a = victim s a := rfl
theorem holder_countMiss (a : Nat) (s : State) : holder (countMiss s) a = holder s a := rfl
theorem holder_countHit (a : Nat) (s : State) : holder (countHit s) a = holder s a := rfl
theorem logical_countMiss (a : Nat) (s : State) : logical (countMiss s) a = logical s a := rfl
theorem logical_countHit (a : Nat) (s : State) : logical (countHit s) a = logical s a := rfl
theorem holder_emit (b n k x : _) (s : State) : holder (emit b n k s) x = holder s x := rfl

/-- What ACCESS changes and what it leaves, in every state. -/
theorem access_frame {op : AccessOp} {a : Int} {s : State} {r : Accessed} (h : access op a s = .next r) :
    r.handle.set = setIndexOf s.cfg a.toNat ∧ r.handle.way < (r.state.set r.handle.set).length ∧
    SameOutsideCache s r.state ∧ r.state.resp = s.resp ∧ r.state.free = s.free ∧
    (∀ j, j ≠ setIndexOf s.cfg a.toNat → r.state.set j = s.set j) ∧
    r.hit = (holder s a.toNat).isSome ∧
    r.state.hitCount = s.hitCount + (if (holder s a.toNat).isSome then 1 else 0) ∧
    r.state.missCount = s.missCount + (if (holder s a.toNat).isSome then 0 else 1) := by
  obtain ⟨hr, ha, ⟨k, hk, rfl⟩ | ⟨hk, p, hp, rfl⟩⟩ := access_eq_next h
  · obtain ⟨h1, h2, -, -⟩ := holder_eq_some hk
    refine ⟨h1, ?_, ⟨rfl, rfl, rfl, rfl, rfl, rfl, rfl⟩, rfl, rfl, fun j hj => ?_, by rw [hk]; rfl, by rw [hk]; rfl,
      by rw [hk]; rfl⟩
    · show k.way < ((touchLru k (countHit s)).set k.set).length
      rw [length_set_touchLru]; exact h2
    · exact set_putSet_ne (by rw [h1]; exact Ne.symm hj)
  · have hset := (makeRoom_eq_next hp).1
    have hway := makeRoom_way_lt hp
    have hfr := (makeRoom_frame hp).1
    have hlines : p.state.lines = s.lines := by rw [hfr]; rfl
    have hset' : p.handle.set = setIndexOf s.cfg a.toNat := hset
    refine ⟨hset', ?_, ?_, ?_, ?_, fun j hj => ?_, by rw [hk]; rfl, ?_, ?_⟩
    · show p.handle.way < ((fill a.toNat p.handle p.state).set p.handle.set).length
      rw [length_set_fill, set_congr hlines]; exact hway
    · simp only [SameOutsideCache, accessMiss, fill_cfg, fill_ccState, fill_report, fill_pc, fill_x, fill_requester,
        fill_rst]
      rw [hfr]
      exact ⟨rfl, rfl, rfl, rfl, rfl, rfl, rfl⟩
    · simp only [accessMiss, fill_resp]; rw [hfr]; rfl
    · simp only [accessMiss, fill_free]; rw [hfr]; rfl
    · have : (fill a.toNat p.handle p.state).set j = p.state.set j := by
        rw [fill, set_congr (emit_lines _ _ _ _)]
        exact set_putSet_ne (by rw [hset']; exact Ne.symm hj)
      exact this.trans (set_congr hlines j)
    · simp only [accessMiss, fill_hitCount]; rw [hfr, hk]; rfl
    · simp only [accessMiss, fill_missCount]; rw [hfr, hk]; rfl

/-- Memory after ACCESS: unchanged outside the block of a dirty victim. -/
theorem access_memWord {op : AccessOp} {a : Int} {s : State} {r : Accessed} (h : access op a s = .next r) (b : Nat)
    (hb : ∀ base, writtenBlock s a.toNat = some base → ¬ inBlock s.cfg base b) :
    r.state.memWord b = s.memWord b := by
  obtain ⟨hr, ha, ⟨k, hk, rfl⟩ | ⟨hk, p, hp, rfl⟩⟩ := access_eq_next h
  · rfl
  · have e : (accessMiss a.toNat p).state.memWord b = p.state.memWord b := memWord_congr rfl rfl b
    rw [e]
    rcases victim_of_miss (s := countMiss s) hk hp with ⟨-, h2, -⟩ | ⟨h1, h2, -⟩
    · rw [h2]; rfl
    · obtain ⟨-, -, h3, -⟩ := evict_eq_next h2
      rw [h3, if_neg]
      · rfl
      · rintro ⟨hd, hb1, hb2⟩
        have hd' : (s.line p.handle.set p.handle.way).dirty = true := hd
        have hv : victim s a.toNat = some p.handle := h1
        refine hb (lineBase s.cfg (s.line p.handle.set p.handle.way)) ?_ ⟨hb1, ?_⟩
        · simp only [writtenBlock, hv, hd', if_true]
        · exact Nat.lt_of_lt_of_le hb2 (Nat.add_le_add_left (Nat.min_le_left _ _) _)

/-- The events of ACCESS, before the word transfer (R126). -/
theorem access_events {op : AccessOp} {a : Int} {s : State} {r : Accessed} (h : access op a s = .next r)
    (x : EventKind) :
    r.state.events ++ [⟨a.toNat, 1, x⟩] = s.events ++ accessEvents s a.toNat x := by
  obtain ⟨hr, ha, ⟨k, hk, rfl⟩ | ⟨hk, p, hp, rfl⟩⟩ := access_eq_next h
  · simp only [accessEvents, hk]; rfl
  · have hcfg : p.state.cfg = s.cfg := by rw [(makeRoom_frame hp).1]; rfl
    simp only [accessMiss, fill_events, accessEvents, hk, hcfg]
    rcases victim_of_miss (s := countMiss s) hk hp with ⟨h1, h2, -⟩ | ⟨h1, h2, -⟩
    · rw [show victim s a.toNat = none from h1, h2]
      simp
    · rw [show victim s a.toNat = some p.handle from h1, (evict_eq_next h2).2.1]
      have : evictionEvents (countMiss s) p.handle = evictionEvents s p.handle := rfl
      simp [this]

/-! ## ACCESS in a machine in order -/

/-- A full set has a victim. -/
theorem exists_victim {s : State} {i : Nat} (h : Inv s) (hi : i < s.cfg.setCount)
    (hfull : invalidWay (s.set i) = none) : ∃ w, victimWay s.cfg (s.set i) = some w := by
  cases hv : victimWay s.cfg (s.set i) with
  | some w => exact ⟨w, rfl⟩
  | none =>
    exfalso
    have hall := invalidWay_eq_none.1 hfull
    have hs := h.cache.setOk hi
    have hA := h.constraints.1
    have hvl : validLines (s.set i) = s.set i := List.filter_eq_self.2 hall
    have hp := hs.2.1
    rw [LruOrder, hvl, hs.1] at hp
    have : s.cfg.associativity - 1 ∈ (s.set i).map fun l => l.lruAge :=
      hp.mem_iff.2 (List.mem_range.2 (by omega))
    obtain ⟨l, hl, he⟩ := List.mem_map.1 this
    exact victimWay_eq_none.1 hv l hl he

/-- Room can always be made. -/
theorem makeRoom_completes {a : Nat} {s : State} (h : Inv s) : ∃ p, makeRoom a s = .next p := by
  unfold makeRoom
  split
  · exact ⟨_, rfl⟩
  · rename_i hfull
    obtain ⟨w, hw⟩ := exists_victim h (setIndexOf_lt s.cfg a) hfull
    rw [hw]
    have hv : (s.line (setIndexOf s.cfg a) w).valid = true := by
      obtain ⟨hlt, -⟩ := victimWay_eq_some hw
      exact invalidWay_eq_none.1 hfull _ (line_mem hlt)
    rcases writeBackIfDirty_cases ⟨setIndexOf s.cfg a, w⟩ s with ⟨u, hu⟩ | ⟨-, hlt, -⟩
    · refine ⟨⟨emit (lineBase s.cfg (s.line (setIndexOf s.cfg a) w)) s.cfg.blockSize .c2d u,
        ⟨setIndexOf s.cfg a, w⟩⟩, ?_⟩
      simp only [evict, hu, andThen_next]
    · have := (h.cache.validLineOk hv).1.2.1
      dsimp only at hlt
      omega

/-- What making room leaves, in a machine in order: a slot that may be filled, with the invariant, the logical
memory and the holders as before, and memory holding the logical words of the block about to be dropped. -/
theorem makeRoom_keeps {a : Nat} {s : State} {p : Placed} (h : Inv s) (hn : holder s a = none)
    (hp : makeRoom a s = .next p) :
    Inv p.state ∧ FillSlot p.state a p.handle ∧ holder p.state a = none ∧ p.state.cfg = s.cfg ∧
    p.state.lines = s.lines ∧ (∀ b, logical p.state b = logical s b) ∧
    ((p.state.line p.handle.set p.handle.way).valid = true → ∀ b,
      inBlock p.state.cfg (lineBase p.state.cfg (p.state.line p.handle.set p.handle.way)) b →
        p.state.memWord b = logical p.state b) := by
  obtain ⟨hset, ⟨h1, h2⟩ | ⟨h1, h2, h3⟩⟩ := makeRoom_eq_next hp
  · rw [h2]
    refine ⟨h, ⟨hset, .inl h1⟩, hn, rfl, rfl, fun _ => rfl, fun hv => ?_⟩
    obtain ⟨hw, hv', -⟩ := invalidWay_eq_some.1 h1
    rw [line_eq_getElem hw, hv'] at hv
    cases hv
  · obtain ⟨e1, -, -, -⟩ := evict_eq_next h3
    have hc : p.state.cfg = s.cfg := by rw [e1]
    have hl : p.state.lines = s.lines := by rw [e1]
    obtain ⟨hw, hage⟩ := victimWay_eq_some h2
    have hv : (s.line p.handle.set p.handle.way).valid = true := invalidWay_eq_none.1 h1 _ (line_mem hw)
    refine ⟨h.evict h3, ⟨by rw [hc]; exact hset, .inr ⟨by rw [set_congr hl]; exact h1, by
        rw [set_congr hl]; exact hw, by rw [line_congr hl hc, hc, line_eq_getElem hw]; exact hage⟩⟩,
      (holder_congr hc (set_congr hl _)).trans hn, hc, hl, logical_evict h h3, fun _ b hb => ?_⟩
    rw [line_congr hl hc, hc] at hb
    rw [memWord_evict_of_inBlock h h3 hv hb, logical_evict h h3]

/-- Everything ACCESS of an accepted address does in a machine in order. -/
theorem access_keeps {op : AccessOp} {a : Int} {s : State} {r : Accessed} (h : Inv s)
    (hr : access op a s = .next r) :
    Inv r.state ∧ (∀ b, logical r.state b = logical s b) ∧
    (∀ b, blockStart s.cfg b = blockStart s.cfg a.toNat → holder r.state b = some r.handle) ∧
    (r.state.line r.handle.set r.handle.way).lruAge = 0 := by
  obtain ⟨hrd, ha, ⟨k, hk, rfl⟩ | ⟨hk, p, hp, rfl⟩⟩ := access_eq_next hr
  · obtain ⟨hset, hw, hv, htag⟩ := holder_eq_some hk
    have h' : Inv (countHit s) := h.congr rfl rfl rfl rfl
    have hw' : k.way < ((countHit s).set k.set).length := hw
    refine ⟨h'.touchLru hv, fun b => ?_, fun b hb => ?_, ?_⟩
    · exact (logical_touchLru hw' b).trans (logical_countHit b s)
    · show holder (touchLru k (countHit s)) b = some k
      rw [holder_touchLru hw', holder_countHit]
      obtain ⟨e1, e2⟩ := (blockStart_eq_iff s.cfg).1 hb
      refine h.cache.holder_iff.2 ⟨hv, (h.cache.inBlock_iff hv).2 ⟨?_, ?_⟩⟩
      · rw [e1, htag]
      · rw [e2, hset]
    · show ((touchLru k (countHit s)).line k.set k.way).lruAge = 0
      rw [line_touchLru hw']; simp
  · have h' : Inv (countMiss s) := h.congr rfl rfl rfl rfl
    obtain ⟨hI, hslot, hn, hc, hl, hlog, hdrop⟩ := makeRoom_keeps h' hk hp
    have hfit : blockStart p.state.cfg a.toNat + p.state.cfg.blockSize ≤ p.state.cfg.memWords := by
      rw [hc]; exact ha.2
    refine ⟨hI.fill hslot hn hfit, fun b => ?_, fun b hb => ?_, ?_⟩
    · exact (logical_fill hI hslot hn hfit hdrop b).trans (hlog b)
    · exact holder_fill hI hslot hn hfit (by rw [hc]; exact hb)
    · show ((fill a.toNat p.handle p.state).line p.handle.set p.handle.way).lruAge = 0
      rw [line_fill hslot.way_lt]; simp [filledLine]

/-- What INSTALL makes of the addressed set after a miss (R105, R106, R107): the slot it took and how the other lines
aged, and the copy of the block in the slot. -/
theorem slotTaken_fill {a : Nat} {s : State} {p : Placed} (h : Inv s) (hn : holder s a = none)
    (hp : makeRoom a s = .next p) :
    SlotTaken s (fill a p.handle p.state) p.handle ∧
    (fill a p.handle p.state).line p.handle.set p.handle.way =
      { valid := true, dirty := false, setIndex := setIndexOf s.cfg a, tag := tagOf s.cfg a, lruAge := 0,
        blockData := memRead s (blockStart s.cfg a) s.cfg.blockSize } := by
  obtain ⟨hI, hslot, -, hc, hl, -, -⟩ := makeRoom_keeps h hn hp
  have hline := fun v => line_fill (a := a) hslot.way_lt p.handle.set v
  have hi : p.handle.set < s.cfg.setCount := by rw [← hc, hslot.1]; exact setIndexOf_lt _ _
  have hwl := hslot.way_lt
  rw [set_congr hl] at hwl
  have hw : p.handle.way < s.cfg.associativity := by rw [← h.cache.length_set hi]; exact hwl
  have hage : (s.line p.handle.set p.handle.way).lruAge = s.cfg.associativity - 1 := by
    rw [← line_congr hl hc, hslot.age hI, hc]
  refine ⟨⟨hw, ?_, hage, fun w hne => ?_⟩, ?_⟩
  · rintro ⟨w, hw', hv⟩
    rcases (makeRoom_eq_next hp).2 with ⟨h1, -⟩ | ⟨h1, -⟩
    · obtain ⟨hlt, h2, h3⟩ := invalidWay_eq_some.1 h1
      exact ⟨by rw [line_eq_getElem hlt]; exact h2, fun j hj => by
        rw [line_eq_getElem (Nat.lt_trans hj hlt)]; exact h3 j hj⟩
    · rw [invalidWay_eq_none.1 h1 _ (line_mem (by rw [h.cache.length_set hi]; exact hw'))] at hv
      cases hv
  · rw [hline, if_pos rfl, if_neg hne, line_congr hl hc, line_congr hl hc, hage, Line.aged, ageBelow]
    by_cases hv : (s.line p.handle.set w).valid = true
    · have hlt := (h.cache.bounds_of_valid hv).2
      have hcount := h.cache.age_lt_count hv
      have hle : ((s.set p.handle.set).countP fun l => l.valid) ≤ s.cfg.associativity := by
        rw [← h.cache.length_set hi]; exact List.countP_le_length
      have : (s.line p.handle.set w).lruAge < s.cfg.associativity - 1 := by
        by_cases hd : (s.line p.handle.set p.handle.way).valid = true
        · have hne' : (s.line p.handle.set w).lruAge ≠ (s.line p.handle.set p.handle.way).lruAge := by
            have hpw := (pairwise_ways fun a b hab hb ha he => hab ha hb he.symm).1
              ((lruOrder_iff _).1 (h.cache.setOk hi).2.1).1
            have hwlt : w < (s.set p.handle.set).length := by rw [h.cache.length_set hi]; exact hlt
            have := hpw w p.handle.way hwlt hwl hne
            rw [← line_eq_getElem hwlt, ← line_eq_getElem hwl] at this
            exact this hv hd
          omega
        · have := countP_valid_lt_of_invalid (line_mem hwl) (Bool.eq_false_iff.2 hd)
          rw [h.cache.length_set hi] at this
          omega
      simp [hv, this]
    · simp [hv]
  · rw [hline, if_pos rfl, if_pos rfl, filledLine, hc]
    congr 1
    refine memRead_congr fun k hk => ?_
    rcases (makeRoom_eq_next hp).2 with ⟨-, h2⟩ | ⟨-, -, h2⟩
    · rw [h2]
    · rw [(evict_eq_next h2).2.2.1, if_neg]
      rintro ⟨hd, hb1, hb2⟩
      have hv := h.cache.valid_of_dirty hd
      have e1 := (h.cache.inBlock_iff hv).1 ⟨hb1, by have := (h.cache.validLineOk hv).2; omega⟩
      have e2 := tag_and_set_in_block s.cfg (t := tagOf s.cfg a) (setIndexOf_lt s.cfg a) hk
      rw [baseOf_tag_setIndex] at e2
      have hh : holder s a = some p.handle := h.cache.holder_iff.2 ⟨hv, (h.cache.inBlock_iff hv).2
        ⟨e2.1.symm.trans e1.1, e2.2.1.symm.trans e1.2⟩⟩
      rw [hn] at hh; cases hh

/-- The addressed set after ACCESS (R121): on a hit that of TOUCHLRU, on a miss that of INSTALL. -/
theorem access_lines {op : AccessOp} {a : Int} {s : State} {r : Accessed} (h : Inv s)
    (hr : access op a s = .next r) :
    (∀ k, holder s a.toNat = some k → r.handle = k ∧ r.state.lines = (touchLru k s).lines) ∧
    (holder s a.toNat = none → SlotTaken s r.state r.handle ∧
      r.state.line r.handle.set r.handle.way =
        { valid := true, dirty := false, setIndex := setIndexOf s.cfg a.toNat, tag := tagOf s.cfg a.toNat,
          lruAge := 0, blockData := memRead s (blockStart s.cfg a.toNat) s.cfg.blockSize }) := by
  obtain ⟨-, -, ⟨k, hk, rfl⟩ | ⟨hk, p, hp, rfl⟩⟩ := access_eq_next hr
  · refine ⟨fun k' hk' => ?_, fun hn => by rw [hk] at hn; cases hn⟩
    cases hk.symm.trans hk'
    exact ⟨rfl, rfl⟩
  · refine ⟨fun k' hk' => (by rw [hk] at hk'; cases hk'), fun _ => ?_⟩
    exact slotTaken_fill (s := countMiss s) (h.congr rfl rfl rfl rfl) hk hp

/-- ACCESS of an accepted address completes in a machine in order. -/
theorem access_completes {op : AccessOp} {a : Int} {s : State} (h : Inv s) (hr : s.ccState = .ready)
    (ha : addressOk s.cfg a) : ∃ r, access op a s = .next r := by
  cases hk : holder s a.toNat with
  | some k => exact ⟨_, access_of_hit hr ha hk⟩
  | none =>
    obtain ⟨p, hp⟩ := makeRoom_completes (a := a.toNat) (h.congr rfl rfl rfl rfl : Inv (countMiss s))
    exact ⟨accessMiss a.toNat p, by rw [access_of_miss hr ha hk, hp]; rfl⟩

/-- The only fault of ACCESS in a machine in order. -/
theorem access_eq_fault {op : AccessOp} {a : Int} {s : State} {f : Fault} (h : Inv s)
    (hf : access op a s = .fault f) : s.ccState = .ready ∧ ¬ addressOk s.cfg a ∧ f = .addressOutOfRange op a := by
  have hr : s.ccState = .ready := (whenReady_eq_fault.1 hf).1
  by_cases ha : addressOk s.cfg a
  · obtain ⟨r, hr'⟩ := access_completes (op := op) h hr ha
    rw [hr'] at hf; cases hf
  · rw [access_of_bad hr ha] at hf; cases hf; exact ⟨hr, ha, rfl⟩

/-- After ACCESS the word the line holds is the logical word. -/
theorem readWord_access {op : AccessOp} {a : Int} {s : State} {r : Accessed} (h : Inv s)
    (hr : access op a s = .next r) : readWord r.handle a.toNat r.state = logical s a.toNat := by
  obtain ⟨-, hlog, hhold, -⟩ := access_keeps h hr
  have := hhold a.toNat rfl
  rw [← hlog, logical, this]

/-! ## The commands -/

/-- The reply of a read. -/
def readReply (a : Nat) (r : Accessed) : Reply :=
  ⟨respondRead (readWord r.handle a r.state) r.hit (emit a 1 .c2p r.state), readWord r.handle a r.state⟩

theorem ccRead_eq (op : AccessOp) (a : Int) (s : State) :
    ccRead op a s = andThen (access op a s) fun r => .next (readReply a.toNat r) := rfl

theorem ccRead_eq_next {op : AccessOp} {a : Int} {s : State} {y : Reply} :
    ccRead op a s = .next y ↔ ∃ r, access op a s = .next r ∧ y = readReply a.toNat r := by
  rw [ccRead_eq, andThen_eq_next]
  simp [eq_comm]

/-- The state after a store. -/
def storedState (a : Nat) (v : Word) (r : Accessed) : State :=
  respondStore r.hit (markDirty r.handle (writeWord r.handle a v (emit a 1 .p2c r.state)))

theorem ccStore_eq (a : Int) (v : Word) (s : State) :
    ccStore a v s = andThen (access .store a s) fun r => .next (storedState a.toNat v r) := rfl

theorem ccStore_eq_next {a : Int} {v : Word} {s t : State} :
    ccStore a v s = .next t ↔ ∃ r, access .store a s = .next r ∧ t = storedState a.toNat v r := by
  rw [ccStore_eq, andThen_eq_next]
  simp [eq_comm]

/-- The state after FLUSH, from the state after FLUSHALL. -/
def flushedState (t : State) : State := respondFlush { emitReport t with ccState := .halted }

theorem ccFlush_eq_next {s t : State} :
    ccFlush s = .next t ↔ s.ccState = .ready ∧ ∃ u, flushAll s = .next u ∧ t = flushedState u := by
  rw [ccFlush, whenReady_eq_next, andThen_eq_next]
  constructor
  · rintro ⟨h, u, hu, ht⟩; cases ht; exact ⟨h, u, hu, rfl⟩
  · rintro ⟨h, u, hu, rfl⟩; exact ⟨h, u, hu, rfl⟩

/-- Everything a read does in a machine in order. -/
theorem ccRead_keeps {op : AccessOp} {a : Int} {s : State} {y : Reply} (h : Inv s) (hy : ccRead op a s = .next y) :
    Inv y.state ∧ y.rdata = logical s a.toNat ∧ ∀ b, logical y.state b = logical s b := by
  obtain ⟨r, hr, rfl⟩ := ccRead_eq_next.1 hy
  obtain ⟨h1, h2, -, -⟩ := access_keeps h hr
  exact ⟨h1.congr rfl rfl rfl rfl, readWord_access h hr, h2⟩

/-- Everything a store does to the invariant and the logical memory. -/
theorem ccStore_keeps {a : Int} {v : Word} {s t : State} (h : Inv s) (ht : ccStore a v s = .next t) :
    Inv t ∧ ∀ b, logical t b = if b = a.toNat then v else logical s b := by
  obtain ⟨r, hr, rfl⟩ := ccStore_eq_next.1 ht
  obtain ⟨h1, h2, h3, -⟩ := access_keeps h hr
  have h1' : Inv (emit a.toNat 1 .p2c r.state) := h1.congr rfl rfl rfl rfl
  have hk : holder (emit a.toNat 1 .p2c r.state) a.toNat = some r.handle := h3 a.toNat rfl
  obtain ⟨-, -, hv, -⟩ := holder_eq_some hk
  refine ⟨(h1'.store hv).congr rfl rfl rfl rfl, fun b => ?_⟩
  have := logical_store (v := v) h1' hk b
  rw [← h2]
  exact this

/-- What FLUSH leaves of the state. -/
theorem ccFlush_frame {s t : State} (ht : ccFlush s = .next t) :
    t.cfg = s.cfg ∧ t.lines = s.lines ∧ t.hitCount = s.hitCount ∧ t.missCount = s.missCount ∧ t.pc = s.pc ∧
      t.x = s.x ∧ t.requester = s.requester ∧ t.rst = s.rst ∧ t.ccState = .halted ∧
      t.report = some ⟨s.hitCount, s.missCount⟩ ∧ t.events = s.events ++ flushEvents s := by
  obtain ⟨-, u, hu, rfl⟩ := ccFlush_eq_next.1 ht
  obtain ⟨h1, h2, -⟩ := flushHandles_frame _ hu
  have e : ∀ {α : Type} (f : State → α), f u = f { s with mem := u.mem, events := u.events } := fun f => by
    rw [← h1]
  refine ⟨e State.cfg, e State.lines, e State.hitCount, e State.missCount, e State.pc, e State.x, e State.requester,
    e State.rst, rfl, ?_, ?_⟩
  · show some (Report.mk u.hitCount u.missCount) = _
    rw [e State.hitCount, e State.missCount]
  · show u.events = _
    rw [h2]; rfl

/-- FLUSH completes in a machine in order and READY, keeps it in order, and leaves the logical memory alone. -/
theorem ccFlush_completes {s : State} (h : Inv s) (hr : s.ccState = .ready) : ∃ t, ccFlush s = .next t := by
  obtain ⟨u, hu⟩ := flushHandles_completes (allHandles s.cfg) h
  exact ⟨_, ccFlush_eq_next.2 ⟨hr, u, hu, rfl⟩⟩

end Sys2Proof.Machine
end

