-- ==== Sys2Proof/Laws/Word.lean ====
section
/-! SUPPORT. The operations on words as arithmetic modulo `2^XLEN` (43_requester.md R151). -/

namespace Sys2Proof.Machine

theorem wrap_eq_mod (xlen v : Nat) : wrap xlen v = v % 2 ^ xlen := BitVec.toNat_ofNat v xlen

theorem wrap_lt (xlen v : Nat) : wrap xlen v < 2 ^ xlen := (bitsOf xlen v).isLt

theorem wrapInt_lt (xlen : Nat) (i : Int) : wrapInt xlen i < 2 ^ xlen := (BitVec.ofInt xlen i).isLt

theorem wrapInt_eq_emod (xlen : Nat) (i : Int) : (wrapInt xlen i : Int) = i % 2 ^ xlen := by
  rw [wrapInt, BitVec.toNat_ofInt, Int.toNat_of_nonneg (Int.emod_nonneg _ (by positivity))]
  push_cast
  rfl

/-- The increment of the pc. -/
theorem advancePc_eq (s : State) : advancePc s = { s with pc := (s.pc + 1) % 2 ^ s.cfg.xlen } := by
  rw [advancePc, wrap_eq_mod]

/-- The branch target from the incremented pc, as an integer modulo `2^XLEN`. -/
theorem branchTarget_eq_emod (s : State) (f2 : BitVec 16) :
    (branchTarget s.cfg.xlen (advancePc s).pc f2 : Int) = ((s.pc : Int) + 1 + f2.toInt) % 2 ^ s.cfg.xlen := by
  rw [branchTarget, wrapInt_eq_emod, advancePc_eq]
  push_cast
  rw [immediate, Int.emod_add_emod]

end Sys2Proof.Machine
end

