-- ==== Sys2Proof/Laws/Requester.lean ====
section
/-! SUPPORT. What the decoder, the registers and the checks of the requester's instructions can answer. -/

namespace Sys2Proof

theorem checkRegisters_of_namesRegisters {n : Nat} {i : Instr} (h : i.namesRegisters n = true) :
    checkRegisters n i = .ok i := by
  rw [Instr.namesRegisters, Bool.and_eq_true] at h
  simp [checkRegisters, h.1, h.2]

theorem checkRegisters_eq_ok {n : Nat} {i j : Instr} :
    checkRegisters n i = .ok j ↔ i.namesRegisters n = true ∧ j = i := by
  cases h1 : i.fieldsAreRegisters n <;> cases h2 : i.destinationIsRegister n <;>
    simp [checkRegisters, Instr.namesRegisters, h1, h2, eq_comm]

theorem checkRegisters_of_names_no_register {n : Nat} {i : Instr} (h : i.namesRegisters n = false) :
    ∃ why, checkRegisters n i = .error why := by
  cases hc : checkRegisters n i with
  | error why => exact ⟨why, rfl⟩
  | ok j => rw [(checkRegisters_eq_ok.1 hc).1] at h; cases h

/-- Under a bijection `OPC` the opcode value of an opcode decodes to it. -/
theorem decodeOpcode_encodeOpcode {m : OpcodeMap} (h : m.wf) (o : Opcode) :
    decodeOpcode m (encodeOpcode m o) = some o := by
  simp only [OpcodeMap.wf, OpcodeMap.values, List.nodup_cons, List.mem_cons, List.not_mem_nil, not_or] at h
  obtain ⟨⟨a1, a2, a3, a4, a5, a6, a7, -⟩, ⟨b2, b3, b4, b5, b6, b7, -⟩, ⟨c3, c4, c5, c6, c7, -⟩, ⟨d4, d5, d6, d7, -⟩,
    ⟨e5, e6, e7, -⟩, ⟨f6, f7, -⟩, ⟨g7, -⟩, -⟩ := h
  cases o <;> simp [encodeOpcode, decodeOpcode, *, Ne.symm a1, Ne.symm a2, Ne.symm a3, Ne.symm a4, Ne.symm a5,
    Ne.symm a6, Ne.symm a7, Ne.symm b2, Ne.symm b3, Ne.symm b4, Ne.symm b5, Ne.symm b6, Ne.symm b7, Ne.symm c3,
    Ne.symm c4, Ne.symm c5, Ne.symm c6, Ne.symm c7, Ne.symm d4, Ne.symm d5, Ne.symm d6, Ne.symm d7, Ne.symm e5,
    Ne.symm e6, Ne.symm e7, Ne.symm f6, Ne.symm f7, Ne.symm g7]

/-- A word with clear high bits whose opcode field selects `o`. -/
theorem decodeWord_of_opcode {m : OpcodeMap} {n : Nat} {w : Word} {o : Opcode} (hh : highBits w = 0)
    (ho : decodeOpcode m (opcodeField w) = some o) :
    decodeWord m n w = checkRegisters n (assemble o w) := by
  simp [decodeWord, hh, ho]

end Sys2Proof

namespace Sys2Proof.Machine

/-! ## Registers -/

theorem reg_putReg (s : State) (n m : Nat) (v : Word) :
    (s.putReg n v).reg m = if n = m ∧ n < s.x.length then v else s.reg m := by
  simp only [State.reg, State.putReg, List.getD_eq_getElem?_getD, List.getElem?_set]
  by_cases h : n = m
  · subst h
    by_cases hn : n < s.x.length
    · simp [hn]
    · simp [hn]
  · simp [h]

theorem reg_putReg_same {s : State} {n : Nat} {v : Word} (h : n < s.x.length) : (s.putReg n v).reg n = v := by
  rw [reg_putReg, if_pos ⟨rfl, h⟩]

theorem reg_putReg_ne {s : State} {n m : Nat} {v : Word} (h : m ≠ n) : (s.putReg n v).reg m = s.reg m := by
  rw [reg_putReg, if_neg fun h' => h h'.1.symm]

theorem reg_congr {s t : State} (h : t.x = s.x) (n : Nat) : t.reg n = s.reg n := by
  rw [State.reg, State.reg, h]

/-! ## Checks -/

theorem asRequester_of_ok {i : Instr} {s : State} {k : Host.Outcome State Fault Refusal} (hr : s.ccState = .ready)
    (hw : i.namesRegisters s.cfg.numRegs = true) : asRequester i s k = k := by
  rw [asRequester, whenReady_of_ready hr, checkRegisters_of_namesRegisters hw]

theorem asRequester_of_not_ready {i : Instr} {s : State} {k : Host.Outcome State Fault Refusal}
    (hr : s.ccState ≠ .ready) : asRequester i s k = .refused (.notReady s.ccState) := by
  rw [asRequester, whenReady_of_not_ready hr]

theorem asRequester_of_ill_formed {i : Instr} {s : State} {k : Host.Outcome State Fault Refusal}
    (hr : s.ccState = .ready) (hw : i.namesRegisters s.cfg.numRegs = false) :
    ∃ why, asRequester i s k = .refused (.reservedEncoding why) := by
  obtain ⟨why, h⟩ := checkRegisters_of_names_no_register hw
  exact ⟨why, by rw [asRequester, whenReady_of_ready hr, h]⟩

theorem asRequester_eq_next {i : Instr} {s t : State} {k : Host.Outcome State Fault Refusal} :
    asRequester i s k = .next t ↔
      s.ccState = .ready ∧ i.namesRegisters s.cfg.numRegs = true ∧ k = .next t := by
  rw [asRequester, whenReady_eq_next]
  cases hw : i.namesRegisters s.cfg.numRegs with
  | true => rw [checkRegisters_of_namesRegisters hw]; simp
  | false => obtain ⟨why, h⟩ := checkRegisters_of_names_no_register hw; rw [h]; simp

theorem asRequester_eq_fault {i : Instr} {s : State} {f : Fault} {k : Host.Outcome State Fault Refusal} :
    asRequester i s k = .fault f ↔
      s.ccState = .ready ∧ i.namesRegisters s.cfg.numRegs = true ∧ k = .fault f := by
  rw [asRequester, whenReady_eq_fault]
  cases hw : i.namesRegisters s.cfg.numRegs with
  | true => rw [checkRegisters_of_namesRegisters hw]; simp
  | false => obtain ⟨why, h⟩ := checkRegisters_of_names_no_register hw; rw [h]; simp

/-- The destination of a well-formed ADD or NAND is a register. -/
theorem destination_lt {n : Nat} {i : Instr} {f2 : BitVec 16} (hw : i.namesRegisters n = true)
    (hd : i.destinationField = some f2) : f2.toInt.toNat < n := by
  rw [Instr.namesRegisters, Bool.and_eq_true] at hw
  have := hw.2
  rw [Instr.destinationIsRegister, hd] at this
  have := of_decide_eq_true this
  omega

/-- The register fields of a well-formed instruction are registers. -/
theorem field_lt {n : Nat} {i : Instr} {f : BitVec 3} (hw : i.namesRegisters n = true) (hf : f ∈ i.registerFields) :
    f.toNat < n := by
  rw [Instr.namesRegisters, Bool.and_eq_true] at hw
  exact of_decide_eq_true (List.all_eq_true.1 hw.1 f hf)

/-! ## The pc -/

theorem Inv.advancePc {s : State} (h : Inv s) : Inv (advancePc s) := h.congr rfl rfl rfl rfl

theorem advancePc_ready {s : State} (h : s.ccState = .ready) : (advancePc s).ccState = .ready := h

end Sys2Proof.Machine
end

