-- ==== Sys2Proof/Laws/Exec.lean ====
section
/-! SUPPORT. What each instruction, the fetch and the step can answer: their inversions. -/

namespace Sys2Proof.Machine

/-! ## Where ACCESS stops -/

theorem makeRoom_ne_refused {a : Nat} {s : State} {r : Refusal} : makeRoom a s ≠ .refused r := by
  intro h
  unfold makeRoom at h
  split at h
  · cases h
  · split at h
    · rename_i w _
      rcases andThen_eq_refused.1 h with h | ⟨_, _, h⟩
      · rcases andThen_eq_refused.1 h with h | ⟨_, _, h⟩
        · rcases writeBackIfDirty_cases ⟨setIndexOf s.cfg a, w⟩ s with ⟨t, ht⟩ | ⟨-, -, ht⟩ <;>
            rw [ht] at h <;> cases h
        · cases h
      · cases h
    · cases h

theorem makeRoom_ne_addressOutOfRange {a : Nat} {s : State} {op : AccessOp} {b : Int} :
    makeRoom a s ≠ .fault (.addressOutOfRange op b) := by
  intro h
  unfold makeRoom at h
  split at h
  · cases h
  · split at h
    · rename_i w _
      rcases andThen_eq_fault.1 h with h | ⟨_, _, h⟩
      · rcases andThen_eq_fault.1 h with h | ⟨_, _, h⟩
        · rcases writeBackIfDirty_cases ⟨setIndexOf s.cfg a, w⟩ s with ⟨t, ht⟩ | ⟨-, -, ht⟩ <;>
            rw [ht] at h <;> cases h
        · cases h
      · cases h
    · cases h

theorem access_eq_refused {op : AccessOp} {a : Int} {s : State} {r : Refusal} :
    access op a s = .refused r ↔ s.ccState ≠ .ready ∧ r = .notReady s.ccState := by
  constructor
  · intro h
    by_cases hr : s.ccState = .ready
    · exfalso
      by_cases ha : addressOk s.cfg a
      · cases hk : holder s a.toNat with
        | some k => rw [access_of_hit hr ha hk] at h; cases h
        | none =>
          rw [access_of_miss hr ha hk] at h
          rcases andThen_eq_refused.1 h with h | ⟨_, _, h⟩
          · exact makeRoom_ne_refused h
          · cases h
      · rw [access_of_bad hr ha] at h; cases h
    · rw [access_of_not_ready hr] at h; cases h; exact ⟨hr, rfl⟩
  · rintro ⟨hr, rfl⟩; exact access_of_not_ready hr

theorem access_eq_addressOutOfRange {op : AccessOp} {a b : Int} {s : State} :
    access op a s = .fault (.addressOutOfRange op b) ↔
      s.ccState = .ready ∧ ¬ addressOk s.cfg a ∧ b = a := by
  constructor
  · intro h
    have hr : s.ccState = .ready := (whenReady_eq_fault.1 h).1
    by_cases ha : addressOk s.cfg a
    · exfalso
      cases hk : holder s a.toNat with
      | some k => rw [access_of_hit hr ha hk] at h; cases h
      | none =>
        rw [access_of_miss hr ha hk] at h
        rcases andThen_eq_fault.1 h with h | ⟨_, _, h⟩
        · exact makeRoom_ne_addressOutOfRange h
        · cases h
    · rw [access_of_bad hr ha] at h; cases h; exact ⟨hr, ha, rfl⟩
  · rintro ⟨hr, ha, rfl⟩; exact access_of_bad hr ha

/-! ## The commands -/

theorem exec_ifetch_eq_next {s t : State} {a : Word} : exec (.ifetch a) s = .next t ↔
    ∃ r, access .ifetch (a : Int) s = .next r ∧ t = (readReply a r).state := by
  show andThen _ _ = _ ↔ _
  rw [andThen_eq_next]
  constructor
  · rintro ⟨y, hy, h⟩
    obtain ⟨r, hr, rfl⟩ := ccRead_eq_next.1 hy
    exact ⟨r, hr, by cases h; rfl⟩
  · rintro ⟨r, hr, rfl⟩
    exact ⟨_, ccRead_eq_next.2 ⟨r, hr, rfl⟩, rfl⟩

theorem exec_load_eq_next {s t : State} {a : Word} : exec (.load a) s = .next t ↔
    ∃ r, access .load (a : Int) s = .next r ∧ t = (readReply a r).state := by
  show andThen _ _ = _ ↔ _
  rw [andThen_eq_next]
  constructor
  · rintro ⟨y, hy, h⟩
    obtain ⟨r, hr, rfl⟩ := ccRead_eq_next.1 hy
    exact ⟨r, hr, by cases h; rfl⟩
  · rintro ⟨r, hr, rfl⟩
    exact ⟨_, ccRead_eq_next.2 ⟨r, hr, rfl⟩, rfl⟩

theorem exec_store_eq_next {s t : State} {a v : Word} : exec (.store a v) s = .next t ↔
    ∃ r, access .store (a : Int) s = .next r ∧ t = storedState a v r := ccStore_eq_next

theorem exec_ifetch_eq_fault {s : State} {a : Word} {f : Fault} :
    exec (.ifetch a) s = .fault f ↔ access .ifetch (a : Int) s = .fault f := by
  show andThen (andThen _ _) _ = _ ↔ _
  simp [andThen_eq_fault]

theorem exec_load_eq_fault {s : State} {a : Word} {f : Fault} :
    exec (.load a) s = .fault f ↔ access .load (a : Int) s = .fault f := by
  show andThen (andThen _ _) _ = _ ↔ _
  simp [andThen_eq_fault]

theorem exec_store_eq_fault {s : State} {a v : Word} {f : Fault} :
    exec (.store a v) s = .fault f ↔ access .store (a : Int) s = .fault f := by
  show andThen _ _ = _ ↔ _
  simp [andThen_eq_fault]

theorem exec_ifetch_eq_refused {s : State} {a : Word} {r : Refusal} :
    exec (.ifetch a) s = .refused r ↔ s.ccState ≠ .ready ∧ r = .notReady s.ccState := by
  show andThen (andThen _ _) _ = _ ↔ _
  simp [andThen_eq_refused, access_eq_refused]

theorem exec_load_eq_refused {s : State} {a : Word} {r : Refusal} :
    exec (.load a) s = .refused r ↔ s.ccState ≠ .ready ∧ r = .notReady s.ccState := by
  show andThen (andThen _ _) _ = _ ↔ _
  simp [andThen_eq_refused, access_eq_refused]

theorem exec_store_eq_refused {s : State} {a v : Word} {r : Refusal} :
    exec (.store a v) s = .refused r ↔ s.ccState ≠ .ready ∧ r = .notReady s.ccState := by
  show andThen _ _ = _ ↔ _
  simp [andThen_eq_refused, access_eq_refused]

/-- FLUSH takes no fault in a machine in order. -/
theorem ccFlush_ne_fault {s : State} {f : Fault} (h : Inv s) : ccFlush s ≠ .fault f := by
  intro hf
  obtain ⟨hr, -⟩ := whenReady_eq_fault.1 hf
  obtain ⟨t, ht⟩ := ccFlush_completes h hr
  rw [ht] at hf; cases hf

/-! ## FLUSHALL in a machine in order -/

/-- Flushing some handles keeps the machine in order and the logical memory as it was, and brings memory up to
date on the blocks of those of them that are dirty. -/
theorem flushHandles_keeps : ∀ (hs : List Handle) {s t : State}, Inv s → flushHandles hs s = .next t →
    Inv t ∧ (∀ b, logical t b = logical s b) ∧
      ∀ k ∈ hs, (s.line k.set k.way).dirty = true → ∀ b,
        inBlock s.cfg (lineBase s.cfg (s.line k.set k.way)) b → t.memWord b = logical s b := by
  intro hs
  induction hs with
  | nil => intro s t h ht; cases ht; exact ⟨h, fun _ => rfl, fun _ h => by cases h⟩
  | cons k hs ih =>
    intro s t h ht
    obtain ⟨u, hu, ht'⟩ := andThen_eq_next.1 ht
    obtain ⟨u1, u2, u3, u4⟩ := writeBackIfDirty_eq_next hu
    have hInv : Inv u := h.of_mem u1 (u4 h.mem) fun i w hv hd b hb => by
      rw [u3, if_neg]
      rintro ⟨hkd, hb1, hb2⟩
      obtain ⟨rfl, rfl⟩ := h.cache.same_line hv (h.cache.valid_of_dirty hkd) hb ⟨hb1, by omega⟩
      rw [hd] at hkd; cases hkd
    obtain ⟨i1, i2, i3⟩ := ih hInv ht'
    have hl : u.lines = s.lines := by rw [u1]
    have hc : u.cfg = s.cfg := by rw [u1]
    have hlog : ∀ b, logical u b = logical s b := by
      intro b
      have hh : holder u b = holder s b := holder_congr hc (set_congr hl _)
      cases hb : holder s b with
      | some k' => rw [logical, logical, hh, hb]; simp only [readWord, line_congr hl hc, hc]
      | none =>
        rw [logical_of_holder_none hb, logical_of_holder_none (hh.trans hb), u3, if_neg]
        rintro ⟨hkd, hb1, hb2⟩
        exact h.cache.holder_none_iff.1 hb _ _ (h.cache.valid_of_dirty hkd) ⟨hb1, by omega⟩
    have later : ∀ k' ∈ hs, (s.line k'.set k'.way).dirty = true → ∀ b,
        inBlock s.cfg (lineBase s.cfg (s.line k'.set k'.way)) b → t.memWord b = logical s b := by
      intro k' hk' hd b hb
      rw [← line_congr hl hc] at hd
      rw [← hlog]
      exact i3 k' hk' hd b (by rw [line_congr hl hc, hc]; exact hb)
    refine ⟨i1, fun b => (i2 b).trans (hlog b), fun k' hk' hd b hb => ?_⟩
    rcases List.mem_cons.1 hk' with rfl | hk'
    · by_cases hin : k' ∈ hs
      · exact later k' hin hd b hb
      · have hv := h.cache.valid_of_dirty hd
        rw [flushHandles_memWord_of_outside hs ht', u3, if_pos, h.cache.logical_of_inBlock hv hb]
        · exact ⟨hd, hb.1, by rw [(h.cache.validLineOk hv).2, Nat.min_self]; exact hb.2⟩
        · intro k2 hk2 hd2 hb2
          rw [line_congr hl hc] at hd2
          rw [line_congr hl hc, hc] at hb2
          obtain ⟨e1, e2⟩ := h.cache.same_line hv (h.cache.valid_of_dirty hd2) hb hb2
          have : k' = k2 := by cases k'; cases k2; dsimp only at e1 e2; rw [e1, e2]
          exact hin (this ▸ hk2)
    · exact later k' hk' hd b hb

/-- FLUSH keeps the machine in order and the logical memory as it was. -/
theorem ccFlush_keeps {s t : State} (h : Inv s) (ht : ccFlush s = .next t) :
    Inv t ∧ ∀ b, logical t b = logical s b := by
  obtain ⟨-, u, hu, rfl⟩ := ccFlush_eq_next.1 ht
  obtain ⟨h1, h2, -⟩ := flushHandles_keeps _ h hu
  exact ⟨h1.congr rfl rfl rfl rfl, h2⟩

/-! ## The instructions of the requester -/

theorem exec_add_eq_next {s t : State} {f0 f1 : BitVec 3} {f2 : BitVec 16} : exec (.add f0 f1 f2) s = .next t ↔
    s.ccState = .ready ∧ (Instr.add f0 f1 f2).namesRegisters s.cfg.numRegs = true ∧
      putDestination (advancePc s) f2 (sumWord s.cfg.xlen (fieldReg s f0) (fieldReg s f1)) = t := by
  show asRequester _ _ _ = _ ↔ _
  rw [asRequester_eq_next]; simp

theorem exec_nand_eq_next {s t : State} {f0 f1 : BitVec 3} {f2 : BitVec 16} : exec (.nand f0 f1 f2) s = .next t ↔
    s.ccState = .ready ∧ (Instr.nand f0 f1 f2).namesRegisters s.cfg.numRegs = true ∧
      putDestination (advancePc s) f2 (nandWord s.cfg.xlen (fieldReg s f0) (fieldReg s f1)) = t := by
  show asRequester _ _ _ = _ ↔ _
  rw [asRequester_eq_next]; simp

theorem exec_lw_eq_next {s t : State} {f0 f1 : BitVec 3} {f2 : BitVec 16} : exec (.lw f0 f1 f2) s = .next t ↔
    s.ccState = .ready ∧ (Instr.lw f0 f1 f2).namesRegisters s.cfg.numRegs = true ∧
      ∃ y, ccRead .load (effectiveAddress s.cfg.xlen (fieldReg s f1) f2) (advancePc s) = .next y ∧
        putFieldReg y.state f0 y.rdata = t := by
  show asRequester _ _ _ = _ ↔ _
  rw [asRequester_eq_next, andThen_eq_next]; simp

theorem exec_sw_eq_next {s t : State} {f0 f1 : BitVec 3} {f2 : BitVec 16} : exec (.sw f0 f1 f2) s = .next t ↔
    s.ccState = .ready ∧ (Instr.sw f0 f1 f2).namesRegisters s.cfg.numRegs = true ∧
      ccStore (effectiveAddress s.cfg.xlen (fieldReg s f1) f2) (fieldReg s f0) (advancePc s) = .next t := by
  show asRequester _ _ _ = _ ↔ _
  rw [asRequester_eq_next]

theorem exec_beq_eq_next {s t : State} {f0 f1 : BitVec 3} {f2 : BitVec 16} : exec (.beq f0 f1 f2) s = .next t ↔
    s.ccState = .ready ∧ (Instr.beq f0 f1 f2).namesRegisters s.cfg.numRegs = true ∧
      (if fieldReg s f0 = fieldReg s f1 then { advancePc s with pc := branchTarget s.cfg.xlen (advancePc s).pc f2 }
        else advancePc s) = t := by
  show asRequester _ _ _ = _ ↔ _
  rw [asRequester_eq_next]; simp

theorem exec_jalr_eq_next {s t : State} {f0 f1 : BitVec 3} : exec (.jalr f0 f1) s = .next t ↔
    s.ccState = .ready ∧ (Instr.jalr f0 f1).namesRegisters s.cfg.numRegs = true ∧
      { linked f0 s with pc := fieldReg (linked f0 s) f1 } = t := by
  show asRequester _ _ _ = _ ↔ _
  rw [asRequester_eq_next]; simp

theorem exec_noop_eq_next {s t : State} : exec .noop s = .next t ↔ s.ccState = .ready ∧ advancePc s = t := by
  rw [show exec .noop s = execNoop s from rfl, execNoop, asRequester_eq_next]
  simp [Instr.namesRegisters, Instr.fieldsAreRegisters, Instr.registerFields, Instr.destinationIsRegister,
    Instr.destinationField]

theorem exec_halt_eq {s : State} : exec .halt s = ccFlush s := by
  rw [show exec .halt s = execHalt s from rfl, execHalt]
  by_cases hr : s.ccState = .ready
  · exact asRequester_of_ok hr rfl
  · rw [asRequester_of_not_ready hr, ccFlush, whenReady_of_not_ready hr]

/-- Every instruction executes in READY only. -/
theorem exec_eq_next_ready {i : Instr} {s t : State} (h : exec i s = .next t) : s.ccState = .ready := by
  cases i
  case ifetch => obtain ⟨r, hr, -⟩ := exec_ifetch_eq_next.1 h; exact (access_eq_next hr).1
  case load => obtain ⟨r, hr, -⟩ := exec_load_eq_next.1 h; exact (access_eq_next hr).1
  case store => obtain ⟨r, hr, -⟩ := exec_store_eq_next.1 h; exact (access_eq_next hr).1
  case flush => exact (ccFlush_eq_next.1 h).1
  case add => exact (exec_add_eq_next.1 h).1
  case nand => exact (exec_nand_eq_next.1 h).1
  case lw => exact (exec_lw_eq_next.1 h).1
  case sw => exact (exec_sw_eq_next.1 h).1
  case beq => exact (exec_beq_eq_next.1 h).1
  case jalr => exact (exec_jalr_eq_next.1 h).1
  case halt => exact (ccFlush_eq_next.1 (exec_halt_eq ▸ h)).1
  case noop => exact (exec_noop_eq_next.1 h).1

/-! ## The fetch and the step -/

theorem fetchEngine_eq_next {s : State} {f : Fetched} : fetchEngine s = .next f ↔
    ∃ y, ccRead .ifetch s.pc s = .next y ∧
      decodeWord s.cfg.opc s.cfg.numRegs y.rdata = .ok f.instr ∧ f.state = y.state := by
  rw [fetchEngine, andThen_eq_next]
  constructor
  · rintro ⟨y, hy, h⟩
    refine ⟨y, hy, ?_⟩
    split at h
    · rename_i i hi
      cases h
      exact ⟨hi, rfl⟩
    · cases h
  · rintro ⟨y, hy, h1, h2⟩
    refine ⟨y, hy, ?_⟩
    simp only [decode, h1]
    cases f
    simp_all

theorem fetchNext_eq_next {s : State} {f : Fetched} : fetchNext s = .next f ↔
    (s.requester = .engine ∧ ∃ y, ccRead .ifetch s.pc s = .next y ∧
      decodeWord s.cfg.opc s.cfg.numRegs y.rdata = .ok f.instr ∧ f.state = y.state) ∨
    (∃ c rest, s.requester = .port (c :: rest) ∧ f.instr = decodeCommand s.cfg.xlen c ∧
      f.state = { s with requester := .port rest }) := by
  cases hq : s.requester with
  | engine => simp [fetchNext, hq, fetchEngine_eq_next]
  | port offered =>
    cases offered with
    | nil => simp [fetchNext, hq, fetchPort]
    | cons c rest =>
      cases f
      simp [fetchNext, hq, fetchPort, decode, eq_comm]

theorem step_of_running {s : State} (h : s.rst = false) :
    step s = andThen (fetchNext s) fun f => exec f.instr f.state := by
  simp [step, h]

theorem step_of_reset {s : State} (h : s.rst = true) : step s = .next (applyReset s) := by
  simp [step, h]

/-- Everything a step can do where it answers. -/
theorem step_eq_next {s t : State} : step s = .next t ↔
    (s.rst = true ∧ t = applyReset s) ∨
    (s.rst = false ∧ ∃ f, fetchNext s = .next f ∧ exec f.instr f.state = .next t) := by
  cases h : s.rst with
  | true => simp [step_of_reset h, eq_comm]
  | false => simp [step_of_running h, andThen_eq_next]

end Sys2Proof.Machine
end

