-- ==== Sys2Proof/Laws/PerInstr.lean ====
section
/-! SUPPORT. For every instruction: the fields the encoder writes are the fields the decoder reads. -/

namespace Sys2Proof

variable (opcode f0 f1 : BitVec 3) (f2 : BitVec 16) (xlen : Nat) (op : BitVec 2) (a d : Word)

/-! ## The fields of a packed word -/

theorem encodedBits_packWord : encodedBits (packWord opcode f0 f1 f2) = opcode ++ f0 ++ f1 ++ f2 := by
  rw [encodedBits, packWord, BitVec.ofNat_toNat, BitVec.setWidth_eq]

theorem highBits_packWord : highBits (packWord opcode f0 f1 f2) = 0 := by
  rw [highBits, packWord, Nat.shiftRight_eq_div_pow]
  exact Nat.div_eq_of_lt (opcode ++ f0 ++ f1 ++ f2).isLt

theorem opcodeField_packWord : opcodeField (packWord opcode f0 f1 f2) = opcode := by
  rw [opcodeField, encodedBits_packWord]
  ext i hi
  simp only [BitVec.getElem_extractLsb', BitVec.getLsbD_append]
  rw [if_neg (by omega), if_neg (by omega), if_neg (by omega), show 22 + i - 16 - 3 - 3 = i by omega,
    BitVec.getLsbD_eq_getElem hi]

theorem field0Of_packWord : field0Of (packWord opcode f0 f1 f2) = f0 := by
  rw [field0Of, encodedBits_packWord]
  ext i hi
  simp only [BitVec.getElem_extractLsb', BitVec.getLsbD_append]
  rw [if_neg (by omega), if_neg (by omega), if_pos (by omega), show 19 + i - 16 - 3 = i by omega,
    BitVec.getLsbD_eq_getElem hi]

theorem field1Of_packWord : field1Of (packWord opcode f0 f1 f2) = f1 := by
  rw [field1Of, encodedBits_packWord]
  ext i hi
  simp only [BitVec.getElem_extractLsb', BitVec.getLsbD_append]
  rw [if_neg (by omega), if_pos (by omega), show 16 + i - 16 = i by omega, BitVec.getLsbD_eq_getElem hi]

theorem field2Of_packWord : field2Of (packWord opcode f0 f1 f2) = f2 := by
  rw [field2Of, encodedBits_packWord]
  ext i hi
  simp only [BitVec.getElem_extractLsb', BitVec.getLsbD_append]
  rw [if_pos (by omega), show 0 + i = i by omega, BitVec.getLsbD_eq_getElem hi]

/-! ## The fields of a packed command -/

theorem commandBits_packCommand :
    commandBits xlen (packCommand xlen op a d) = op ++ bitsOf xlen a ++ bitsOf xlen d := by
  rw [commandBits, packCommand, BitVec.ofNat_toNat, BitVec.setWidth_eq]

theorem commandOp_packCommand : commandOp xlen (packCommand xlen op a d) = op := by
  rw [commandOp, commandBits_packCommand]
  ext i hi
  simp only [BitVec.getElem_extractLsb', BitVec.getLsbD_append]
  rw [if_neg (by omega), if_neg (by omega), show xlen + xlen + i - xlen - xlen = i by omega,
    BitVec.getLsbD_eq_getElem hi]

variable {xlen a d}

theorem commandAddr_packCommand (ha : a < 2 ^ xlen) : commandAddr xlen (packCommand xlen op a d) = a := by
  have : (op ++ bitsOf xlen a ++ bitsOf xlen d).extractLsb' xlen xlen = bitsOf xlen a := by
    ext i hi
    simp only [BitVec.getElem_extractLsb', BitVec.getLsbD_append]
    rw [if_neg (by omega), if_pos (by omega), show xlen + i - xlen = i by omega, BitVec.getLsbD_eq_getElem hi]
  rw [commandAddr, commandBits_packCommand, this]
  exact (BitVec.toNat_ofNat a xlen).trans (Nat.mod_eq_of_lt ha)

theorem commandData_packCommand (hd : d < 2 ^ xlen) : commandData xlen (packCommand xlen op a d) = d := by
  have : (op ++ bitsOf xlen a ++ bitsOf xlen d).extractLsb' 0 xlen = bitsOf xlen d := by
    ext i hi
    simp only [BitVec.getElem_extractLsb', BitVec.getLsbD_append]
    rw [if_pos (by omega), show 0 + i = i by omega, BitVec.getLsbD_eq_getElem hi]
  rw [commandData, commandBits_packCommand, this]
  exact (BitVec.toNat_ofNat d xlen).trans (Nat.mod_eq_of_lt hd)

end Sys2Proof

namespace Sys2Proof.Laws.EncodedFields

open Sys2Proof

/-- The decoder's fields of a code are those of `i`: a word has no bit above bit 24, the opcode value of one of
the eight opcodes and the fields of `i`; a command is `i`. -/
def ReadBack (c : Config) (i : Instr) : Code → Prop
  | .word w => highBits w = 0 ∧ ∃ o, opcodeField w = encodeOpcode c.opc o ∧ assemble o w = i
  | .command w => decodeCommand c.xlen w = i

/-- Every field of `i` is read back from its code, where its operands have the width of the ports. -/
def Statement (i : Instr) : Prop := ∀ c : Config, i.operandsFit c.xlen = true → ReadBack c i (encode c i)

theorem ifetch (addr : Word) : Statement (.ifetch addr) := fun c h => by
  simp [ReadBack, encode, decodeCommand, commandOp_packCommand, commandAddr_packCommand _ (of_decide_eq_true h)]

theorem load (addr : Word) : Statement (.load addr) := fun c h => by
  simp [ReadBack, encode, decodeCommand, commandOp_packCommand, commandAddr_packCommand _ (of_decide_eq_true h)]

theorem store (addr wdata : Word) : Statement (.store addr wdata) := fun c h => by
  obtain ⟨ha, hd⟩ := Bool.and_eq_true_iff.1 h
  simp [ReadBack, encode, decodeCommand, commandOp_packCommand, commandAddr_packCommand _ (of_decide_eq_true ha),
    commandData_packCommand _ (of_decide_eq_true hd)]

theorem flush : Statement .flush := fun c _ => by
  simp [ReadBack, encode, decodeCommand, commandOp_packCommand]

theorem add (f0 f1 : BitVec 3) (f2 : BitVec 16) : Statement (.add f0 f1 f2) := fun _ _ =>
  ⟨highBits_packWord .., .add, opcodeField_packWord .., by
    simp [assemble, field0Of_packWord, field1Of_packWord, field2Of_packWord]⟩

theorem nand (f0 f1 : BitVec 3) (f2 : BitVec 16) : Statement (.nand f0 f1 f2) := fun _ _ =>
  ⟨highBits_packWord .., .nand, opcodeField_packWord .., by
    simp [assemble, field0Of_packWord, field1Of_packWord, field2Of_packWord]⟩

theorem lw (f0 f1 : BitVec 3) (f2 : BitVec 16) : Statement (.lw f0 f1 f2) := fun _ _ =>
  ⟨highBits_packWord .., .lw, opcodeField_packWord .., by
    simp [assemble, field0Of_packWord, field1Of_packWord, field2Of_packWord]⟩

theorem sw (f0 f1 : BitVec 3) (f2 : BitVec 16) : Statement (.sw f0 f1 f2) := fun _ _ =>
  ⟨highBits_packWord .., .sw, opcodeField_packWord .., by
    simp [assemble, field0Of_packWord, field1Of_packWord, field2Of_packWord]⟩

theorem beq (f0 f1 : BitVec 3) (f2 : BitVec 16) : Statement (.beq f0 f1 f2) := fun _ _ =>
  ⟨highBits_packWord .., .beq, opcodeField_packWord .., by
    simp [assemble, field0Of_packWord, field1Of_packWord, field2Of_packWord]⟩

theorem jalr (f0 f1 : BitVec 3) : Statement (.jalr f0 f1) := fun _ _ =>
  ⟨highBits_packWord .., .jalr, opcodeField_packWord .., by
    simp [assemble, field0Of_packWord, field1Of_packWord]⟩

theorem halt : Statement .halt := fun _ _ =>
  ⟨highBits_packWord .., .halt, opcodeField_packWord .., rfl⟩

theorem noop : Statement .noop := fun _ _ =>
  ⟨highBits_packWord .., .noop, opcodeField_packWord .., rfl⟩

end Sys2Proof.Laws.EncodedFields
end

