-- ==== Sys2Proof/Laws/WordsFit.lean ====
section
/-! SUPPORT. The width of words: each operation keeps every word of the state within `XLEN` bits. -/

namespace Sys2Proof.Machine

/-! ## Reading a word -/

theorem fits_getD {n : Nat} {vs : List Word} (h : ∀ v ∈ vs, v < 2 ^ n) (k : Nat) : vs.getD k 0 < 2 ^ n := by
  rw [List.getD_eq_getElem?_getD]
  cases hk : vs[k]? with
  | none => exact Nat.two_pow_pos n
  | some v => exact h v (List.mem_of_getElem? hk)

theorem fits_reg {s : State} (h : WordsFit s) (n : Nat) : fitsWord s.cfg (s.reg n) := fits_getD h.2.2.1 n

/-- Where memory words fit, `mem[a]` does, listed or not. -/
theorem fits_memWord {s : State} (hc : s.cfg.wf) (h : WordsFit s) (a : Nat) : fitsWord s.cfg (s.memWord a) := by
  have hfill := (of_decide_eq_true hc : s.cfg.constraints).2.2.2.2.2.2
  have key : ∀ m : Memory, (∀ cell ∈ m, fitsWord s.cfg cell.2) → fitsWord s.cfg (Memory.read s.cfg.memFill m a) := by
    intro m
    induction m with
    | nil => exact fun _ => hfill
    | cons cell m ih =>
      intro hm
      obtain ⟨k, v⟩ := cell
      rw [Memory.read]
      split
      · exact hm _ (List.mem_cons_self ..)
      · exact ih fun c hc => hm c (List.mem_cons_of_mem _ hc)
  exact key _ h.1

/-- Writing words that fit into a memory whose words do. -/
theorem fits_writeBlock {c : Config} (vs : List Word) : ∀ {m : Memory} {a : Nat},
    (∀ cell ∈ m, fitsWord c cell.2) → (∀ v ∈ vs, fitsWord c v) →
    ∀ cell ∈ Memory.writeBlock c.memFill m a vs, fitsWord c cell.2 := by
  induction vs with
  | nil => intro m a hm _; exact hm
  | cons v vs ih =>
    intro m a hm hv
    refine ih (fun cell hcell => ?_) fun v' h => hv v' (List.mem_cons_of_mem _ h)
    rw [Memory.write] at hcell
    split at hcell
    · exact hm cell (List.mem_filter.1 hcell).1
    · rcases Memory.mem_insert hcell with rfl | h
      · exact hv v (List.mem_cons_self ..)
      · exact hm cell h

/-- The words of a line that stands in the array or not. -/
theorem fits_line {s : State} (h : WordsFit s) (i w : Nat) : ∀ v ∈ (s.line i w).blockData, fitsWord s.cfg v := by
  by_cases hw : w < (s.set i).length
  · have hi : i < s.lines.length := lt_of_set_ne_nil fun h => by simp [h] at hw
    have hmem : s.set i ∈ s.lines := by
      rw [State.set, List.getD_eq_getElem _ _ hi]; exact List.getElem_mem hi
    exact h.2.1 _ hmem _ (line_mem hw)
  · rw [line_eq_afterReset (by omega)]
    intro v hv
    rw [List.eq_of_mem_replicate hv]
    exact Nat.two_pow_pos _

/-! ## Writing a word -/

/-- Replacing a set by one whose words fit. -/
theorem WordsFit.putSet {s : State} (h : WordsFit s) {i : Nat} {ls : List Line}
    (hls : ∀ l ∈ ls, ∀ v ∈ l.blockData, fitsWord s.cfg v) : WordsFit (s.putSet i ls) := by
  refine ⟨h.1, fun ls' hls' => ?_, h.2.2⟩
  rcases List.mem_or_eq_of_mem_set hls' with h' | rfl
  · exact h.2.1 ls' h'
  · exact hls

theorem fits_set {s : State} (h : WordsFit s) (i : Nat) : ∀ l ∈ s.set i, ∀ v ∈ l.blockData, fitsWord s.cfg v := by
  intro l hl
  obtain ⟨w, hw, rfl⟩ := exists_way_of_mem hl
  exact fits_line h i w

theorem WordsFit.promote {s : State} (h : WordsFit s) {i w p : Nat} {l : Line}
    (hl : ∀ v ∈ l.blockData, fitsWord s.cfg v) : WordsFit (s.putSet i (promote w p l (s.set i))) := by
  refine h.putSet fun x hx => ?_
  rcases mem_promote hx with rfl | ⟨y, hy, rfl⟩
  · exact hl
  · rw [ageBelow_blockData]; exact fits_set h i y hy

theorem WordsFit.putLine {s : State} (h : WordsFit s) {i w : Nat} {l : Line}
    (hl : ∀ v ∈ l.blockData, fitsWord s.cfg v) : WordsFit (s.putLine i w l) := by
  refine h.putSet fun x hx => ?_
  rcases List.mem_or_eq_of_mem_set hx with h' | rfl
  · exact fits_set h i x h'
  · exact hl

theorem WordsFit.putReg {s : State} (h : WordsFit s) {n : Nat} {v : Word} (hv : fitsWord s.cfg v) :
    WordsFit (s.putReg n v) := by
  refine ⟨h.1, h.2.1, fun x hx => ?_, h.2.2.2⟩
  rcases List.mem_or_eq_of_mem_set hx with h' | rfl
  · exact h.2.2.1 x h'
  · exact hv

/-! ## The operations of the cache -/

theorem WordsFit.writeBackIfDirty {s t : State} {k : Handle} (h : WordsFit s)
    (ht : writeBackIfDirty k s = .next t) : WordsFit t := by
  rw [Machine.writeBackIfDirty] at ht
  split at ht
  · rw [writeBack_eq] at ht
    split at ht
    · cases ht
      exact ⟨fits_writeBlock _ h.1 fun v hv => fits_line h _ _ v (List.mem_of_mem_take hv), h.2⟩
    · cases ht
  · cases ht; exact h

theorem WordsFit.flushHandles : ∀ (hs : List Handle) {s t : State}, WordsFit s → flushHandles hs s = .next t →
    WordsFit t := by
  intro hs
  induction hs with
  | nil => intro s t h ht; cases ht; exact h
  | cons k hs ih =>
    intro s t h ht
    obtain ⟨u, hu, ht⟩ := andThen_eq_next.1 ht
    exact ih (h.writeBackIfDirty hu) ht

theorem WordsFit.makeRoom {s : State} {a : Nat} {p : Placed} (h : WordsFit s) (hp : makeRoom a s = .next p) :
    WordsFit p.state := by
  rcases (makeRoom_eq_next hp).2 with ⟨-, he⟩ | ⟨-, -, he⟩
  · rw [he]; exact h
  · obtain ⟨u, hu, he⟩ := andThen_eq_next.1 he
    have hf : WordsFit u := h.writeBackIfDirty hu
    injection he with he
    rw [← he]; exact hf

/-- ACCESS keeps the width of words. -/
theorem WordsFit.access {op : AccessOp} {a : Int} {s : State} {r : Accessed} (hc : s.cfg.wf) (h : WordsFit s)
    (hr : access op a s = .next r) : WordsFit r.state := by
  obtain ⟨-, -, ⟨k, hk, rfl⟩ | ⟨hk, p, hp, rfl⟩⟩ := access_eq_next hr
  · exact WordsFit.promote (s := countHit s) h (fits_line (s := countHit s) h k.set k.way)
  · have hp' : WordsFit p.state := WordsFit.makeRoom (s := countMiss s) h hp
    have hcfg : p.state.cfg = s.cfg := by rw [(makeRoom_frame hp).1]; rfl
    refine hp'.promote (fun v hv => ?_)
    obtain ⟨k, -, rfl⟩ := List.mem_map.1 hv
    exact fits_memWord (hcfg ▸ hc) hp' _

theorem WordsFit.ccRead {op : AccessOp} {a : Int} {s : State} {y : Reply} (hc : s.cfg.wf) (h : WordsFit s)
    (hy : ccRead op a s = .next y) : WordsFit y.state ∧ fitsWord s.cfg y.rdata ∧ y.state.cfg = s.cfg := by
  obtain ⟨r, hr, rfl⟩ := ccRead_eq_next.1 hy
  have hf := h.access hc hr
  have hcfg : r.state.cfg = s.cfg := (access_frame hr).2.2.1.1
  have hw : fitsWord r.state.cfg (readWord r.handle a.toNat r.state) := fits_getD (fits_line hf _ _) _
  refine ⟨⟨hf.1, hf.2.1, hf.2.2.1, hf.2.2.2.1, ?_⟩, hcfg ▸ hw, hcfg⟩
  rintro _ ⟨⟩
  exact hw

theorem WordsFit.ccStore {a : Int} {v : Word} {s t : State} (hc : s.cfg.wf) (h : WordsFit s) (hv : fitsWord s.cfg v)
    (ht : ccStore a v s = .next t) : WordsFit t := by
  obtain ⟨r, hr, rfl⟩ := ccStore_eq_next.1 ht
  have hf := h.access hc hr
  have hcfg : r.state.cfg = s.cfg := (access_frame hr).2.2.1.1
  have hw : WordsFit (writeWord r.handle a.toNat v (emit a.toNat 1 .p2c r.state)) := by
    refine WordsFit.putLine (s := emit a.toNat 1 .p2c r.state) hf fun x hx => ?_
    rcases List.mem_or_eq_of_mem_set hx with h' | rfl
    · exact fits_line hf _ _ x h'
    · show fitsWord r.state.cfg _
      rw [hcfg]; exact hv
  have hd : WordsFit (markDirty r.handle (writeWord r.handle a.toNat v (emit a.toNat 1 .p2c r.state))) :=
    WordsFit.putLine hw (fits_line hw _ _)
  refine ⟨hd.1, hd.2.1, hd.2.2.1, hd.2.2.2.1, ?_⟩
  rintro _ ⟨⟩
  exact (Config.freeRdata _ _).isLt

theorem WordsFit.ccFlush {s t : State} (h : WordsFit s) (ht : ccFlush s = .next t) : WordsFit t := by
  obtain ⟨-, u, hu, rfl⟩ := ccFlush_eq_next.1 ht
  have hf := h.flushHandles _ hu
  refine ⟨hf.1, hf.2.1, hf.2.2.1, hf.2.2.2.1, ?_⟩
  rintro _ ⟨⟩
  exact (Config.freeRdata _ _).isLt

theorem WordsFit.advancePc {s : State} (h : WordsFit s) : WordsFit (advancePc s) :=
  ⟨h.1, h.2.1, h.2.2.1, wrap_lt _ _, h.2.2.2.2⟩

/-- The operands of a command have the width of the ports (R73). -/
theorem decodeCommand_operandsFit (xlen : Nat) (c : CommandWord) : (decodeCommand xlen c).operandsFit xlen = true := by
  unfold decodeCommand
  split
  · exact decide_eq_true (BitVec.isLt _)
  · split
    · exact decide_eq_true (BitVec.isLt _)
    · split
      · exact Bool.and_eq_true_iff.2 ⟨decide_eq_true (BitVec.isLt _), decide_eq_true (BitVec.isLt _)⟩
      · rfl

end Sys2Proof.Machine
end

