-- ==== Sys2Proof/Tests/Slice0.lean ====
section
/-! SUPPORT. Tests: ill-formed instructions, words written out from the encodings, the spec's worked examples and
vectors (spec/95_test_vectors.md, named V-… and S…), and a witness for the hypotheses of each obligation. -/

open Sys2Proof Sys2Proof.Machine

namespace Sys2Proof.Tests

/-! ## Small states -/

/-- A configuration with exponents `b` and `e`, associativity `a` and `n` words of memory. -/
def tiny (b e a n : Nat) : Config :=
  { blockOffsetBits := b, setIndexBits := e, associativity := a, xlen := 32, memWords := n, numRegs := 8, regInit := 0,
    memFill := 0, opc := .lc2k }

/-- The machine after reset with an image. -/
def fresh (c : Config) (ws : List Word) : State := State.resetWith c (Memory.writeBlock c.memFill [] 0 ws)

/-- The same machine with another line array. -/
def withSets (s : State) (ls : List (List Line)) : State := { s with lines := ls }

/-- The same machine with some registers and the pc set. -/
def withRegs (s : State) (pc : Word) (rs : List (Nat × Word)) : State :=
  rs.foldl (fun s r => s.putReg r.1 r.2) { s with pc := pc }

/-- An invalid line of a configuration. -/
abbrev empty (c : Config) : Line := Line.afterReset c

/-- `B = 2`, `S = 2`, `A = 2`, 16 words: nothing cached. -/
def cold : State := fresh (tiny 1 1 2 16) [0, 1, 2, 3, 4, 5, 6, 7, 8, 9]

/-- Set 0 before V-INS-2: way 0 holds block 0, dirty and older; way 1 holds block 4, clean. -/
def full : State :=
  withSets cold [[⟨true, true, 0, 0, 1, [50, 51]⟩, ⟨true, false, 0, 1, 0, [4, 5]⟩],
    [empty cold.cfg, empty cold.cfg]]

/-- `cold` with a word at the pc of the requester. -/
def atPc (w : Word) : State := cold.withFetchWord 32 w

/-- The state an outcome answers. -/
def nextOf {α : Type} : Host.Outcome α Fault Refusal → Option α
  | .next t => some t
  | .fault _ => none
  | .refused _ => none

/-- The fault an outcome is. -/
def faultOf {α : Type} : Host.Outcome α Fault Refusal → Option Fault
  | .next _ => none
  | .fault f => some f
  | .refused _ => none

/-- The refusal an outcome is. -/
def refusalOf {α : Type} : Host.Outcome α Fault Refusal → Option Refusal
  | .next _ => none
  | .fault _ => none
  | .refused r => some r

/-- Does the outcome answer a state? -/
def isNext {α : Type} (o : Host.Outcome α Fault Refusal) : Bool := (nextOf o).isSome

theorem exists_next {α : Type} {o : Host.Outcome α Fault Refusal} (h : isNext o = true) : ∃ t, o = .next t := by
  cases o with
  | next t => exact ⟨t, rfl⟩
  | fault f => cases h
  | refused r => cases h

/-! ## Well-formedness: one ill-formed instruction for each check -/

theorem test_field0_is_no_register : (Instr.lw 4 0 0).namesRegisters 4 = false := by decide
theorem test_field1_is_no_register : (Instr.jalr 0 4).namesRegisters 4 = false := by decide
theorem test_destination_too_large : (Instr.add 1 0 8).namesRegisters 8 = false := by decide
theorem test_destination_negative : (Instr.nand 1 0 0xFFFF#16).namesRegisters 8 = false := by decide
theorem test_offset_is_no_destination : (Instr.sw 7 7 0xFFFF#16).wellFormed (tiny 0 0 1 16) = true := by decide
theorem test_operands_too_wide :
    (Instr.load 0x100000000).wellFormed (tiny 0 0 1 16) = false ∧
    (Instr.store 0 0x100000000).wellFormed (tiny 0 0 1 16) = false := by decide
theorem test_commands_are_well_formed :
    (Instr.store 0xFFFFFFFF 0xFFFFFFFF).wellFormed (tiny 0 0 1 16) = true ∧
    Instr.flush.wellFormed (tiny 0 0 1 16) = true := by decide
theorem test_map_that_is_no_bijection : ¬ OpcodeMap.wf { OpcodeMap.lc2k with noop := 0 } := by decide
theorem test_unassigned_opcode :
    decodeWord { OpcodeMap.lc2k with noop := 0 } 8 0x01C00000 = .error .opcodeUnassigned := by decide

/-! ## Decoding of words written out bit by bit (R80: opcode 24..22, field0 21..19, field1 18..16, field2 15..0) -/

theorem test_decode_add : decodeWord .lc2k 8 0b0000000_000_001_010_0000000000000011 = .ok (.add 1 2 3) := by
  decide
theorem test_decode_nand : decodeWord .lc2k 8 0b0000000_001_001_010_0000000000000011 = .ok (.nand 1 2 3) := by
  decide
theorem test_decode_lw :
    decodeWord .lc2k 8 0b0000000_010_001_010_1111111111111111 = .ok (.lw 1 2 0xFFFF#16) := by decide
theorem test_decode_sw : decodeWord .lc2k 8 0b0000000_011_010_000_0000000000000111 = .ok (.sw 2 0 7) := by
  decide
theorem test_decode_beq :
    decodeWord .lc2k 8 0b0000000_100_001_000_0000000000000001 = .ok (.beq 1 0 1) := by decide
theorem test_decode_jalr : decodeWord .lc2k 8 0b0000000_101_111_100_0000000000000000 = .ok (.jalr 7 4) := by
  decide
theorem test_decode_halt : decodeWord .lc2k 8 0b0000000_110_101_011_1010101010101010 = .ok .halt := by decide
theorem test_decode_noop : decodeWord .lc2k 8 0b0000000_111_000_000_0000000000000000 = .ok .noop := by decide
theorem test_decode_reserved_destination : decodeWord .lc2k 8 0x00080008 = .error .destinationNotARegister := by
  decide
theorem test_decode_reserved_high_bit : decodeWord .lc2k 8 0x02000000 = .error .highBitsSet := by decide

/-- R73: `op` in bits 65..64, `addr` in 63..32, `wdata` in 31..0; the commands of V-INS and P2. -/
theorem test_decode_commands :
    decodeCommand 32 ((0b00#2 ++ 3#32) ++ 9#32).toNat = .ifetch 3 ∧
    decodeCommand 32 ((0b01#2 ++ 4#32) ++ 9#32).toNat = .load 4 ∧
    decodeCommand 32 ((0b10#2 ++ 13#32) ++ 5#32).toNat = .store 13 5 ∧
    decodeCommand 32 ((0b11#2 ++ 1#32) ++ 2#32).toNat = .flush := by decide

/-- R73 with `XLEN = 25`: `op` in bits 51..50, `addr` in 49..25, `wdata` in 24..0. -/
theorem test_decode_narrow_commands :
    decodeCommand 25 ((0b01#2 ++ 4#25) ++ 9#25).toNat = .load 4 ∧
    decodeCommand 25 ((0b10#2 ++ 13#25) ++ 5#25).toNat = .store 13 5 := by decide

theorem test_table_words :
    decodeTableWord 32 0x004A0003 = some (.nand 1 2 3) ∧
    decodeTableWord 66 0x20000000D00000005 = some (.store 13 5) ∧ decodeTableWord 32 0x02000000 = none := by decide

/-! ## Reset, memory and boot -/

theorem test_reset_memory : Memory.wf State.reset.cfg.memFill State.reset.cfg.memWords State.reset.mem := by decide
theorem test_write_keeps_the_form :
    Memory.write 0 (Memory.write 0 (Memory.write 0 [] 5 7) 2 9) 5 0 = [(2, 9)] := by decide

/-- Parameters as they are supplied, with the defaults of R11 for the rest. -/
def given (b e a : Option Nat) (n : Nat) : ConfigInput :=
  { blockSizeInWords := b, setCount := e, associativity := a, xlen := 32, memWords := n, numRegs := 8, regInit := 0,
    memFill := 0, opc := .lc2k }

/-- V-DEC-CFG. -/
theorem test_boot_checks :
    faultOf (construct (given (some 3) (some 4) (some 1) 16)) = some (.configurationError .blockSizeInWords) ∧
    faultOf (construct (given (some 4) (some 6) (some 2) 16)) = some (.configurationError .setCount) ∧
    faultOf (construct (given (some 0) (some 4) (some 1) 16)) = some (.configurationError .blockSizeInWords) ∧
    faultOf (construct (given (some 4) (some 4) (some 0) 16)) = some (.configurationError .associativity) ∧
    nextOf (construct (given (some 4) (some 8) (some 3) 16)) = some (tiny 2 3 3 16) := by decide

/-- R11: `XLEN >= 25`, `MEM_WORDS <= 2^(XLEN-1)`. -/
theorem test_boot_checks_xlen :
    faultOf (construct { given (some 1) (some 1) (some 1) 16 with xlen := 24 }) = some (.configurationError .xlen) ∧
    isNext (construct { given (some 1) (some 1) (some 1) 0x1000000 with xlen := 25 }) = true ∧
    faultOf (construct { given (some 1) (some 1) (some 1) 0x1000001 with xlen := 25 }) =
      some (.configurationError .memWords) := by decide

theorem test_boot_image :
    (nextOf (boot (given (some 2) (some 2) (some 2) 16) (some [5, 0, 7]))).map (fun s => s.mem) =
      some [(0, 5), (2, 7)] ∧
    faultOf (boot (given (some 2) (some 2) (some 2) 16) none) = some .imageLoadError ∧
    refusalOf (boot (given (some 2) (some 2) (some 2) 16) (some [0x100000000])) = some .imageWordTooWide := by decide

/-! ## Address decoder (V-DEC) -/

theorem test_split_of_423 :
    blockOffset (tiny 2 3 1 512) 423 = 3 ∧ setIndexOf (tiny 2 3 1 512) 423 = 1 ∧ tagOf (tiny 2 3 1 512) 423 = 13 ∧
    blockStart (tiny 2 3 1 512) 423 = 420 := by decide
/-- V-WB-1. -/
theorem test_lineBase :
    baseOf (tiny 2 3 1 512) 13 1 = 420 ∧ baseOf (tiny 1 1 1 16) 1 1 = 6 ∧ baseOf (tiny 0 1 1 16) 3 0 = 6 ∧
    baseOf (tiny 1 0 1 16) 2 0 = 4 := by decide

/-! ## Cache store -/

/-- V-LRU-5 and V-LRU-6: the pivot is the age of the touched line, invalid lines keep their age. -/
theorem test_touchLru_ages :
    (promote 0 2 ⟨true, false, 0, 0, 2, []⟩ [⟨true, false, 0, 0, 2, []⟩, ⟨true, false, 0, 1, 0, []⟩,
      ⟨true, false, 0, 2, 3, []⟩, ⟨true, false, 0, 3, 1, []⟩]).map (fun l => l.lruAge) = [0, 1, 3, 2] ∧
    (promote 0 1 ⟨true, false, 0, 0, 1, []⟩ [⟨true, false, 0, 0, 1, []⟩, ⟨true, false, 0, 1, 0, []⟩,
      ⟨false, false, 0, 2, 3, []⟩, ⟨false, false, 0, 3, 3, []⟩]).map (fun l => l.lruAge) = [0, 1, 3, 3] := by
  decide

/-- V-INS-2: the dirty victim is written back, then discarded, then the block is filled. -/
theorem test_install_evicts_dirty :
    (nextOf (install .load 8 full)).map (fun p => (p.state.events, p.state.line 0 0, (p.state.line 0 1).lruAge,
      p.state.memWord 0, p.state.memWord 1)) =
      some ([⟨0, 2, .c2m⟩, ⟨0, 2, .c2d⟩, ⟨8, 2, .m2c⟩], ⟨true, false, 0, 2, 0, [8, 9]⟩, 1, 50, 51) := by
  decide

/-- V-FL-1: FLUSHALL in set order; both lines stay dirty. -/
theorem test_flushAll_order :
    (nextOf (flushAll (withSets (fresh (tiny 0 1 1 8) [])
      [[⟨true, true, 0, 3, 0, [5]⟩], [⟨true, true, 1, 0, 0, [8]⟩]]))).map (fun s =>
        (s.events, s.mem, (s.line 0 0).dirty, (s.line 1 0).dirty)) =
      some ([⟨6, 1, .c2m⟩, ⟨1, 1, .c2m⟩], [(1, 8), (6, 5)], true, true) := by decide

/-! ## Commands -/

/-- R122's example. -/
theorem test_ifetch_miss :
    (nextOf (exec (.ifetch 1) (fresh (tiny 1 1 1 8) [100, 200]))).map (fun t => (t.resp, t.events, t.missCount)) =
      some (some ⟨200, false, 0⟩, [⟨0, 2, .m2c⟩, ⟨1, 1, .c2p⟩], 1) := by decide

/-- R123's example, the second LOAD. -/
theorem test_load_hit :
    (nextOf (exec (.load 0) (withSets (fresh (tiny 0 2 1 8) [5]) [[⟨true, false, 0, 0, 0, [5]⟩]]))).map
      (fun t => (t.resp, t.events, t.hitCount, t.missCount)) =
      some (some ⟨5, true, 0⟩, [⟨0, 1, .c2p⟩], 1, 0) := by decide

/-- V-FLT-1: `LOAD 8` and the pattern of -1 fault. -/
theorem test_load_out_of_range :
    faultOf (exec (.load 8) (fresh (tiny 1 1 1 8) [])) = some (.addressOutOfRange .load 8) ∧
    faultOf (exec (.load 0xFFFFFFFF) (fresh (tiny 1 1 1 8) [])) = some (.addressOutOfRange .load 0xFFFFFFFF) := by
  decide

/-- R124's example: write-allocate, memory not written. -/
theorem test_store_miss :
    (nextOf (exec (.store 7 42) (fresh (tiny 1 1 1 8) [0, 0, 0, 0, 0, 0, 21, 0]))).map (fun t =>
      (t.events, t.line 1 0, t.memWord 7)) =
      some ([⟨6, 2, .m2c⟩, ⟨7, 1, .p2c⟩], ⟨true, true, 1, 1, 0, [21, 42]⟩, 0) := by decide

/-- V-FLT-2: a valid address whose block passes the end of memory. -/
theorem test_store_block_extent :
    faultOf (exec (.store 8 1) (fresh (tiny 2 0 1 10) [])) = some (.addressOutOfRange .store 8) ∧
    isNext (exec (.store 7 1) (fresh (tiny 2 0 1 10) [])) = true := by decide

/-- V-ACC-6. -/
theorem test_flush_after_reset :
    (nextOf (exec .flush cold)).map (fun t => (t.events, t.report, t.ccState)) =
      some ([], some ⟨0, 0⟩, .halted) := by decide

/-- V-ACC-7. -/
theorem test_flush_when_halted :
    refusalOf (exec .flush { cold with ccState := .halted }) = some (.notReady .halted) := by
  decide

/-! ## Requester (V-REQ) -/

/-- V-REQ-1. -/
theorem test_add : (nextOf (exec (.add 1 2 3) (withRegs cold 0 [(1, 5), (2, 7)]))).map (fun t => (t.x, t.pc)) =
    some ([0, 5, 7, 12, 0, 0, 0, 0], 1) := by decide
/-- V-REQ-3. -/
theorem test_add_wraps : (nextOf (exec (.add 1 1 1) (withRegs cold 0 [(1, 0x80000000)]))).map (fun t => t.reg 1) =
    some 0 := by decide
/-- V-REQ-2. -/
theorem test_nand : (nextOf (exec (.nand 1 2 3) (withRegs cold 0 [(1, 0xC), (2, 0xA)]))).map (fun t => t.reg 3) =
    some 0xFFFFFFF7 := by decide
/-- V-REQ-4. -/
theorem test_nand_zero : (nextOf (exec (.nand 0 0 1) cold)).map (fun t => t.reg 1) = some 0xFFFFFFFF := by decide
/-- V-REQ-6, with 4 in word 7. -/
theorem test_lw_negative_offset :
    (nextOf (exec (.lw 1 2 0xFFFF#16) (withRegs (fresh (tiny 0 0 1 16) [0, 0, 0, 0, 0, 0, 0, 4]) 0 [(2, 8)]))).map
      (fun t => (t.reg 1, t.reg 2, t.pc)) = some (4, 8, 1) := by decide
/-- V-REQ-17. -/
theorem test_lw_out_of_range :
    faultOf (exec (.lw 1 0 6) (fresh (tiny 0 0 1 6) [])) = some (.addressOutOfRange .load 6) := by decide
/-- V-REQ-7. -/
theorem test_sw :
    (nextOf (exec (.sw 2 0 7) (withRegs cold 0 [(2, 42)]))).map (fun t => (t.line 1 0, t.reg 2, t.memWord 7)) =
      some (⟨true, true, 1, 1, 0, [6, 42]⟩, 42, 7) := by decide
/-- R53: a negative effective address. -/
theorem test_sw_negative_address :
    faultOf (exec (.sw 2 0 0xFFFF#16) cold) = some (.addressOutOfRange .store (-1)) := by decide
/-- V-REQ-8. -/
theorem test_beq_back : (nextOf (exec (.beq 0 0 0xFFFD#16) (withRegs cold 5 []))).map (fun t => t.pc) = some 3 := by
  decide
/-- V-REQ-9. -/
theorem test_beq_not_taken : (nextOf (exec (.beq 1 0 1) (withRegs cold 4 [(1, 2)]))).map (fun t => t.pc) =
    some 5 := by decide
/-- V-REQ-11. -/
theorem test_jalr : (nextOf (exec (.jalr 7 4) (withRegs cold 10 [(4, 2)]))).map (fun t => (t.reg 7, t.pc)) =
    some (11, 2) := by decide
/-- V-REQ-12. -/
theorem test_jalr_equal_fields : (nextOf (exec (.jalr 4 4) (withRegs cold 10 [(4, 2)]))).map
    (fun t => (t.reg 4, t.pc)) = some (11, 11) := by decide
/-- V-REQ-13, as a step: the fetch is counted. -/
theorem test_noop_step : (nextOf (step (atPc 0x01C00000))).map (fun t => (t.pc, t.missCount, t.x)) =
    some (1, 1, [0, 0, 0, 0, 0, 0, 0, 0]) := by decide
/-- V-REQ-14. -/
theorem test_halt : (nextOf (exec .halt (withRegs cold 3 []))).map (fun t => (t.pc, t.ccState)) =
    some (3, .halted) := by decide
/-- A step runs the word at the pc: `add 1 2 3` of R143. -/
theorem test_step_add :
    (nextOf (step (withRegs (atPc 0x000A0003) 0 [(1, 5), (2, 7)]))).map (fun t => (t.reg 3, t.pc, t.missCount)) =
      some (12, 1, 1) := by decide
/-- V-REQ-15: a reserved encoding is refused. -/
theorem test_step_reserved :
    refusalOf (step (atPc 0x00080008)) = some (.reservedEncoding .destinationNotARegister) := by decide
/-- A command of the stream is executed and taken from it. -/
theorem test_step_command :
    (nextOf (step { cold with requester := .port [0x10000000100000000, 0] })).map
      (fun t => (t.resp, t.requester)) = some (some ⟨1, false, 0⟩, .port [0]) := by decide
/-- R181, R182: reset loses the dirty words and keeps memory. -/
theorem test_step_reset :
    (nextOf (step { full with rst := true })).map (fun t => (t.memWord 0, (t.line 0 0).valid, (t.line 0 0).lruAge)) =
      some (0, false, 1) := by decide

/-! ## Witnesses: for each obligation with hypotheses, inputs that meet them together

`cold` is a machine right after reset, `full` one whose set 0 is full with a dirty and a clean block; both are in
order. Addresses 14 and 15 are the last block of their memory. -/

/-- The invariant as a Boolean, so that it can stand beside other facts in one decision. -/
def inOrder (s : State) : Bool := decide (Inv s)

theorem inv_of_inOrder {s : State} (h : inOrder s = true) : Inv s := of_decide_eq_true h

theorem test_witness_inv :
    inOrder cold = true ∧ inOrder full = true ∧ cold.ccState = .ready ∧ full.ccState = .ready := by decide

theorem test_witness_DecodeInvertsEncode :
    OpcodeMap.lc2k.wf ∧ (Instr.add 7 7 7).wellFormed cold.cfg = true ∧
    (Instr.lw 0 0 0x8000#16).wellFormed cold.cfg = true ∧
    (Instr.store 0xFFFFFFFF 0xFFFFFFFF).wellFormed cold.cfg = true := by
  decide
theorem test_witness_DecodedInstructionsAreWellFormed :
    decode cold.cfg (.word 0x003F0007) = .ok (.add 7 7 7) ∧
    decode cold.cfg (.command 0x1FFFFFFFF00000000) = .ok (.load 0xFFFFFFFF) := by decide
theorem test_witness_EveryOpcodeValueIsAssigned : OpcodeMap.lc2k.wf := by decide

/-- Bit 25; `field0 = NUMREGS`; `field2 = NUMREGS`, and -1; the largest destination. -/
theorem test_witness_ReservedEncodingsAreRefused :
    highBits 0x02000000 ≠ 0 ∧
    (decodeOpcode .lc2k (opcodeField 0x00200000) = some .add ∧ highBits 0x00200000 = 0 ∧
      (assemble .add 0x00200000).fieldsAreRegisters 4 = false) ∧
    (decodeOpcode .lc2k (opcodeField 8) = some .add ∧ (assemble .add 8).fieldsAreRegisters 8 = true ∧
      (assemble .add 8).destinationIsRegister 8 = false ∧
      (assemble .add 0xFFFF).destinationIsRegister 8 = false) ∧
    (assemble .add 7).namesRegisters 8 = true := by decide
theorem test_witness_reserved_step :
    (atPc 8).rst = false ∧ (atPc 8).requester = .engine ∧
    (nextOf (ccRead .ifetch (atPc 8).pc (atPc 8))).map (fun y => y.rdata) = some 8 ∧
    decodeWord .lc2k 8 8 = .error .destinationNotARegister := by decide

/-- Block size 1 and 4, set count 1 and 8, a multiple of the block size, an address below `B*S`. -/
theorem test_witness_address_decoder :
    (tiny 0 0 1 16).blockSize = 1 ∧ (tiny 0 0 1 16).setCount = 1 ∧ (tiny 2 3 1 512).blockSize = 4 ∧
    (tiny 2 3 1 512).setCount = 8 ∧ (tiny 2 3 1 512).blockSize ∣ 420 ∧ 31 < 4 * 8 := by decide
theorem test_witness_LineBaseReconstructsTheBlock :
    Line.setIndex ⟨true, false, 1, 13, 0, []⟩ < (tiny 2 3 1 512).setCount ∧
    Line.setIndex ⟨true, false, 7, 0, 0, []⟩ < (tiny 2 3 1 512).setCount ∧
    Line.setIndex ⟨true, false, 0, 2, 0, []⟩ < (tiny 1 0 1 16).setCount := by decide
theorem test_witness_AddressSplitIsLossless :
    (tiny 1 1 2 4).memWords ≤ 2 ^ ((tiny 1 1 2 4).blockOffsetBits + (tiny 1 1 2 4).setIndexBits) ∧
    3 < (tiny 1 1 2 4).memWords := by decide
theorem test_witness_AddressRoundTrip :
    1 < cold.cfg.blockSize ∧ blockStart cold.cfg 14 = blockStart cold.cfg 15 ∧
    Line.setIndex ⟨true, false, 1, 13, 0, []⟩ < (tiny 2 3 1 512).setCount ∧
    addressOf (tiny 2 3 1 512) 13 1 3 = 423 := by decide

/-- R101's example, and the last address and the first one outside. -/
theorem test_witness_LookupFindsTheMatchingLine :
    validAddress cold.cfg 15 ∧ ¬ validAddress cold.cfg 16 ∧ ¬ validAddress cold.cfg (-1) ∧
    (tiny 0 2 1 6).blockSize = 1 ∧ (tiny 0 2 1 6).setCount = 4 ∧ 6 ≤ (tiny 0 2 1 6).memWords ∧
    (withSets (fresh (tiny 0 2 1 6) []) [[⟨true, false, 0, 1, 0, [0]⟩]]).set 0 =
      [⟨true, false, 0, 1, 0, [0]⟩] ∧
    (fresh (tiny 0 2 1 6) []).set 1 = [empty (tiny 0 2 1 6)] := by decide
/-- V-LRU-3, a line of age 0, and a direct-mapped set. -/
theorem test_witness_TouchLruPromotesTheLine :
    0 < full.lines.length ∧ 1 < (full.set 0).length ∧ (full.line 0 1).valid = true ∧
    (full.line 0 1).lruAge = 0 ∧
    (∀ l ∈ full.set 0, l.lruAge < full.cfg.associativity) ∧ LruOrder (full.set 0) ∧
    (fresh (tiny 0 0 1 16) []).cfg.associativity = 1 ∧
    [(true, 0), (true, 1), (true, 2), (true, 3)] =
      ((withSets (fresh (tiny 0 0 4 16) []) [[⟨true, false, 0, 0, 0, [0]⟩, ⟨true, false, 0, 1, 1, [0]⟩,
        ⟨true, false, 0, 2, 2, [0]⟩, ⟨true, false, 0, 3, 3, [0]⟩]]).set 0).map
        (fun l => (l.valid, l.lruAge)) := by decide
/-- An empty set, a full one, and one with a valid line beside an invalid one. -/
def half : State :=
  withSets cold [[⟨true, false, 0, 0, 0, [0, 1]⟩, empty cold.cfg], [empty cold.cfg, empty cold.cfg]]
theorem test_witness_InstallPlacesTheBlock :
    inOrder cold = true ∧ inOrder full = true ∧ inOrder half = true ∧
    (addressOk cold.cfg 15 ∧ holder cold 15 = none ∧ (cold.line 1 0).valid = false) ∧
    (addressOk full.cfg 8 ∧ holder full 8 = none ∧ (full.line 0 1).aged.lruAge = 1) ∧
    (addressOk half.cfg 8 ∧ holder half 8 = none ∧ (half.line 0 0).valid = true ∧
      (half.line 0 1).valid = false ∧ (half.line 0 0).aged.lruAge = 1) := by decide
theorem test_witness_WriteBackCopiesTheBlock :
    (full.line 0 0).blockData.length = full.cfg.blockSize ∧
    lineBase full.cfg (full.line 0 0) + full.cfg.blockSize ≤ full.cfg.memWords := by decide

/-- A hit, a miss that evicts a dirty block, the last word, and addresses that are not accepted. -/
theorem test_witness_accesses :
    inOrder full = true ∧ full.ccState = .ready ∧ addressOk full.cfg 1 ∧ (holder full 1).isSome = true ∧
    addressOk full.cfg 8 ∧ writtenBlock full 8 = some 0 ∧
    addressOk full.cfg 15 ∧ ¬ addressOk full.cfg 16 ∧
    ¬ addressOk (tiny 2 0 1 10) 8 := by decide
theorem test_witness_load_answers : inOrder full = true ∧ ∃ t, exec (.load 8) full = .next t :=
  ⟨by decide, exists_next (by decide)⟩
theorem test_witness_ifetch_answers : inOrder full = true ∧ ∃ t, exec (.ifetch 1) full = .next t :=
  ⟨by decide, exists_next (by decide)⟩
theorem test_witness_store_answers : inOrder full = true ∧ ∃ t, exec (.store 8 5) full = .next t :=
  ⟨by decide, exists_next (by decide)⟩
theorem test_witness_flush_answers : inOrder full = true ∧ ∃ t, exec .flush full = .next t :=
  ⟨by decide, exists_next (by decide)⟩
theorem test_witness_load_fault : ∃ b : Int, exec (.load 16) full = .fault (.addressOutOfRange .load b) :=
  ⟨16, by rfl⟩
theorem test_witness_load_refused :
    refusalOf (exec (.load 0) { cold with ccState := .halted }) = some (.notReady .halted) := by decide

/-- R127: a block shared by two addresses, and a running state that satisfies the conservation. -/
theorem test_witness_CountersCountAccesses :
    inOrder full = true ∧ isNext (exec (.load 8) full) = true ∧
    blockStart full.cfg 9 = blockStart full.cfg 8 ∧ Conservation cold ∧
    holder full 12 = none ∧ blockStart full.cfg 12 ≠ blockStart full.cfg 8 ∧
    (atPc 0x01C00000).rst = false := by decide
theorem test_witness_step_answers : (atPc 0x01C00000).rst = false ∧ ∃ t, step (atPc 0x01C00000) = .next t :=
  ⟨by decide, exists_next (by decide)⟩

/-- Every requester instruction answers in `full`, at the last register and the last word. -/
theorem test_witness_requester_answers :
    inOrder full = true ∧ full.ccState = .ready ∧ isNext (exec (.add 7 7 7) full) = true ∧
    isNext (exec (.nand 7 0 0) full) = true ∧
    isNext (exec (.lw 7 7 15) full) = true ∧ isNext (exec (.sw 7 7 8) full) = true ∧
    isNext (exec (.beq 7 7 0x8000#16) full) = true ∧ isNext (exec (.jalr 7 7) full) = true ∧
    isNext (exec .noop full) = true ∧ isNext (exec .halt full) = true := by decide
theorem test_witness_requester_well_formed :
    inOrder full = true ∧ full.ccState = .ready ∧
    (Instr.add 7 7 7).namesRegisters full.cfg.numRegs = true ∧
    (Instr.nand 7 0 0).namesRegisters full.cfg.numRegs = true ∧
    (Instr.lw 7 7 15).namesRegisters full.cfg.numRegs = true ∧
    (Instr.sw 7 7 8).namesRegisters full.cfg.numRegs = true ∧
    (Instr.beq 7 7 0x8000#16).namesRegisters full.cfg.numRegs = true ∧
    (Instr.jalr 7 7).namesRegisters full.cfg.numRegs = true := by decide

/-- R144's example, operands 0, and equal fields. -/
theorem test_witness_NandWritesTheComplement :
    cold.cfg.xlen = 32 ∧
    (withRegs cold 0 [(1, 0xC), (2, 0xA)]).reg 1 = 0xC ∧ (withRegs cold 0 [(1, 0xC), (2, 0xA)]).reg 2 = 0xA ∧
    inOrder (withRegs cold 0 [(1, 0xC), (2, 0xA)]) = true ∧ cold.reg 0 = 0 ∧ cold.cfg.numRegs = 8 := by decide
/-- R145's example, with 21 in word 6; the last word and the first beyond it. -/
theorem test_witness_LwLoadsTheLogicalWord :
    inOrder (fresh (tiny 0 0 1 16) [0, 0, 0, 0, 0, 0, 21]) = true ∧
    logical (fresh (tiny 0 0 1 16) [0, 0, 0, 0, 0, 0, 21]) 6 = 21 ∧
    addressOk (tiny 0 0 1 16) 6 ∧ addressOk cold.cfg (memAddress cold 0 15) ∧
    ¬ addressOk cold.cfg (memAddress cold 0 16) ∧
    ¬ addressOk cold.cfg (memAddress cold 0 0xFFFF#16) := by decide
theorem test_witness_SwStoresTheRegister :
    inOrder (withRegs cold 0 [(2, 42)]) = true ∧ (withRegs cold 0 [(2, 42)]).reg 0 = 0 ∧
    (withRegs cold 0 [(2, 42)]).reg 2 = 42 := by decide
/-- R147's example; a target outside memory, with different and equal fields. -/
theorem test_witness_JalrLinksThenJumps :
    inOrder (withRegs cold 10 [(4, 2)]) = true ∧ (withRegs cold 10 [(4, 2)]).pc = 10 ∧
    (withRegs cold 10 [(4, 2)]).reg 4 = 2 ∧
    cold.rst = false ∧ cold.requester = .engine ∧
    (nextOf (exec (.jalr 7 4) (withRegs cold 10 [(4, 16)]))).map (fun t => t.pc) = some 16 ∧
    ¬ validAddress cold.cfg 16 := by decide
/-- R148's example; taken and not taken; immediates -1 and 0; a target outside memory. -/
theorem test_witness_BeqBranchesOnEquality :
    inOrder (withRegs cold 5 [(1, 2)]) = true ∧ (withRegs cold 5 [(1, 2)]).pc = 5 ∧
    (withRegs cold 5 [(1, 2)]).reg 0 ≠ (withRegs cold 5 [(1, 2)]).reg 1 ∧
    (withRegs cold 5 [(1, 2)]).reg 0 = (withRegs cold 5 [(1, 2)]).reg 2 ∧ (0xFFFF#16).toInt = -1 ∧
    0 ≤ (5 : Int) + 1 + (0xFFFD#16).toInt ∧ (5 : Int) + 1 + (0xFFFD#16).toInt < 2 ^ 32 ∧ 5 < 2 ^ 32 ∧
    (nextOf (exec (.beq 0 0 10) (withRegs cold 5 []))).map (fun t => t.pc) = some 16 ∧
    ¬ validAddress cold.cfg 16 := by decide
theorem test_witness_NoopOnlyAdvancesThePc :
    (atPc 0x01C00000).requester = .engine ∧
    (nextOf (fetchNext (atPc 0x01C00000))).map (fun f => f.instr) = some .noop := by decide
theorem test_witness_NonexistentRegistersAreRefused :
    cold.ccState = .ready ∧ (Instr.add 0 0 8).namesRegisters cold.cfg.numRegs = false ∧
    (Instr.add 0 0 0xFFFF#16).namesRegisters 8 = false := by decide

/-- Frames: the address a miss evicts from, a set that is not its set, a word that keeps its value. -/
theorem test_witness_frames :
    setIndexOf full.cfg 8 ≠ 1 ∧ writtenBlock full 8 = some 0 ∧ ¬ inBlock full.cfg 0 2 ∧
    inBlock full.cfg 0 1 ∧ dirtyHandles full = [⟨0, 0⟩] := by decide

/-- The engine, a command stream, and a stream that has ended. -/
theorem test_witness_StepRunsTheDecodedInstruction :
    isNext (ccRead .ifetch (atPc 0x000A0003).pc (atPc 0x000A0003)) = true ∧
    decode (atPc 0x000A0003).cfg (.word 0x000A0003) =
      .ok (.add 1 2 3) ∧
    ({ cold with requester := .port [0] } : State).requester = .port [0] ∧
    refusalOf (step { cold with requester := .port [] }) = some .noCommandOffered := by decide
/-- The fetch of the last word, a pc outside memory, and an LW and an SW whose address is. -/
theorem test_witness_fetches :
    inOrder (atPc 0x00880010) = true ∧ addressOk cold.cfg 15 ∧ ¬ addressOk cold.cfg 16 ∧
    logical (atPc 0x00880010) 0 = 0x00880010 ∧
    decodeWord .lc2k 8 0x00880010 = .ok (.lw 1 0 16) ∧ decodeWord .lc2k 8 0x00C8FFFF = .ok (.sw 1 0 0xFFFF#16) ∧
    logical (atPc 0x00C8FFFF) 0 = 0x00C8FFFF ∧ inOrder (atPc 0x00C8FFFF) = true := by decide

/-- A pc inside a memory of 15 words whose block of two words passes its end (R56, D4): the fetch faults. -/
theorem test_witness_fetch_past_the_end :
    inOrder (withRegs (fresh (tiny 1 1 2 15) []) 14 []) = true ∧ validAddress (tiny 1 1 2 15) 14 ∧
    ¬ addressOk (tiny 1 1 2 15) 14 ∧ addressOk (tiny 1 1 2 15) 13 ∧
    faultOf (step (withRegs (fresh (tiny 1 1 2 15) []) 14 [])) = some (.addressOutOfRange .ifetch 14) := by decide

/-- The states after the fetch of an LW and of an SW whose effective address is outside memory. -/
theorem test_witness_data_fault_after_fetch :
    (nextOf (ccRead .ifetch (atPc 0x00880010).pc (atPc 0x00880010))).map (fun y =>
      inOrder y.state && decide (y.state.ccState = .ready ∧ y.rdata = 0x00880010)) = some true ∧
    (nextOf (ccRead .ifetch (atPc 0x00C8FFFF).pc (atPc 0x00C8FFFF))).map (fun y =>
      inOrder y.state && decide (y.state.ccState = .ready ∧ y.rdata = 0x00C8FFFF)) = some true := by decide

theorem test_witness_ResetInputRestoresTheResetState : ({ full with rst := true } : State).rst = true := by decide
theorem test_witness_NothingRunsOutsideReady :
    ({ full with ccState := .halted } : State).ccState ≠ .ready ∧
    ({ full with ccState := .faulted } : State).ccState ≠ .ready ∧ full.rst = false := by decide
theorem test_witness_BootGivesAStateInOrder :
    ∃ s, boot (given (some 2) (some 2) (some 3) (2 ^ 31)) (some [5, 0, 7]) = .next s := exists_next (by decide)
theorem test_witness_ConfigurationIsChecked :
    isNext (construct (given (some 1) (some 1) (some 1) 1)) = true ∧
    faultOf (construct (given none (some 1) (some 1) 1)) = some (.configurationError .blockSizeInWords) ∧
    faultOf (construct { given (some 1) (some 1) (some 1) 1 with numRegs := 9 }) =
      some (.configurationError .numRegs) ∧
    24 < 25 ∧ isNext (construct { given (some 1) (some 1) (some 1) 1 with xlen := 25 }) = true := by decide
/-- A machine of 25-bit words: the sum wraps at `2^25`, a STORE of the widest word completes. -/
theorem test_witness_WordsKeepTheirWidth :
    ({ tiny 0 0 1 16 with xlen := 25 } : Config).wf ∧
    WordsFit (fresh { tiny 0 0 1 16 with xlen := 25 } [0x1FFFFFF]) ∧
    (nextOf (exec (.add 1 1 2) (withRegs (fresh { tiny 0 0 1 16 with xlen := 25 } []) 0 [(1, 0x1000001)]))).map
      (fun t => t.reg 2) = some 2 ∧
    (Instr.store 15 0x1FFFFFF).operandsFit 25 = true ∧
    isNext (exec (.store 15 0x1FFFFFF) (fresh { tiny 0 0 1 16 with xlen := 25 } [])) = true ∧
    isNext (boot { given (some 1) (some 1) (some 1) 16 with xlen := 25 } (some [0x1FFFFFF])) = true ∧
    WordsFit (atPc 0x01C00000) := by decide
/-- A step in a warm machine: the fetch of word 12 evicts the dirty block. -/
theorem test_witness_StepKeepsTheInvariant :
    inOrder (withRegs full 12 []) = true ∧ isNext (step (withRegs full 12 [])) = true := by decide
/-- A set that is full, and one with an invalid line. -/
theorem test_witness_LruTotalOrderHolds :
    inOrder full = true ∧ isNext (install .load 8 full) = true ∧ holder full 8 = none ∧
    (∀ l ∈ full.set 0, l.valid = true) ∧ (full.line 1 0).valid = false ∧ 1 < full.cfg.setCount := by decide
theorem test_witness_TagsStayUnique :
    (nextOf (access .load 8 full)).map (fun r => r.hit) = some false ∧
    (nextOf (access .load 1 full)).map (fun r => r.hit) = some true := by decide
theorem test_witness_OnlyAddressFaultsWhileRunning :
    faultOf (step (withRegs cold 16 [])) = some (.addressOutOfRange .ifetch 16) ∧
    inOrder (withRegs cold 16 []) = true := by decide
/-- A word that an instruction changes, and a line that stays valid. -/
theorem test_witness_OnlyDirtyBlocksReachMemory :
    (nextOf (exec (.load 8) full)).map (fun t => decide (t.memWord 0 = full.memWord 0)) = some false ∧
    (full.line 0 1).valid = true := by decide
theorem test_witness_EventStreamOnlyGrows : full.rst = false ∧ ReportAtHalt cold := by decide

/-- The geometry `B = 1`, `S = 1`, `A = 1` with the memory of `atPc`: what the requester sees is the same. -/
def otherGeometry : State := { fresh (tiny 0 0 1 16) [] with mem := (atPc 0x01C00000).mem }
theorem test_witness_GeometryIsInvisible :
    inOrder (atPc 0x01C00000) = true ∧ inOrder otherGeometry = true ∧ otherGeometry.rst = false ∧
    otherGeometry.requester = .engine ∧
    (atPc 0x01C00000).cfg.xlen = otherGeometry.cfg.xlen ∧
    (atPc 0x01C00000).cfg.numRegs = otherGeometry.cfg.numRegs ∧
    (atPc 0x01C00000).cfg.opc = otherGeometry.cfg.opc ∧ (atPc 0x01C00000).pc = otherGeometry.pc ∧
    (atPc 0x01C00000).x = otherGeometry.x ∧ isNext (step (atPc 0x01C00000)) = true ∧
    isNext (step otherGeometry) = true := by decide
theorem test_witness_same_logical_memory : ∀ a, logical (atPc 0x01C00000) a = logical otherGeometry a := by
  have h1 : ∀ a, holder (atPc 0x01C00000) a = none := fun a => by
    have h : ∀ i < 2, matchingWay ((atPc 0x01C00000).set i) (tagOf cold.cfg a) = none := fun i hi => by
      interval_cases i <;> rfl
    simp only [holder, Option.map_eq_none_iff]
    exact h _ (Nat.lt_of_le_of_lt Nat.and_le_right (by decide))
  have h2 : ∀ a, holder otherGeometry a = none := fun a => by
    have h : ∀ i < 1, matchingWay (otherGeometry.set i) (tagOf otherGeometry.cfg a) = none := fun i hi => by
      interval_cases i; rfl
    simp only [holder, Option.map_eq_none_iff]
    exact h _ (Nat.lt_of_le_of_lt Nat.and_le_right (by decide))
  intro a
  simp only [logical, h1, h2]
  rfl

end Sys2Proof.Tests
end

section
/-! The machine stays in order: the reset state is, and every fetch, instruction and step that answers keeps the
invariant (10_state.md R29 to R31). From it, the LRU total order and the uniqueness of tags. -/

namespace Sys2Proof.Machine

/-! ## The line array after reset -/

theorem set_resetWith {c : Config} {m : Memory} {i : Nat} (hi : i < c.setCount) :
    (State.resetWith c m).set i = List.replicate c.associativity (Line.afterReset c) := by
  simp [State.set, State.resetWith, linesAfterReset, List.getD_eq_getElem?_getD, hi]

/-- Every line that stands in the array after reset is a line after reset. -/
theorem eq_afterReset_of_mem {c : Config} {m : Memory} {i : Nat} {l : Line}
    (hl : l ∈ (State.resetWith c m).set i) : l = Line.afterReset c := by
  have hi : i < c.setCount := by
    simpa [State.resetWith, linesAfterReset] using lt_of_set_ne_nil (List.ne_nil_of_mem hl)
  rw [set_resetWith hi] at hl
  exact List.eq_of_mem_replicate hl

theorem validLines_resetWith (c : Config) (m : Memory) (i : Nat) :
    validLines ((State.resetWith c m).set i) = [] :=
  List.filter_eq_nil_iff.2 fun l hl => by simp [eq_afterReset_of_mem hl, lineAfterReset_valid]

theorem lruOrder_resetWith (c : Config) (m : Memory) (i : Nat) : LruOrder ((State.resetWith c m).set i) := by
  simp [LruOrder, validLines_resetWith]

theorem lineOk_afterReset {s : State} (i : Nat) (hA : 1 ≤ s.cfg.associativity) :
    LineOk s i (Line.afterReset s.cfg) :=
  ⟨List.length_replicate, Nat.sub_one_lt_of_le hA le_rfl, nofun, fun _ => ⟨rfl, rfl, rfl⟩⟩

/-- Reset with a well-formed configuration over a memory in canonical form is a state in order (R43, R181). -/
theorem inv_resetWith {c : Config} {m : Memory} (hc : c.wf) (hm : Memory.wf c.memFill c.memWords m) :
    Inv (State.resetWith c m) := by
  have hA : 1 ≤ c.associativity := (of_decide_eq_true hc : c.constraints).1
  refine ⟨hc, ⟨List.length_replicate, fun i hi => ?_⟩, hm, List.length_replicate⟩
  have hset : (State.resetWith c m).set i = _ := set_resetWith (List.mem_range.1 hi)
  refine ⟨by rw [hset]; exact List.length_replicate, lruOrder_resetWith c m i,
    by simp [TagsUnique, validLines_resetWith], ?_, fun l hl => ?_⟩
  · rw [hset]
    exact List.pairwise_replicate.2 (.inr id)
  · rw [eq_afterReset_of_mem hl]
    exact lineOk_afterReset (s := State.resetWith c m) i hA

theorem applyReset_keeps_inv {s : State} (h : Inv s) : Inv (applyReset s) :=
  (inv_resetWith h.cfg_wf h.mem).congr rfl rfl rfl rfl

/-! ## Every step keeps the machine in order -/

theorem putReg_keeps_inv {s : State} (h : Inv s) (n : Nat) (v : Word) : Inv (s.putReg n v) :=
  h.congr rfl rfl rfl List.length_set

/-- Every instruction that answers keeps the machine in order. -/
theorem exec_keeps_inv {i : Instr} {s t : State} (h : Inv s) (ht : exec i s = .next t) : Inv t := by
  cases i with
  | ifetch a =>
    obtain ⟨r, hr, rfl⟩ := exec_ifetch_eq_next.1 ht
    exact (ccRead_keeps h (ccRead_eq_next.2 ⟨r, hr, rfl⟩)).1
  | load a =>
    obtain ⟨r, hr, rfl⟩ := exec_load_eq_next.1 ht
    exact (ccRead_keeps h (ccRead_eq_next.2 ⟨r, hr, rfl⟩)).1
  | store a v => exact (ccStore_keeps h ht).1
  | flush => exact (ccFlush_keeps h ht).1
  | add f0 f1 f2 =>
    obtain ⟨-, -, rfl⟩ := exec_add_eq_next.1 ht
    exact putReg_keeps_inv h.advancePc _ _
  | nand f0 f1 f2 =>
    obtain ⟨-, -, rfl⟩ := exec_nand_eq_next.1 ht
    exact putReg_keeps_inv h.advancePc _ _
  | lw f0 f1 f2 =>
    obtain ⟨-, -, y, hy, rfl⟩ := exec_lw_eq_next.1 ht
    exact putReg_keeps_inv (ccRead_keeps h.advancePc hy).1 _ _
  | sw f0 f1 f2 =>
    obtain ⟨-, -, ht⟩ := exec_sw_eq_next.1 ht
    exact (ccStore_keeps h.advancePc ht).1
  | beq f0 f1 f2 =>
    obtain ⟨-, -, rfl⟩ := exec_beq_eq_next.1 ht
    split
    · exact h.congr rfl rfl rfl rfl
    · exact h.advancePc
  | jalr f0 f1 =>
    obtain ⟨-, -, rfl⟩ := exec_jalr_eq_next.1 ht
    exact (putReg_keeps_inv h.advancePc _ _).congr rfl rfl rfl rfl
  | halt => exact (ccFlush_keeps h (exec_halt_eq ▸ ht)).1
  | noop =>
    obtain ⟨-, rfl⟩ := exec_noop_eq_next.1 ht
    exact h.advancePc

/-- The fetch of the next instruction, from either requester, keeps the machine in order. -/
theorem fetchNext_keeps_inv {s : State} {f : Fetched} (h : Inv s) (hf : fetchNext s = .next f) : Inv f.state := by
  obtain ⟨-, y, hy, -, hs⟩ | ⟨c, rest, -, -, hs⟩ := fetchNext_eq_next.1 hf
  · rw [hs]; exact (ccRead_keeps h hy).1
  · rw [hs]; exact h.congr rfl rfl rfl rfl

/-- Every step that answers keeps the machine in order. -/
theorem step_keeps_inv {s t : State} (h : Inv s) (ht : step s = .next t) : Inv t := by
  obtain ⟨-, rfl⟩ | ⟨-, f, hf, he⟩ := step_eq_next.1 ht
  · exact applyReset_keeps_inv h
  · exact exec_keeps_inv (fetchNext_keeps_inv h hf) he

/-! ## INSTALL as a primitive -/

/-- Everything INSTALL can do where it answers (R104). -/
theorem install_eq_next {op : AccessOp} {a : Int} {s : State} {q : Placed} (hq : install op a s = .next q) :
    addressOk s.cfg a ∧ ∃ p, makeRoom a.toNat s = .next p ∧ q = ⟨fill a.toNat p.handle p.state, p.handle⟩ := by
  by_cases ha : addressOk s.cfg a
  · rw [install_of_ok ha] at hq
    obtain ⟨p, hp, hq⟩ := andThen_eq_next.1 hq
    cases hq
    exact ⟨ha, p, hp, rfl⟩
  · rw [install, if_neg ha] at hq
    exact absurd hq raiseAddressOutOfRange_ne_next

/-- INSTALL after a miss keeps the machine in order, and its configuration. -/
theorem install_keeps_inv {op : AccessOp} {a : Int} {s : State} {q : Placed} (h : Inv s)
    (hn : holder s a.toNat = none) (hq : install op a s = .next q) : Inv q.state ∧ q.state.cfg = s.cfg := by
  obtain ⟨ha, p, hp, rfl⟩ := install_eq_next hq
  obtain ⟨hInv, hslot, hnone, hcfg, -⟩ := makeRoom_keeps h hn hp
  exact ⟨hInv.fill hslot hnone (by rw [hcfg]; exact ha.2), hcfg⟩

/-! ## Ages of a set in order -/

theorem CacheOk.lruOrder {s : State} (h : CacheOk s) {i : Nat} (hi : i < s.cfg.setCount) : LruOrder (s.set i) :=
  (h.setOk hi).2.1

theorem CacheOk.tagsUnique {s : State} (h : CacheOk s) {i : Nat} (hi : i < s.cfg.setCount) : TagsUnique (s.set i) :=
  (h.setOk hi).2.2.1

/-- The ages of a full set are `0 .. A-1` (R29). -/
theorem CacheOk.ages_of_full {s : State} (h : CacheOk s) {i : Nat} (hi : i < s.cfg.setCount)
    (hfull : ∀ l ∈ s.set i, l.valid = true) :
    ((s.set i).map fun l => l.lruAge).Perm (List.range s.cfg.associativity) := by
  have hall : validLines (s.set i) = s.set i := List.filter_eq_self.2 hfull
  have hlru := h.lruOrder hi
  rwa [LruOrder, hall, h.length_set hi] at hlru

/-- An invalid line has age `A-1` (R31 (a)). -/
theorem CacheOk.age_of_invalid {s : State} (h : CacheOk s) {i : Nat} (hi : i < s.cfg.setCount) {l : Line}
    (hl : l ∈ s.set i) (hv : l.valid = false) : l.lruAge = s.cfg.associativity - 1 := by
  obtain ⟨w, hw, rfl⟩ := exists_way_of_mem hl
  exact ((h.lineOk hi (h.length_set hi ▸ hw)).2.2.2 hv).1

/-- A valid line is younger than every invalid line of its set: fewer than `A` lines are valid there. -/
theorem CacheOk.age_lt_of_invalid {s : State} (h : CacheOk s) {i : Nat} (hi : i < s.cfg.setCount) {l l' : Line}
    (hl : l ∈ s.set i) (hv : l.valid = false) (hl' : l' ∈ s.set i) (hv' : l'.valid = true) :
    l'.lruAge < l.lruAge := by
  have hage := h.age_of_invalid hi hl hv
  have hcount := ((lruOrder_iff _).1 (h.lruOrder hi)).2 l' hl' hv'
  have hnotFull := countP_valid_lt_of_invalid hl hv
  rw [h.length_set hi] at hnotFull
  omega

/-! ## Tags and ACCESS -/

/-- A miss of ACCESS finds no valid line with the tag (R101, R121). -/
theorem no_tag_of_access_miss {op : AccessOp} {a : Int} {s : State} {r : Accessed} (hr : access op a s = .next r)
    (hm : r.hit = false) :
    ∀ l ∈ s.set (setIndexOf s.cfg a.toNat), l.valid = true → l.tag ≠ tagOf s.cfg a.toNat := by
  obtain ⟨-, -, ⟨k, -, rfl⟩ | ⟨hn, -⟩⟩ := access_eq_next hr
  · cases hm
  · exact holder_eq_none.1 hn

/-- A hit of ACCESS changes no valid bit and no tag: it is TOUCHLRU of the line found. -/
theorem keys_of_access_hit {op : AccessOp} {a : Int} {s : State} {r : Accessed} (hr : access op a s = .next r)
    (hh : r.hit = true) (j : Nat) :
    (r.state.set j).map (fun l => (l.valid, l.tag)) = (s.set j).map fun l => (l.valid, l.tag) := by
  obtain ⟨-, -, ⟨k, hk, rfl⟩ | ⟨-, p, -, rfl⟩⟩ := access_eq_next hr
  · obtain ⟨-, hw, -⟩ := holder_eq_some hk
    exact keys_touchLru (s := countHit s) hw j
  · cases hh

end Sys2Proof.Machine

namespace Sys2Proof.Proofs

open Sys2Proof.Machine

/-- Settles O52: reset leaves no line valid, and TOUCHLRU, INSTALL and every step keep the invariant, from which the
ages of each set are read. -/
theorem lruTotalOrderHolds : Obligations.LruTotalOrderHolds := by
  refine ⟨lruOrder_resetWith, fun s k h hv i hi => ?_, fun op s a p h hn hp i hi => ?_, fun s t h ht i hi => ?_⟩
  · exact (h.touchLru hv).cache.lruOrder hi
  · obtain ⟨hInv, hcfg⟩ := install_keeps_inv h hn hp
    exact hInv.cache.lruOrder (hcfg ▸ hi)
  · have hcache := (step_keeps_inv h ht).cache
    exact ⟨hcache.lruOrder hi, hcache.ages_of_full hi, fun l hl hv =>
      ⟨hcache.age_of_invalid hi hl hv, fun l' hl' hv' => hcache.age_lt_of_invalid hi hl hv hl' hv'⟩⟩

/-- Settles O53: every step keeps the invariant; a miss of LOOKUP says that no valid line has the tag, and a hit is
TOUCHLRU, which writes ages alone. -/
theorem tagsStayUnique : Obligations.TagsStayUnique :=
  ⟨fun _ _ h ht _ hi => (step_keeps_inv h ht).cache.tagsUnique hi,
    fun _ _ _ _ hr => ⟨no_tag_of_access_miss hr, keys_of_access_hit hr⟩⟩

end Sys2Proof.Proofs
end

section
/-! The split of an address into tag, set index and block offset loses nothing, and the tag is bounded (R71). -/

namespace Sys2Proof.Machine

/-! ## The tag as a function of the address -/

/-- Tags grow with addresses, so the last address of memory bounds them all. -/
theorem tagOf_le_tagOf (c : Config) {a b : Nat} (h : a ≤ b) : tagOf c a ≤ tagOf c b := by
  rw [tagOf_eq_div, tagOf_eq_div]
  exact Nat.div_le_div_right h

theorem tagOf_eq_zero_of_lt (c : Config) {a : Nat} (h : a < 2 ^ (c.blockOffsetBits + c.setIndexBits)) :
    tagOf c a = 0 :=
  Nat.shiftRight_eq_zero a _ h

end Sys2Proof.Machine

namespace Sys2Proof.Proofs

open Sys2Proof.Machine

/-- Settles O11: the expression of R71 is the model's `addressOf` of the three fields, and its bound on the tag is
the tag of the last address. -/
theorem addressSplitIsLossless : Obligations.AddressSplitIsLossless := by
  intro c a
  refine ⟨addressOf_fields c a, fun ha => ?_, fun hcover ha => ?_⟩
  · exact tagOf_le_tagOf c (Nat.le_sub_one_of_lt ha)
  · exact tagOf_eq_zero_of_lt c (ha.trans_le hcover)

end Sys2Proof.Proofs
end

section
/-! The fields of an address as functions of the address (R91 to R94), the base of a tag and set index (R95) and the
round trip between them (R96). -/

namespace Sys2Proof.Machine

/-! ## Widths of one -/

theorem blockOffsetBits_eq_zero {c : Config} (hB : c.blockSize = 1) : c.blockOffsetBits = 0 := by
  simpa [Config.blockSize] using hB

theorem setIndexBits_eq_zero {c : Config} (hS : c.setCount = 1) : c.setIndexBits = 0 := by
  simpa [Config.setCount] using hS

/-! ## The set index -/

theorem setIndexOf_of_blockSize_one {c : Config} (hB : c.blockSize = 1) (a : Nat) :
    setIndexOf c a = a &&& (c.setCount - 1) := by
  rw [setIndexOf, blockOffsetBits_eq_zero hB, Nat.shiftRight_zero, Nat.one_shiftLeft, Config.setCount]

/-- Consecutive blocks map to consecutive sets, modulo `S` (R92). -/
theorem setIndexOf_add_blockSize (c : Config) (a : Nat) :
    setIndexOf c (a + c.blockSize) = (setIndexOf c a + 1) % c.setCount := by
  rw [setIndexOf_eq_mod, setIndexOf_eq_mod, Nat.add_div_right _ (blockSize_pos c), Nat.mod_add_mod]

theorem setIndexOf_add_blockSize_mul_setCount (c : Config) (a : Nat) :
    setIndexOf c (a + c.blockSize * c.setCount) = setIndexOf c a := by
  rw [setIndexOf_eq_mod, setIndexOf_eq_mod, Nat.add_mul_div_left _ _ (blockSize_pos c), Nat.add_mod_right]

/-! ## The start of a block -/

theorem blockSize_dvd_blockStart (c : Config) (a : Nat) : c.blockSize ∣ blockStart c a :=
  ⟨a / c.blockSize, by rw [blockStart_eq_mul, Nat.mul_comm]⟩

theorem blockStart_eq_self_of_dvd {c : Config} {a : Nat} (h : c.blockSize ∣ a) : blockStart c a = a := by
  rw [blockStart_eq_mul, Nat.div_mul_cancel h]

theorem blockStart_eq_shift (c : Config) (a : Nat) :
    blockStart c a = (a >>> c.blockOffsetBits) <<< c.blockOffsetBits := by
  rw [blockStart_eq_mul, Nat.shiftLeft_eq, Nat.shiftRight_eq_div_pow, Config.blockSize]

/-- BLOCKSTART clears the bits of `B - 1` and keeps the others: it is `a & ~(B-1)` (R94). -/
theorem testBit_blockStart (c : Config) (a i : Nat) :
    (blockStart c a).testBit i = (a.testBit i && !(c.blockSize - 1).testBit i) := by
  rw [blockStart_eq_shift, Nat.testBit_shiftLeft, Nat.testBit_shiftRight, Config.blockSize,
    Nat.testBit_two_pow_sub_one]
  by_cases hi : c.blockOffsetBits ≤ i
  · simp [hi, Nat.not_lt.2 hi]
  · simp [hi, Nat.lt_of_not_le hi]

/-! ## The base of a tag and set index -/

/-- The two terms of LINEBASE have no bit in common, so `|` is `+` (R95). -/
theorem baseOf_eq_add (c : Config) {t i : Nat} (hi : i < c.setCount) :
    baseOf c t i = (t <<< (c.setIndexBits + c.blockOffsetBits)) + (i <<< c.blockOffsetBits) := by
  rw [baseOf_eq c hi, Nat.shiftLeft_eq, Nat.shiftLeft_eq, Nat.pow_add, ← Nat.mul_assoc, ← Nat.add_mul,
    Config.blockSize, Config.setCount]

theorem baseOf_of_setCount_one {c : Config} (hS : c.setCount = 1) (t : Nat) :
    baseOf c t 0 = t <<< c.blockOffsetBits := by
  rw [baseOf, setIndexBits_eq_zero hS, Nat.zero_add, Nat.zero_shiftLeft, Nat.or_zero]

theorem baseOf_of_blockSize_one {c : Config} (hB : c.blockSize = 1) (t i : Nat) :
    baseOf c t i = (t <<< c.setIndexBits) ||| i := by
  rw [baseOf, blockOffsetBits_eq_zero hB, Nat.add_zero, Nat.shiftLeft_zero]

/-- The addresses `LINEBASE + 0 .. LINEBASE + B-1` are those with the tag and set index of the line (R96 (c)). -/
theorem exists_offset_iff_tag_and_set (c : Config) {t i : Nat} (hi : i < c.setCount) (b : Nat) :
    (∃ k < c.blockSize, b = baseOf c t i + k) ↔ tagOf c b = t ∧ setIndexOf c b = i := by
  rw [← inBlock_baseOf_iff c hi]
  constructor
  · rintro ⟨k, hk, rfl⟩
    exact ⟨Nat.le_add_right _ _, Nat.add_lt_add_left hk _⟩
  · rintro ⟨hle, hlt⟩
    exact ⟨b - baseOf c t i, by omega, (Nat.add_sub_cancel' hle).symm⟩

/-! ## The worked example of R72: address 423 with `B = 4` and `S = 8` -/

theorem blockOffset_423 {c : Config} (hB : c.blockSize = 4) : blockOffset c 423 = 3 := by
  rw [blockOffset_eq_mod, hB]

theorem setIndexOf_423 {c : Config} (hB : c.blockSize = 4) (hS : c.setCount = 8) : setIndexOf c 423 = 1 := by
  rw [setIndexOf_eq_mod, hB, hS]

theorem tagOf_423 {c : Config} (hB : c.blockSize = 4) (hS : c.setCount = 8) : tagOf c 423 = 13 := by
  rw [tagOf_eq_div, hB, hS]

theorem blockStart_423 {c : Config} (hB : c.blockSize = 4) : blockStart c 423 = 420 := by
  rw [blockStart, blockOffset_423 hB]

theorem baseOf_13_1 {c : Config} (hB : c.blockSize = 4) (hS : c.setCount = 8) : baseOf c 13 1 = 420 := by
  rw [← blockStart_423 hB, ← baseOf_tag_setIndex, tagOf_423 hB hS, setIndexOf_423 hB hS]

theorem addressOf_13_1_3 {c : Config} (hB : c.blockSize = 4) (hS : c.setCount = 8) : addressOf c 13 1 3 = 423 := by
  rw [← tagOf_423 hB hS, ← setIndexOf_423 hB hS, ← blockOffset_423 hB, addressOf_fields]

end Sys2Proof.Machine

namespace Sys2Proof.Proofs

open Sys2Proof.Machine

/-- Settles O6: the mask of the low bits is the remainder modulo `B`, from which every clause is read. -/
theorem blockOffsetIsRemainder : Obligations.BlockOffsetIsRemainder := by
  refine fun c a => ⟨rfl, blockOffset_eq_mod c a, blockOffset_lt c a, fun hB => ?_, Nat.zero_and _, blockOffset_423⟩
  rw [blockOffset_eq_mod, hB, Nat.mod_one]

/-- Settles O8: the shift by `b + s` is the division by `B * S`, from which every clause is read. -/
theorem tagIsAllHighBits : Obligations.TagIsAllHighBits := by
  refine fun c a => ⟨rfl, tagOf_eq_div c a, fun ha => ?_, fun hB hS => ?_, tagOf_423⟩
  · rw [tagOf_eq_div, Nat.div_eq_of_lt ha]
  · rw [tagOf_eq_div, hB, hS, Nat.mul_one, Nat.div_one]

/-- Settles O7: the mask form is the block number modulo `S`, and the next block has the next block number. -/
theorem setIndexIsBlockNumberModuloSets : Obligations.SetIndexIsBlockNumberModuloSets := by
  refine fun c a => ⟨rfl, setIndexOf_eq_mod c a, setIndexOf_lt c a, fun hS => ?_,
    fun hB => setIndexOf_of_blockSize_one hB a, setIndexOf_add_blockSize c a,
    setIndexOf_add_blockSize_mul_setCount c a, setIndexOf_423⟩
  rw [setIndexOf_eq_mod, hS, Nat.mod_one]

/-- Settles O9: BLOCKSTART is the block number times `B`, a shift right and back left, so it clears the low bits. -/
theorem blockStartIsAligned : Obligations.BlockStartIsAligned := fun c a =>
  ⟨rfl, blockStart_eq_mul c a, testBit_blockStart c a, blockSize_dvd_blockStart c a, blockStart_le c a,
    lt_blockStart_add c a, fun hB => blockStart_eq_self_of_dvd (hB ▸ Nat.one_dvd a), blockStart_eq_self_of_dvd,
    blockStart_423⟩

/-- Settles O10: a set index below `S` fills no bit of the shifted tag, and the fields a fill writes are those of its
address. -/
theorem lineBaseReconstructsTheBlock : Obligations.LineBaseReconstructsTheBlock := by
  refine fun c l hi => ⟨rfl, baseOf_eq_add c hi, ?_, fun hS => ?_, fun hB => baseOf_of_blockSize_one hB _ _, ?_⟩
  · rintro a s rfl
    exact lineBase_filledLine a s
  · have hzero : l.setIndex = 0 := Nat.lt_one_iff.1 (hS ▸ hi)
    rw [lineBase, hzero, baseOf_of_setCount_one hS]
  · intro hB hS htag hset
    rw [lineBase, htag, hset, baseOf_13_1 hB hS]

/-- Settles O12: the fields of an address give it back, and the block of a base is the set of addresses with its tag
and set index. -/
theorem addressRoundTrip : Obligations.AddressRoundTrip := by
  refine fun c a a' => ⟨fun _ _ _ => rfl, addressOf_fields c a, baseOf_tag_setIndex c a, blockStart_eq_iff c,
    fun l hi => ⟨exists_offset_iff_tag_and_set c hi, fun k hk => ?_⟩, addressOf_13_1_3⟩
  obtain ⟨-, -, hoffset⟩ := tag_and_set_in_block c (t := l.tag) hi hk
  exact hoffset

end Sys2Proof.Proofs
end

section
/-! LOOKUP as a primitive: the range test, what a hit says and when it misses (R101). -/

namespace Sys2Proof.Machine

/-- In a set whose tags are unique, a hit is the only valid way with the tag (R102 (a)). -/
theorem way_eq_of_holder {s : State} {a w : Nat} {h : Handle} (hh : holder s a = some h)
    (ht : TagsUnique (s.set h.set)) (hv : (s.line h.set w).valid = true)
    (htag : (s.line h.set w).tag = tagOf s.cfg a) : w = h.way := by
  rw [(holder_eq_some hh).1] at ht hv htag
  have hw := holder_of_line ht hv htag
  rw [hh, Option.some.injEq] at hw
  rw [hw]

/-- What LOOKUP answers where each set has one line: that line, if it is valid and has the tag. -/
theorem holder_of_set_eq_singleton {s : State} {a : Nat} {l : Line} (h : s.set (setIndexOf s.cfg a) = [l]) :
    holder s a = if l.valid = true ∧ l.tag = tagOf s.cfg a then some ⟨setIndexOf s.cfg a, 0⟩ else none := by
  simp only [holder, h, matchingWay, List.findIdx?_singleton, Bool.and_eq_true, beq_iff_eq]
  split <;> rfl

/-- LOOKUP in the geometry of the example of R101, `B = 1`, `S = 4`, in a set of one line. -/
theorem lookup_of_single_word_blocks {op : AccessOp} {s : State} {l : Line} (hB : s.cfg.blockSize = 1)
    (hS : s.cfg.setCount = 4) {a : Nat} (ha : a < s.cfg.memWords) (hl : s.set (a % 4) = [l]) :
    lookup op a s = .next (if l.valid = true ∧ l.tag = a / 4 then some ⟨a % 4, 0⟩ else none) := by
  have hset : setIndexOf s.cfg a = a % 4 := by rw [setIndexOf_eq_mod, hB, hS, Nat.div_one]
  have htag : tagOf s.cfg a = a / 4 := by rw [tagOf_eq_div, hB, hS, Nat.one_mul]
  rw [lookup_of_valid ⟨by omega, by omega⟩, Int.toNat_natCast, holder_of_set_eq_singleton (hset ▸ hl), hset, htag]

end Sys2Proof.Machine

namespace Sys2Proof.Proofs

open Sys2Proof.Machine

/-- Settles O13: LOOKUP is the range test before `holder`, whose answer is a matching line or the absence of one. -/
theorem lookupFindsTheMatchingLine : Obligations.LookupFindsTheMatchingLine := by
  refine fun op s a => ⟨lookup_of_not_valid, fun ha => ⟨holder s a.toNat, lookup_of_valid ha, fun h hh => ?_,
    holder_eq_none.1⟩, fun hB hS hM => ⟨fun l hl hv ht => ⟨?_, ?_⟩, fun l hl hv => ?_⟩⟩
  · obtain ⟨hset, hway, hvalid, htag⟩ := holder_eq_some hh
    exact ⟨hset, hway, hvalid, htag, fun hu w _ hv ht => way_eq_of_holder hh hu hv ht⟩
  · exact (lookup_of_single_word_blocks hB hS (a := 4) (by omega) hl).trans (by simp [hv, ht])
  · exact (lookup_of_single_word_blocks hB hS (a := 0) (by omega) hl).trans (by simp [ht])
  · exact (lookup_of_single_word_blocks hB hS (a := 5) (by omega) hl).trans (by simp [hv])

end Sys2Proof.Proofs
end

section
/-! TOUCHLRU as a primitive: what the promotion of R103 does to a set, and its corner cases. -/

namespace Sys2Proof.Machine

/-! ## Promotion of a line of the set -/

/-- A line of age 0 is already the most recent: its promotion changes nothing (R103 (a)). -/
theorem promote_of_age_zero {w : Nat} {ls : List Line} (hw : w < ls.length) (h : ls[w].lruAge = 0) :
    promote w 0 ls[w] ls = ls := by
  have hid : ls.map (ageBelow 0) = ls := (List.map_congr_left fun l _ => ageBelow_zero l).trans (List.map_id' ls)
  have hself : { ls[w] with lruAge := 0 } = ls[w] := by rw [← h]
  rw [promote, hid, hself, List.set_getElem_self]

/-- No age leaves `0 .. A-1` (R103 (e)): a line that ages was younger than the pivot. -/
theorem lruAge_lt_of_mem_promote {w p A : Nat} {l x : Line} {ls : List Line} (hp : p < A)
    (hA : ∀ y ∈ ls, y.lruAge < A) (hx : x ∈ promote w p l ls) : x.lruAge < A := by
  obtain rfl | ⟨y, hy, rfl⟩ := mem_promote hx
  · exact Nat.zero_lt_of_lt hp
  · have hyA := hA y hy
    rw [ageBelow_lruAge]
    split
    · omega
    · exact hyA

/-- The promotion of a valid line keeps the LRU total order (R103 (f)): its age is its own among the valid lines. -/
theorem lruOrder_promote_self {w : Nat} {ls : List Line} (hw : w < ls.length) (hv : ls[w].valid = true)
    (h : LruOrder ls) : LruOrder (promote w ls[w].lruAge ls[w] ls) := by
  obtain ⟨hdistinct, hbound⟩ := (lruOrder_iff ls).1 h
  rw [pairwise_ways fun a b hab hb ha he => hab ha hb he.symm] at hdistinct
  exact lruOrder_promote hw hv h (fun j hj hjw hjv => hdistinct j w hj hw hjw hjv hv)
    fun _ => hbound _ (List.getElem_mem hw) hv

/-- The ages after a promotion depend on the valid bits and the ages before it alone. -/
theorem ages_promote (w p : Nat) (l : Line) (ls : List Line) :
    (promote w p l ls).map (fun l => l.lruAge) =
      ((ls.map fun l => (l.valid, l.lruAge)).map fun x =>
        if x.1 = true ∧ x.2 < p then x.2 + 1 else x.2).set w 0 := by
  rw [promote, List.map_set, List.map_map, List.map_map]
  exact congrArg (List.set · w 0) (List.map_congr_left fun l _ => ageBelow_lruAge p l)

/-- The worked example of R103: ages `[0, 1, 2, 3]`, way 2 touched. -/
theorem ages_promote_example {ls : List Line} (hw : 2 < ls.length)
    (h : (ls.map fun l => (l.valid, l.lruAge)) = [(true, 0), (true, 1), (true, 2), (true, 3)]) :
    (promote 2 ls[2].lruAge ls[2] ls).map (fun l => l.lruAge) = [1, 2, 0, 3] := by
  have hpivot : ls[2].lruAge = 2 := by
    have hget : (ls.map fun l => (l.valid, l.lruAge))[2]? = some (true, 2) := by rw [h]; rfl
    rw [List.getElem?_map, List.getElem?_eq_getElem hw] at hget
    exact congrArg Prod.snd (Option.some.inj hget)
  rw [hpivot, ages_promote, h]
  rfl

/-! ## TOUCHLRU in the state -/

/-- Putting the lines of a set back changes nothing. -/
theorem putSet_set_self (s : State) (i : Nat) : s.putSet i (s.set i) = s := by
  have hlines : s.lines.set i (s.set i) = s.lines := by
    by_cases hi : i < s.lines.length
    · rw [State.set, List.getD_eq_getElem _ _ hi, List.set_getElem_self]
    · exact List.set_eq_of_length_le (Nat.le_of_not_lt hi)
  rw [State.putSet, hlines]

variable {s : State} {h : Handle}

theorem set_touchLru_same (hw : h.way < (s.set h.set).length) : (touchLru h s).set h.set =
    promote h.way (s.set h.set)[h.way].lruAge (s.set h.set)[h.way] (s.set h.set) := by
  have hi : h.set < s.lines.length := lt_of_set_ne_nil fun hnil => by simp [hnil] at hw
  rw [touchLru, set_putSet_same hi, line_eq_getElem hw]

theorem set_touchLru_ne {i : Nat} (hi : i ≠ h.set) : (touchLru h s).set i = s.set i :=
  set_putSet_ne hi.symm

theorem touchLru_of_age_zero (hw : h.way < (s.set h.set).length) (hage : (s.line h.set h.way).lruAge = 0) :
    touchLru h s = s := by
  rw [line_eq_getElem hw] at hage
  rw [touchLru, line_eq_getElem hw, hage, promote_of_age_zero hw hage, putSet_set_self]

end Sys2Proof.Machine

namespace Sys2Proof.Proofs

open Sys2Proof.Machine

/-- Settles O14: TOUCHLRU puts into one set the promotion of its line, which keeps the bound and the order of the
ages. -/
theorem touchLruPromotesTheLine : Obligations.TouchLruPromotesTheLine := by
  intro s h _ hw hv
  have hset := set_touchLru_same hw
  refine ⟨?_, fun w hne => ?_, rfl, List.length_set, length_set_touchLru h s h.set, fun i => set_touchLru_ne,
    touchLru_of_age_zero hw, fun hA => ⟨fun hone => ?_, ?_⟩, ?_, ?_⟩
  · rw [line_touchLru hw, if_pos rfl, if_pos rfl]
  · rw [line_touchLru hw, if_pos rfl, if_neg hne, ageBelow]
  · have hage := hA _ (line_mem hw)
    exact touchLru_of_age_zero hw (by omega)
  · rw [hset]
    exact fun l hl => lruAge_lt_of_mem_promote (hA _ (List.getElem_mem hw)) hA hl
  · rw [hset]
    rw [line_eq_getElem hw] at hv
    exact lruOrder_promote_self hw hv
  · obtain ⟨i, w⟩ := h
    rintro hages rfl
    rw [hset]
    exact ages_promote_example hw hages

end Sys2Proof.Proofs
end

section
/-! The access commands seen through their one ACCESS (R121): what each command adds to it, the counters and the
word transfers it emits (R127), the blocks it makes present, and the access that follows in the same block. -/

namespace Sys2Proof.Machine

/-! ## What a command adds to its ACCESS -/

/-- The access commands of address `a` (R122 to R124); `v` is the word a STORE brings. -/
abbrev IsAccess (i : Instr) (a v : Word) : Prop := i = .ifetch a ∨ i = .load a ∨ i = .store a v

/-- What a command has added in `t` to its ACCESS `r` of `a`: one word transfer, and no change of a counter, of the
configuration, of the lifecycle, or of the blocks present. -/
structure WordTransferred (a : Nat) (r : Accessed) (t : State) : Prop where
  cfg : t.cfg = r.state.cfg
  ccState : t.ccState = r.state.ccState
  hitCount : t.hitCount = r.state.hitCount
  missCount : t.missCount = r.state.missCount
  events : ∃ x, (x = .c2p ∨ x = .p2c) ∧ t.events = r.state.events ++ [⟨a, 1, x⟩]
  holder : ∀ b, holder t b = holder r.state b

theorem wordTransferred_readReply (a : Nat) (r : Accessed) : WordTransferred a r (readReply a r).state :=
  ⟨rfl, rfl, rfl, rfl, ⟨.c2p, .inl rfl, rfl⟩, fun _ => rfl⟩

theorem wordTransferred_storedState {op : AccessOp} {a : Int} {s : State} {r : Accessed} (v : Word)
    (hr : access op a s = .next r) : WordTransferred a.toNat r (storedState a.toNat v r) := by
  obtain ⟨-, hway, -⟩ := access_frame hr
  exact ⟨rfl, rfl, rfl, rfl, ⟨.p2c, .inr rfl, rfl⟩,
    holder_store (s := emit a.toNat 1 .p2c r.state) (a := a.toNat) (v := v) hway⟩

/-- Everything an access command can do where it answers. -/
theorem exec_access_eq_next {i : Instr} {a v : Word} {s t : State} (hi : IsAccess i a v)
    (ht : exec i s = .next t) : ∃ op r, access op (a : Int) s = .next r ∧ WordTransferred a r t := by
  obtain rfl | rfl | rfl := hi
  · obtain ⟨r, hr, rfl⟩ := exec_ifetch_eq_next.1 ht
    exact ⟨_, r, hr, wordTransferred_readReply a r⟩
  · obtain ⟨r, hr, rfl⟩ := exec_load_eq_next.1 ht
    exact ⟨_, r, hr, wordTransferred_readReply a r⟩
  · obtain ⟨r, hr, rfl⟩ := exec_store_eq_next.1 ht
    exact ⟨_, r, hr, wordTransferred_storedState v hr⟩

/-- An access command of an accepted address completes in a machine in order and READY. -/
theorem exec_access_completes {i : Instr} {a v : Word} {s : State} (h : Inv s) (hready : s.ccState = .ready)
    (ha : addressOk s.cfg (a : Int)) (hi : IsAccess i a v) : ∃ t, exec i s = .next t := by
  obtain rfl | rfl | rfl := hi
  · obtain ⟨r, hr⟩ := access_completes (op := .ifetch) h hready ha
    exact ⟨_, exec_ifetch_eq_next.2 ⟨r, hr, rfl⟩⟩
  · obtain ⟨r, hr⟩ := access_completes (op := .load) h hready ha
    exact ⟨_, exec_load_eq_next.2 ⟨r, hr, rfl⟩⟩
  · obtain ⟨r, hr⟩ := access_completes (op := .store) h hready ha
    exact ⟨_, exec_store_eq_next.2 ⟨r, hr, rfl⟩⟩

/-! ## The counters -/

/-- An access command moves exactly one counter, by 1, according to its LOOKUP (R127). -/
theorem exec_access_counts_its_lookup {i : Instr} {a v : Word} {s t : State} (hi : IsAccess i a v)
    (ht : exec i s = .next t) :
    t.hitCount = s.hitCount + (if (holder s a).isSome then 1 else 0) ∧
      t.missCount = s.missCount + (if (holder s a).isSome then 0 else 1) := by
  obtain ⟨op, r, hr, htr⟩ := exec_access_eq_next hi ht
  obtain ⟨-, -, -, -, -, -, -, hhit, hmiss⟩ := access_frame hr
  exact ⟨htr.hitCount.trans hhit, htr.missCount.trans hmiss⟩

/-- The accesses performed, which are the word transfers emitted. -/
def wordTransfers (es : List Event) : Nat := (es.filter Event.isWordTransfer).length

theorem wordTransfers_append (es es' : List Event) :
    wordTransfers (es ++ es') = wordTransfers es + wordTransfers es' := by
  simp [wordTransfers]

theorem wordTransfers_evictionEvents (s : State) (k : Handle) : wordTransfers (evictionEvents s k) = 0 := by
  rw [evictionEvents]
  split <;> rfl

/-- An access emits one word transfer, on a hit and on a miss (R126). -/
theorem wordTransfers_accessEvents {s : State} {a : Nat} {x : EventKind} (hx : x = .c2p ∨ x = .p2c) :
    wordTransfers (accessEvents s a x) = 1 := by
  rw [accessEvents]
  split
  · obtain rfl | rfl := hx <;> rfl
  · have hfill : wordTransfers [⟨blockStart s.cfg a, s.cfg.blockSize, .m2c⟩, ⟨a, 1, x⟩] = 1 := by
      obtain rfl | rfl := hx <;> rfl
    rw [wordTransfers_append, hfill]
    split
    · rw [wordTransfers_evictionEvents]
    · rfl

theorem wordTransfers_flushEvents (s : State) : wordTransfers (flushEvents s) = 0 := by
  rw [wordTransfers, flushEvents, List.length_eq_zero_iff, List.filter_eq_nil_iff]
  intro e he
  obtain ⟨k, -, rfl⟩ := List.mem_map.1 he
  exact Bool.false_ne_true

/-- From `s` to `t` no counter falls, and the counters together rise by the accesses performed (R127). -/
structure AccessesCounted (s t : State) : Prop where
  hitCount_le : s.hitCount ≤ t.hitCount
  missCount_le : s.missCount ≤ t.missCount
  sum : t.hitCount + t.missCount + wordTransfers s.events = s.hitCount + s.missCount + wordTransfers t.events

theorem AccessesCounted.of_eq {s t : State} (hh : t.hitCount = s.hitCount) (hm : t.missCount = s.missCount)
    (he : wordTransfers t.events = wordTransfers s.events) : AccessesCounted s t :=
  ⟨hh.ge, hm.ge, by rw [hh, hm, he]⟩

theorem AccessesCounted.trans {s t u : State} (h : AccessesCounted s t) (h' : AccessesCounted t u) :
    AccessesCounted s u :=
  ⟨h.hitCount_le.trans h'.hitCount_le, h.missCount_le.trans h'.missCount_le, by
    have h1 := h.sum
    have h2 := h'.sum
    omega⟩

theorem AccessesCounted.conservation {s t : State} (h : AccessesCounted s t) (hs : Conservation s) :
    Conservation t := by
  have hsum := h.sum
  unfold wordTransfers at hsum
  unfold Conservation at *
  omega

theorem advancePc_counted (s : State) : AccessesCounted s (advancePc s) := .of_eq rfl rfl rfl

/-- A command counts its ACCESS: one counter and one word transfer more. -/
theorem WordTransferred.counted {op : AccessOp} {a : Int} {s t : State} {r : Accessed}
    (htr : WordTransferred a.toNat r t) (hr : access op a s = .next r) : AccessesCounted s t := by
  obtain ⟨-, -, -, -, -, -, -, hhit, hmiss⟩ := access_frame hr
  rw [← htr.hitCount] at hhit
  rw [← htr.missCount] at hmiss
  obtain ⟨x, hx, hev⟩ := htr.events
  rw [access_events hr x] at hev
  have hwords : wordTransfers t.events = wordTransfers s.events + 1 := by
    rw [hev, wordTransfers_append, wordTransfers_accessEvents hx]
  refine ⟨by omega, by omega, ?_⟩
  rw [hhit, hmiss, hwords]
  split <;> omega

theorem ccRead_counted {op : AccessOp} {a : Int} {s : State} {y : Reply} (hy : ccRead op a s = .next y) :
    AccessesCounted s y.state := by
  obtain ⟨r, hr, rfl⟩ := ccRead_eq_next.1 hy
  exact (wordTransferred_readReply a.toNat r).counted hr

theorem ccStore_counted {a : Int} {v : Word} {s t : State} (ht : ccStore a v s = .next t) :
    AccessesCounted s t := by
  obtain ⟨r, hr, rfl⟩ := ccStore_eq_next.1 ht
  exact (wordTransferred_storedState v hr).counted hr

theorem ccFlush_counted {s t : State} (ht : ccFlush s = .next t) : AccessesCounted s t := by
  obtain ⟨-, -, hhit, hmiss, -, -, -, -, -, -, hev⟩ := ccFlush_frame ht
  exact .of_eq hhit hmiss (by rw [hev, wordTransfers_append, wordTransfers_flushEvents, Nat.add_zero])

/-- Every instruction that answers counts the accesses it performs. -/
theorem exec_counted {i : Instr} {s t : State} (ht : exec i s = .next t) : AccessesCounted s t := by
  cases i with
  | ifetch a =>
    obtain ⟨r, hr, rfl⟩ := exec_ifetch_eq_next.1 ht
    exact ccRead_counted (ccRead_eq_next.2 ⟨r, hr, rfl⟩)
  | load a =>
    obtain ⟨r, hr, rfl⟩ := exec_load_eq_next.1 ht
    exact ccRead_counted (ccRead_eq_next.2 ⟨r, hr, rfl⟩)
  | store a v => exact ccStore_counted ht
  | flush => exact ccFlush_counted ht
  | add f0 f1 f2 =>
    obtain ⟨-, -, rfl⟩ := exec_add_eq_next.1 ht
    exact .of_eq rfl rfl rfl
  | nand f0 f1 f2 =>
    obtain ⟨-, -, rfl⟩ := exec_nand_eq_next.1 ht
    exact .of_eq rfl rfl rfl
  | lw f0 f1 f2 =>
    obtain ⟨-, -, y, hy, rfl⟩ := exec_lw_eq_next.1 ht
    exact ((advancePc_counted s).trans (ccRead_counted hy)).trans (.of_eq rfl rfl rfl)
  | sw f0 f1 f2 =>
    obtain ⟨-, -, ht⟩ := exec_sw_eq_next.1 ht
    exact (advancePc_counted s).trans (ccStore_counted ht)
  | beq f0 f1 f2 =>
    obtain ⟨-, -, rfl⟩ := exec_beq_eq_next.1 ht
    split
    · exact .of_eq rfl rfl rfl
    · exact advancePc_counted s
  | jalr f0 f1 =>
    obtain ⟨-, -, rfl⟩ := exec_jalr_eq_next.1 ht
    exact .of_eq rfl rfl rfl
  | halt => exact ccFlush_counted (exec_halt_eq ▸ ht)
  | noop =>
    obtain ⟨-, rfl⟩ := exec_noop_eq_next.1 ht
    exact advancePc_counted s

/-- So does the fetch, from either requester: that of the engine is an access. -/
theorem fetchNext_counted {s : State} {f : Fetched} (hf : fetchNext s = .next f) : AccessesCounted s f.state := by
  obtain ⟨-, y, hy, -, hs⟩ | ⟨c, rest, -, -, hs⟩ := fetchNext_eq_next.1 hf
  · rw [hs]; exact ccRead_counted hy
  · rw [hs]; exact .of_eq rfl rfl rfl

/-- Every step that answers and is no reset counts the accesses it performs. -/
theorem step_counted {s t : State} (hrst : s.rst = false) (ht : step s = .next t) : AccessesCounted s t := by
  rw [step_of_running hrst] at ht
  obtain ⟨f, hf, he⟩ := andThen_eq_next.1 ht
  exact (fetchNext_counted hf).trans (exec_counted he)

/-! ## The blocks present -/

/-- After reset no block is present (R43). -/
theorem holder_resetWith (c : Config) (m : Memory) (a : Nat) : holder (State.resetWith c m) a = none :=
  holder_eq_none.2 fun l hl hv => by
    rw [eq_afterReset_of_mem hl, lineAfterReset_valid] at hv
    cases hv

/-- A fill makes no block present but the one it brings in: a line of the set is the filled one or an older one. -/
theorem holder_fill_of_ne {s : State} {a b : Nat} {k : Handle} (hk : k.set = setIndexOf s.cfg a)
    (hb : holder s b = none) (hne : blockStart s.cfg b ≠ blockStart s.cfg a) : holder (fill a k s) b = none := by
  rw [holder_eq_none] at hb ⊢
  intro l hl hv
  rw [fill_cfg] at hl ⊢
  rw [fill, set_congr (emit_lines ..), set_putSet] at hl
  split at hl
  · rename_i hset
    have hidx : setIndexOf s.cfg a = setIndexOf s.cfg b := hk.symm.trans hset.1
    obtain rfl | ⟨y, hy, rfl⟩ := mem_promote hl
    · exact fun htag => hne ((blockStart_eq_iff s.cfg).2 ⟨htag.symm, hidx.symm⟩)
    · rw [ageBelow_valid] at hv
      rw [ageBelow_tag]
      exact hb y (hset.1 ▸ hy) hv
  · exact hb l hl hv

/-- An access makes no block present but its own. -/
theorem holder_access_of_ne {op : AccessOp} {a : Int} {s : State} {r : Accessed} {b : Nat}
    (hr : access op a s = .next r) (hb : holder s b = none) (hne : blockStart s.cfg b ≠ blockStart s.cfg a.toNat) :
    holder r.state b = none := by
  obtain ⟨-, -, ⟨k, hk, rfl⟩ | ⟨-, p, hp, rfl⟩⟩ := access_eq_next hr
  · obtain ⟨-, hway, -⟩ := holder_eq_some hk
    exact (holder_touchLru (s := countHit s) hway b).trans hb
  · obtain ⟨hset, -⟩ := makeRoom_eq_next hp
    obtain ⟨hfr, -⟩ := makeRoom_frame hp
    have hcfg : p.state.cfg = s.cfg := by rw [hfr]; rfl
    have hlines : p.state.lines = s.lines := by rw [hfr]; rfl
    refine holder_fill_of_ne (hset.trans ?_) ((holder_congr hcfg (set_congr hlines _)).trans hb) (hcfg ▸ hne)
    rw [hcfg]; rfl

/-! ## The next access in the same block -/

/-- The range and extent tests answer alike in one block (R51, R56). -/
theorem addressOk_of_same_block {c : Config} {a b : Nat} (ha : addressOk c (a : Int))
    (hb : blockStart c b = blockStart c a) : addressOk c (b : Int) := by
  have hfits : blockStart c b + c.blockSize ≤ c.memWords := hb ▸ ha.2
  have hlt := lt_blockStart_add c b
  exact ⟨⟨by omega, by omega⟩, hfits⟩

/-- After an access command the machine is in order and READY, and every address of its block is accepted and
present. -/
theorem ready_for_same_block {i : Instr} {a v : Word} {s t : State} (h : Inv s) (hi : IsAccess i a v)
    (ht : exec i s = .next t) {b : Nat} (hb : blockStart s.cfg b = blockStart s.cfg a) :
    Inv t ∧ t.ccState = .ready ∧ addressOk t.cfg (b : Int) ∧ ∃ k, holder t b = some k := by
  obtain ⟨op, r, hr, htr⟩ := exec_access_eq_next hi ht
  obtain ⟨hready, ha, -⟩ := access_eq_next hr
  obtain ⟨-, -, ⟨hcfg, hcc, -⟩, -⟩ := access_frame hr
  obtain ⟨-, -, hhold, -⟩ := access_keeps h hr
  refine ⟨exec_keeps_inv h ht, htr.ccState.trans (hcc.trans hready), ?_, r.handle, (htr.holder b).trans (hhold b hb)⟩
  rw [htr.cfg, hcfg]
  exact addressOk_of_same_block ha hb

/-- A read of a present address answers with the logical word as a hit, and emits the word transfer alone (R126). -/
theorem exec_read_of_hit {i : Instr} {a : Word} {s : State} {k : Handle} (h : Inv s) (hready : s.ccState = .ready)
    (ha : addressOk s.cfg (a : Int)) (hk : holder s a = some k) (hi : i = .ifetch a ∨ i = .load a) :
    ∃ t, exec i s = .next t ∧ t.resp = some { rdata := logical s a, hit := true, fault := 0 } ∧
      t.events = s.events ++ [⟨a, 1, .c2p⟩] := by
  have hacc : ∀ op, access op (a : Int) s = .next (accessHit k s) := fun _ => access_of_hit hready ha hk
  have hword : readWord k a (accessHit k s).state = logical s a := readWord_access h (hacc .load)
  refine ⟨(readReply a (accessHit k s)).state, ?_, ?_, rfl⟩
  · obtain rfl | rfl := hi
    · exact exec_ifetch_eq_next.2 ⟨_, hacc _, rfl⟩
    · exact exec_load_eq_next.2 ⟨_, hacc _, rfl⟩
  · rw [← hword]; rfl

end Sys2Proof.Machine

namespace Sys2Proof.Proofs

open Sys2Proof.Machine

/-- Settles O23: ACCESS counts its LOOKUP and emits one word transfer, FLUSH neither; a fill makes present the block
it brings in and no other, and every address of that block is then accepted and found. -/
theorem countersCountAccesses : Obligations.CountersCountAccesses := by
  refine ⟨fun s t a v i hi ht => ⟨fun k hk => ?_, fun hn => ?_⟩, fun s t ht => ?_,
    fun c m a => ⟨holder_resetWith c m a, rfl⟩, fun s t hrst ht => ?_,
    fun s t a b v v' i j h hi ht hb hj => ?_, fun s t a v i b _ hi ht hn hne => ?_⟩
  · have hcount := exec_access_counts_its_lookup hi ht
    rwa [hk] at hcount
  · have hcount := exec_access_counts_its_lookup hi ht
    rwa [hn] at hcount
  · obtain ⟨-, -, hhit, hmiss, -⟩ := ccFlush_frame ht
    exact ⟨hhit, hmiss⟩
  · have hcounted := step_counted hrst ht
    exact ⟨hcounted.conservation, hcounted.hitCount_le, hcounted.missCount_le⟩
  · obtain ⟨hInv, hready, hok, k, hk⟩ := ready_for_same_block h hi ht hb
    obtain ⟨u, hu⟩ := exec_access_completes hInv hready hok hj
    have hcount := exec_access_counts_its_lookup hj hu
    rw [hk] at hcount
    exact ⟨u, hu, hcount⟩
  · obtain ⟨op, r, hr, htr⟩ := exec_access_eq_next hi ht
    exact (htr.holder b).trans (holder_access_of_ne hr hn hne)

/-- Settles O25: the store leaves its address accepted, present and holding the stored word, and a read of a present
address is a hit on the logical word. -/
theorem storeIsSeenByTheNextFetch : Obligations.StoreIsSeenByTheNextFetch := by
  intro s t a v i h ht hi
  obtain ⟨hInv, hready, hok, k, hk⟩ := ready_for_same_block h (.inr (.inr rfl)) ht rfl
  obtain ⟨-, hlogical⟩ := ccStore_keeps h ht
  have hword : logical t a = v := (hlogical a).trans (if_pos rfl)
  obtain ⟨u, hu, hresp, hev⟩ := exec_read_of_hit hInv hready hok hk hi
  exact ⟨u, hu, hword ▸ hresp, hev⟩

end Sys2Proof.Proofs
end

section
/-! The requester's instructions from their words and in their steps: what a packed word decodes to whatever the fields
it ignores (R81, R85), the read and the store of an address as one case each, and the step that fetches (R141). -/

namespace Sys2Proof

/-! ## Words written from fields -/

/-- The instruction of an opcode with the given fields; the fields it ignores are dropped (R81). -/
def Opcode.withFields (o : Opcode) (f0 f1 : BitVec 3) (f2 : BitVec 16) : Instr :=
  match o with
  | .add => .add f0 f1 f2
  | .nand => .nand f0 f1 f2
  | .lw => .lw f0 f1 f2
  | .sw => .sw f0 f1 f2
  | .beq => .beq f0 f1 f2
  | .jalr => .jalr f0 f1
  | .halt => .halt
  | .noop => .noop

theorem assemble_packWord (o : Opcode) (v f0 f1 : BitVec 3) (f2 : BitVec 16) :
    assemble o (packWord v f0 f1 f2) = o.withFields f0 f1 f2 := by
  cases o <;> simp [assemble, Opcode.withFields, field0Of_packWord, field1Of_packWord, field2Of_packWord]

/-- The word of an opcode and fields that name registers decodes to its instruction, under every bijection `OPC`. -/
theorem decodeWord_packWord {m : OpcodeMap} {n : Nat} {o : Opcode} {f0 f1 : BitVec 3} {f2 : BitVec 16} (hm : m.wf)
    (hn : (o.withFields f0 f1 f2).namesRegisters n = true) :
    decodeWord m n (packWord (encodeOpcode m o) f0 f1 f2) = .ok (o.withFields f0 f1 f2) := by
  have ho : decodeOpcode m (opcodeField (packWord (encodeOpcode m o) f0 f1 f2)) = some o := by
    rw [opcodeField_packWord, decodeOpcode_encodeOpcode hm]
  rw [decodeWord_of_opcode (highBits_packWord ..) ho, assemble_packWord, checkRegisters_of_namesRegisters hn]

end Sys2Proof

namespace Sys2Proof.Machine

theorem Inv.opc_wf {s : State} (h : Inv s) : s.cfg.opc.wf := by
  obtain ⟨-, -, -, -, hopc, -⟩ := h.constraints
  exact hopc

theorem Inv.xlen_ge {s : State} (h : Inv s) : 25 ≤ s.cfg.xlen := by
  obtain ⟨-, hxlen, -⟩ := h.constraints
  exact hxlen

/-! ## The read and the store of an address -/

theorem ccRead_of_bad {op : AccessOp} {a : Int} {s : State} (hready : s.ccState = .ready)
    (ha : ¬ addressOk s.cfg a) : ccRead op a s = .fault (.addressOutOfRange op a) := by
  rw [ccRead_eq, access_of_bad hready ha, andThen_fault]

theorem ccStore_of_bad {a : Int} {v : Word} {s : State} (hready : s.ccState = .ready)
    (ha : ¬ addressOk s.cfg a) : ccStore a v s = .fault (.addressOutOfRange .store a) := by
  rw [ccStore_eq, access_of_bad hready ha, andThen_fault]

theorem ccRead_completes {op : AccessOp} {a : Int} {s : State} (h : Inv s) (hready : s.ccState = .ready)
    (ha : addressOk s.cfg a) : ∃ y, ccRead op a s = .next y := by
  obtain ⟨r, hr⟩ := access_completes (op := op) h hready ha
  exact ⟨_, ccRead_eq_next.2 ⟨r, hr, rfl⟩⟩

theorem ccStore_completes {a : Int} {v : Word} {s : State} (h : Inv s) (hready : s.ccState = .ready)
    (ha : addressOk s.cfg a) : ∃ t, ccStore a v s = .next t := by
  obtain ⟨r, hr⟩ := access_completes (op := .store) h hready ha
  exact ⟨_, ccStore_eq_next.2 ⟨r, hr, rfl⟩⟩

theorem ccRead_frame {op : AccessOp} {a : Int} {s : State} {y : Reply} (hy : ccRead op a s = .next y) :
    SameOutsideCache s y.state := by
  obtain ⟨r, hr, rfl⟩ := ccRead_eq_next.1 hy
  obtain ⟨-, -, hframe, -⟩ := access_frame hr
  exact hframe

theorem ccStore_frame {a : Int} {v : Word} {s t : State} (ht : ccStore a v s = .next t) : SameOutsideCache s t := by
  obtain ⟨r, hr, rfl⟩ := ccStore_eq_next.1 ht
  obtain ⟨-, -, hframe, -⟩ := access_frame hr
  exact hframe

/-- A read that completes is counted once (R127). -/
theorem ccRead_counts_one {op : AccessOp} {a : Int} {s : State} {y : Reply} (hy : ccRead op a s = .next y) :
    y.state.hitCount + y.state.missCount = s.hitCount + s.missCount + 1 := by
  obtain ⟨r, hr, rfl⟩ := ccRead_eq_next.1 hy
  obtain ⟨-, -, -, -, -, -, -, hhit, hmiss⟩ := access_frame hr
  show r.state.hitCount + r.state.missCount = _
  rw [hhit, hmiss]
  split <;> omega

/-! ## The step of the engine -/

/-- The step whose fetched word decodes to `i` executes `i` after the fetch (R141). -/
theorem step_of_fetch {u : State} {y : Reply} {i : Instr} (hrst : u.rst = false) (hreq : u.requester = .engine)
    (hy : ccRead .ifetch u.pc u = .next y) (hi : decodeWord u.cfg.opc u.cfg.numRegs y.rdata = .ok i) :
    step u = exec i y.state := by
  have hf : fetchNext u = .next ⟨i, y.state⟩ := fetchNext_eq_next.2 (.inl ⟨hreq, y, hy, hi, rfl⟩)
  rw [step_of_running hrst, hf, andThen_next]

/-- Where the instruction faults, so does the step, in a state in which its fetch is counted. -/
theorem step_of_data_fault {u : State} {y : Reply} {i : Instr} {f : Fault} (hrst : u.rst = false)
    (hreq : u.requester = .engine) (hy : ccRead .ifetch u.pc u = .next y)
    (hi : decodeWord u.cfg.opc u.cfg.numRegs y.rdata = .ok i) (hf : exec i y.state = .fault f) :
    step u = .fault f ∧ y.state.hitCount + y.state.missCount = u.hitCount + u.missCount + 1 :=
  ⟨(step_of_fetch hrst hreq hy hi).trans hf, ccRead_counts_one hy⟩

/-- A pc outside memory faults at the fetch (R51, R163). -/
theorem step_of_pc_outside {u : State} (hrst : u.rst = false) (hreq : u.requester = .engine)
    (hready : u.ccState = .ready) (hpc : ¬ validAddress u.cfg u.pc) :
    step u = .fault (.addressOutOfRange .ifetch u.pc) := by
  have hread : ccRead .ifetch u.pc u = .fault (.addressOutOfRange .ifetch u.pc) :=
    ccRead_of_bad hready fun hok => hpc hok.1
  simp only [step_of_running hrst, fetchNext, hreq, fetchEngine, hread, andThen_fault]

end Sys2Proof.Machine
end

section
/-! The register instructions NAND, JALR and NOOP (R144, R147, R149). -/

namespace Sys2Proof.Machine

/-! ## The complement of the conjunction -/

theorem nandWord_self (n : Nat) (v : Word) : nandWord n v v = (~~~bitsOf n v).toNat := by
  rw [nandWord, BitVec.and_self]

theorem nandWord_zero (n : Nat) : nandWord n 0 0 = (BitVec.allOnes n).toNat := by
  rw [nandWord_self, bitsOf, BitVec.not_zero]

theorem signedWord_toNat {n : Nat} (v : BitVec n) : signedWord n v.toNat = v.toInt := by
  rw [signedWord, bitsOf, BitVec.ofNat_toNat, BitVec.setWidth_eq]

/-! ## NAND -/

/-- NAND that names registers completes: it writes its destination and the pc (R144). -/
theorem exec_nand_completes {s : State} {f0 f1 : BitVec 3} {f2 : BitVec 16} (h : Inv s) (hready : s.ccState = .ready)
    (hn : (Instr.nand f0 f1 f2).namesRegisters s.cfg.numRegs = true) :
    ∃ t, exec (.nand f0 f1 f2) s = .next t ∧
      t.reg f2.toInt.toNat = nandWord s.cfg.xlen (s.reg f0.toNat) (s.reg f1.toNat) ∧
      (∀ n, n ≠ f2.toInt.toNat → t.reg n = s.reg n) ∧ t.pc = nextPc s ∧ SameButRegisters s t := by
  have hlt : f2.toInt.toNat < (advancePc s).x.length := h.regs ▸ destination_lt hn rfl
  exact ⟨_, exec_nand_eq_next.2 ⟨hready, hn, rfl⟩, reg_putReg_same hlt, fun n hne => reg_putReg_ne hne,
    wrap_eq_mod .., rfl⟩

/-! ## JALR -/

theorem linked_reg_link {s : State} {f0 : BitVec 3} (hlt : f0.toNat < s.x.length) :
    (linked f0 s).reg f0.toNat = nextPc s :=
  (reg_putReg_same (s := advancePc s) hlt).trans (wrap_eq_mod ..)

theorem linked_reg_ne {s : State} {f0 : BitVec 3} {n : Nat} (hne : n ≠ f0.toNat) :
    (linked f0 s).reg n = s.reg n :=
  reg_putReg_ne (s := advancePc s) hne

/-- The state JALR leaves (R147). -/
def jumped (f0 f1 : BitVec 3) (s : State) : State := { linked f0 s with pc := (linked f0 s).reg f1.toNat }

theorem exec_jalr_of_ok {s : State} {f0 f1 : BitVec 3} (hready : s.ccState = .ready)
    (hn : (Instr.jalr f0 f1).namesRegisters s.cfg.numRegs = true) :
    exec (.jalr f0 f1) s = .next (jumped f0 f1 s) :=
  exec_jalr_eq_next.2 ⟨hready, hn, rfl⟩

theorem jumped_reg (f0 f1 : BitVec 3) (s : State) (n : Nat) : (jumped f0 f1 s).reg n = (linked f0 s).reg n := rfl

theorem jumped_pc_of_ne {s : State} {f0 f1 : BitVec 3} (hne : f0 ≠ f1) : (jumped f0 f1 s).pc = s.reg f1.toNat :=
  linked_reg_ne fun heq => hne (BitVec.eq_of_toNat_eq heq).symm

theorem jumped_pc_of_eq {s : State} {f : BitVec 3} (hlt : f.toNat < s.x.length) : (jumped f f s).pc = nextPc s :=
  linked_reg_link hlt

/-! ## NOOP -/

theorem exec_noop_of_ready {s : State} (hready : s.ccState = .ready) :
    exec .noop s = .next { s with pc := nextPc s } :=
  exec_noop_eq_next.2 ⟨hready, advancePc_eq s⟩

end Sys2Proof.Machine

namespace Sys2Proof.Proofs

open Sys2Proof.Machine

/-- Settles O29: NAND completes with `nandWord` of its sources in its destination; equal fields and zeros are facts of
`nandWord`. -/
theorem nandWritesTheComplement : Obligations.NandWritesTheComplement := by
  refine ⟨fun s f0 f1 f2 h hready hn => ⟨decodeWord_packWord (o := .nand) h.opc_wf hn, ?_⟩, by decide,
    fun s h hready hxlen hregs h1 h2 => ?_⟩
  · obtain ⟨t, ht, hdest, hother, hpc, hsame⟩ := exec_nand_completes h hready hn
    refine ⟨t, ht, hdest, hother, hpc, hsame, ?_, fun h0 h1 => ?_⟩
    · rintro rfl
      rw [hdest, nandWord_self]
    · have hpos : 0 < s.cfg.xlen := lt_of_lt_of_le (by decide) h.xlen_ge
      rw [hdest, h0, h1, nandWord_zero, signedWord_toNat, BitVec.toInt_allOnes, if_pos hpos]
      exact ⟨BitVec.toNat_allOnes, rfl⟩
  · obtain ⟨t, ht, hdest, -⟩ := exec_nand_completes (f0 := 1) (f1 := 2) (f2 := 3) h hready (by rw [hregs]; decide)
    refine ⟨t, ht, hdest.trans ?_⟩
    rw [hxlen, show s.reg (1 : BitVec 3).toNat = 0xC from h1, show s.reg (2 : BitVec 3).toNat = 0xA from h2]
    decide

/-- Settles O32: the link is written before the target is read, so the target is `x[field1]` for different fields and
the link for equal ones; a pc outside memory faults at the fetch. -/
theorem jalrLinksThenJumps : Obligations.JalrLinksThenJumps := by
  refine ⟨fun s f0 f1 f2 h hready hn => ?_, by decide, fun s h hready hregs hpc h4 => ?_⟩
  · have hlt : f0.toNat < s.x.length := h.regs ▸ field_lt hn (by simp [Instr.registerFields])
    refine ⟨decodeWord_packWord (o := .jalr) h.opc_wf hn, jumped f0 f1 s, exec_jalr_of_ok hready hn,
      linked_reg_link hlt, fun n hne => linked_reg_ne hne, jumped_pc_of_ne, ?_, rfl, fun hrst hreq hout => ?_⟩
    · rintro rfl
      exact jumped_pc_of_eq hlt
    · exact step_of_pc_outside hrst hreq hready hout
  · have hlt : (7 : BitVec 3).toNat < s.x.length := by rw [h.regs, hregs]; decide
    have hnext : nextPc s = 11 := by
      rw [nextPc, hpc]
      exact Nat.mod_eq_of_lt (lt_of_lt_of_le (by decide) (Nat.pow_le_pow_right two_pos h.xlen_ge))
    exact ⟨jumped 7 4 s, exec_jalr_of_ok hready (by rw [hregs]; decide), (linked_reg_link hlt).trans hnext,
      (jumped_pc_of_ne (by decide)).trans h4⟩

/-- Settles O34: no field of NOOP names a register, so every NOOP word decodes to it; the one access of its step is the
fetch. -/
theorem noopOnlyAdvancesThePc : Obligations.NoopOnlyAdvancesThePc := by
  refine ⟨fun s f0 f1 f2 h hready => ⟨decodeWord_packWord (o := .noop) h.opc_wf rfl, exec_noop_of_ready hready⟩,
    fun s t f hrst hreq hf hi ht => ?_, by decide⟩
  obtain ⟨-, y, hy, -, hstate⟩ | ⟨c, rest, hport, -⟩ := fetchNext_eq_next.1 hf
  · rw [step_of_running hrst, hf, andThen_next, hi, hstate] at ht
    obtain ⟨-, rfl⟩ := exec_noop_eq_next.1 ht
    exact ccRead_counts_one hy
  · rw [hreq] at hport
    cases hport

end Sys2Proof.Proofs
end

section
/-! The memory instructions LW and SW (R145, R146): each is its access of the effective address, after the increment of
the pc; and the memory words and the line a store leaves. -/

namespace Sys2Proof.Machine

/-! ## The store of a word -/

/-- The block an access writes to memory is that of a dirty line, and only a miss writes one (R57, R69). -/
theorem writtenBlock_eq_some {s : State} {a base : Nat} (hb : writtenBlock s a = some base) :
    holder s a = none ∧
      ∃ k : Handle, (s.line k.set k.way).dirty = true ∧ base = lineBase s.cfg (s.line k.set k.way) := by
  rw [writtenBlock] at hb
  split at hb
  case h_2 => cases hb
  case h_1 k hk =>
    rw [victim] at hk
    split at hk
    case h_1 => cases hk
    case h_2 hnone =>
      split at hb
      case isFalse => cases hb
      case isTrue hdirty => cases hb; exact ⟨hnone, k, hdirty, rfl⟩

/-- That block is not the block of the address itself. -/
theorem not_inBlock_writtenBlock {s : State} {a base : Nat} (h : Inv s) (hb : writtenBlock s a = some base) :
    ¬ inBlock s.cfg base a := by
  obtain ⟨hnone, k, hdirty, rfl⟩ := writtenBlock_eq_some hb
  exact h.cache.holder_none_iff.1 hnone _ _ (h.cache.valid_of_dirty hdirty)

/-- Memory after a store: unchanged outside the block of a dirty victim. -/
theorem ccStore_memWord {a : Int} {v : Word} {s t : State} (ht : ccStore a v s = .next t) (b : Nat)
    (hb : ∀ base, writtenBlock s a.toNat = some base → ¬ inBlock s.cfg base b) : t.memWord b = s.memWord b := by
  obtain ⟨r, hr, rfl⟩ := ccStore_eq_next.1 ht
  exact access_memWord hr b hb

/-- The line that holds the address after a store is dirty. -/
theorem ccStore_leaves_dirty {a : Int} {v : Word} {s t : State} (h : Inv s) (ht : ccStore a v s = .next t) :
    ∃ k, holder t a.toNat = some k ∧ (t.line k.set k.way).dirty = true := by
  obtain ⟨r, hr, rfl⟩ := ccStore_eq_next.1 ht
  obtain ⟨-, hway, -⟩ := access_frame hr
  obtain ⟨-, -, hhold, -⟩ := access_keeps h hr
  refine ⟨r.handle, ((wordTransferred_storedState v hr).holder _).trans (hhold _ rfl), ?_⟩
  have hline := line_store (s := emit a.toNat 1 .p2c r.state) (a := a.toNat) (v := v) hway r.handle.set r.handle.way
  rw [if_pos ⟨rfl, rfl⟩] at hline
  exact congrArg Line.dirty hline

/-- A read of the address after a store gets the stored word. -/
theorem ccRead_after_ccStore {op : AccessOp} {a : Int} {v : Word} {s t : State} (h : Inv s)
    (ht : ccStore a v s = .next t) : ∃ y, ccRead op a t = .next y ∧ y.rdata = v := by
  obtain ⟨r, hr, -⟩ := ccStore_eq_next.1 ht
  obtain ⟨hready, ha, -⟩ := access_eq_next hr
  obtain ⟨hcfg, hcc, -⟩ := ccStore_frame ht
  obtain ⟨hInv, hlogical⟩ := ccStore_keeps h ht
  obtain ⟨y, hy⟩ := ccRead_completes (op := op) hInv (hcc.trans hready) (hcfg ▸ ha)
  obtain ⟨-, hword, -⟩ := ccRead_keeps hInv hy
  exact ⟨y, hy, hword.trans ((hlogical _).trans (if_pos rfl))⟩

/-! ## LW and SW as accesses -/

theorem exec_lw_of_ok {s : State} {f0 f1 : BitVec 3} {f2 : BitVec 16} (hready : s.ccState = .ready)
    (hn : (Instr.lw f0 f1 f2).namesRegisters s.cfg.numRegs = true) :
    exec (.lw f0 f1 f2) s = andThen (ccRead .load (memAddress s f1 f2) { s with pc := nextPc s }) fun y =>
      .next (putFieldReg y.state f0 y.rdata) := by
  rw [← advancePc_eq]
  exact asRequester_of_ok hready hn

theorem exec_sw_of_ok {s : State} {f0 f1 : BitVec 3} {f2 : BitVec 16} (hready : s.ccState = .ready)
    (hn : (Instr.sw f0 f1 f2).namesRegisters s.cfg.numRegs = true) :
    exec (.sw f0 f1 f2) s = ccStore (memAddress s f1 f2) (s.reg f0.toNat) { s with pc := nextPc s } := by
  rw [← advancePc_eq]
  exact asRequester_of_ok hready hn

theorem exec_lw_of_bad {s : State} {f0 f1 : BitVec 3} {f2 : BitVec 16} (hready : s.ccState = .ready)
    (hn : (Instr.lw f0 f1 f2).namesRegisters s.cfg.numRegs = true) (ha : ¬ addressOk s.cfg (memAddress s f1 f2)) :
    exec (.lw f0 f1 f2) s = .fault (.addressOutOfRange .load (memAddress s f1 f2)) := by
  rw [exec_lw_of_ok hready hn, ccRead_of_bad (s := { s with pc := nextPc s }) hready ha, andThen_fault]

theorem exec_sw_of_bad {s : State} {f0 f1 : BitVec 3} {f2 : BitVec 16} (hready : s.ccState = .ready)
    (hn : (Instr.sw f0 f1 f2).namesRegisters s.cfg.numRegs = true) (ha : ¬ addressOk s.cfg (memAddress s f1 f2)) :
    exec (.sw f0 f1 f2) s = .fault (.addressOutOfRange .store (memAddress s f1 f2)) := by
  rw [exec_sw_of_ok hready hn, ccStore_of_bad (s := { s with pc := nextPc s }) hready ha]

/-- LW of an accepted address completes as the LOAD of it, with the logical word in `x[field0]` (R145). -/
theorem exec_lw_completes {s : State} {f0 f1 : BitVec 3} {f2 : BitVec 16} (h : Inv s) (hready : s.ccState = .ready)
    (hn : (Instr.lw f0 f1 f2).namesRegisters s.cfg.numRegs = true) (ha : addressOk s.cfg (memAddress s f1 f2)) :
    ∃ y, exec (.lw f0 f1 f2) s = .next (putFieldReg y.state f0 y.rdata) ∧
      ccRead .load (memAddress s f1 f2) { s with pc := nextPc s } = .next y ∧ y.state.pc = nextPc s ∧
      (putFieldReg y.state f0 y.rdata).reg f0.toNat = logical s (memAddress s f1 f2).toNat ∧
      ∀ n, n ≠ f0.toNat → (putFieldReg y.state f0 y.rdata).reg n = s.reg n := by
  have hInv : Inv { s with pc := nextPc s } := h.congr rfl rfl rfl rfl
  obtain ⟨y, hy⟩ := ccRead_completes (op := .load) hInv hready ha
  obtain ⟨-, -, -, hpc, hx, -⟩ := ccRead_frame hy
  obtain ⟨-, hword, -⟩ := ccRead_keeps hInv hy
  have hlt : f0.toNat < y.state.x.length := by
    rw [hx, h.regs]
    exact field_lt hn (by simp [Instr.registerFields])
  refine ⟨y, ?_, hy, hpc, (reg_putReg_same hlt).trans hword, fun n hne => ?_⟩
  · rw [exec_lw_of_ok hready hn, hy, andThen_next]
  · exact (reg_putReg_ne hne).trans (reg_congr hx n)

/-- From a base register that holds 0 the effective address is the immediate. -/
theorem memAddress_of_base_zero {s : State} {f1 : BitVec 3} (h0 : s.reg f1.toNat = 0) (f2 : BitVec 16) :
    memAddress s f1 f2 = f2.toInt := by
  simp [memAddress, h0, signedWord, bitsOf]

end Sys2Proof.Machine

namespace Sys2Proof.Proofs

open Sys2Proof.Machine

/-- Settles O30: LW is the LOAD of the effective address and the write of the word it returns; the access stops it where
the address is not accepted, after the fetch was counted. -/
theorem lwLoadsTheLogicalWord : Obligations.LwLoadsTheLogicalWord := by
  refine ⟨fun s f0 f1 f2 h hready hn => ⟨decodeWord_packWord (o := .lw) h.opc_wf hn, fun ha => ?_, fun ha => ?_⟩,
    by decide, fun s h hready hregs h0 ha hword => ?_⟩
  · obtain ⟨y, ht, hy, hpc, hreg, hother⟩ := exec_lw_completes h hready hn ha
    exact ⟨_, y, ht, hy, rfl, hpc, hreg, hother⟩
  · refine ⟨exec_lw_of_bad hready hn ha, ?_⟩
    rintro u r hrst hreq hr rfl hd
    exact step_of_data_fault hrst hreq hr hd (exec_lw_of_bad hready hn ha)
  · have haddr : memAddress s 0 6 = 6 := memAddress_of_base_zero h0 6
    obtain ⟨y, ht, -, -, hreg, -⟩ := exec_lw_completes (f0 := 1) (f1 := 0) (f2 := 6) h hready
      (by rw [hregs]; decide) (by rw [haddr]; exact ha)
    rw [haddr] at hreg
    exact ⟨_, ht, hreg.trans hword⟩

/-- Settles O31: SW is the STORE of `x[field0]` at the effective address; the block a miss writes to memory is that of a
dirty victim, never the block of the address. -/
theorem swStoresTheRegister : Obligations.SwStoresTheRegister := by
  refine ⟨fun s f0 f1 f2 h hready hn => ⟨decodeWord_packWord (o := .sw) h.opc_wf hn, fun ha => ?_, fun ha => ?_⟩,
    by decide, fun s h hready hregs h0 h2 => ?_⟩
  · have hInv : Inv { s with pc := nextPc s } := h.congr rfl rfl rfl rfl
    obtain ⟨t, ht⟩ := ccStore_completes (v := s.reg f0.toNat) hInv hready ha
    obtain ⟨-, -, -, hpc, hx, -⟩ := ccStore_frame ht
    obtain ⟨-, hlogical⟩ := ccStore_keeps hInv ht
    exact ⟨t, (exec_sw_of_ok hready hn).trans ht, ht, ccStore_leaves_dirty hInv ht, ccRead_after_ccStore hInv ht,
      ccStore_memWord ht _ fun _ => not_inBlock_writtenBlock hInv, hlogical, fun b => ccStore_memWord ht b, hx, hpc⟩
  · refine ⟨exec_sw_of_bad hready hn ha, ?_⟩
    rintro u r hrst hreq hr rfl hd
    exact step_of_data_fault hrst hreq hr hd (exec_sw_of_bad hready hn ha)
  · rw [exec_sw_of_ok hready (by rw [hregs]; decide), memAddress_of_base_zero h0,
      show s.reg (2 : BitVec 3).toNat = 42 from h2]
    rfl

end Sys2Proof.Proofs
end

section
/-! The lifecycle an instruction leaves (10_state.md, section 5): FLUSH and HALT halt the machine, every other instruction
that answers keeps it as it is. -/

namespace Sys2Proof.Machine

/-- A FLUSH that answers, from the port or from HALT, leaves the machine HALTED (R125, R150). -/
theorem exec_ccState_of_halting {i : Instr} {s t : State} (hi : i = .flush ∨ i = .halt) (ht : exec i s = .next t) :
    t.ccState = .halted := by
  have hflush : ccFlush s = .next t := by
    obtain rfl | rfl := hi
    · exact ht
    · exact exec_halt_eq ▸ ht
  obtain ⟨-, -, -, -, -, -, -, -, hhalted, -⟩ := ccFlush_frame hflush
  exact hhalted

theorem ccRead_ccState {op : AccessOp} {a : Int} {s : State} {y : Reply} (hy : ccRead op a s = .next y) :
    y.state.ccState = s.ccState := by
  obtain ⟨-, hcc, -⟩ := ccRead_frame hy
  exact hcc

theorem ccStore_ccState {a : Int} {v : Word} {s t : State} (ht : ccStore a v s = .next t) :
    t.ccState = s.ccState := by
  obtain ⟨-, hcc, -⟩ := ccStore_frame ht
  exact hcc

/-- Every instruction but FLUSH and HALT keeps the lifecycle where it answers: its fault carries no state (R166). -/
theorem exec_keeps_ccState {i : Instr} {s t : State} (hflush : i ≠ .flush) (hhalt : i ≠ .halt)
    (ht : exec i s = .next t) : t.ccState = s.ccState := by
  cases i with
  | ifetch a =>
    obtain ⟨r, hr, rfl⟩ := exec_ifetch_eq_next.1 ht
    exact ccRead_ccState (ccRead_eq_next.2 ⟨r, hr, rfl⟩)
  | load a =>
    obtain ⟨r, hr, rfl⟩ := exec_load_eq_next.1 ht
    exact ccRead_ccState (ccRead_eq_next.2 ⟨r, hr, rfl⟩)
  | store a v => exact ccStore_ccState ht
  | flush => exact absurd rfl hflush
  | add f0 f1 f2 =>
    obtain ⟨-, -, rfl⟩ := exec_add_eq_next.1 ht
    rfl
  | nand f0 f1 f2 =>
    obtain ⟨-, -, rfl⟩ := exec_nand_eq_next.1 ht
    rfl
  | lw f0 f1 f2 =>
    obtain ⟨-, -, y, hy, rfl⟩ := exec_lw_eq_next.1 ht
    exact (ccRead_ccState hy).trans (advancePc_ccState s)
  | sw f0 f1 f2 =>
    obtain ⟨-, -, ht⟩ := exec_sw_eq_next.1 ht
    exact (ccStore_ccState ht).trans (advancePc_ccState s)
  | beq f0 f1 f2 =>
    obtain ⟨-, -, rfl⟩ := exec_beq_eq_next.1 ht
    split <;> rfl
  | jalr f0 f1 =>
    obtain ⟨-, -, rfl⟩ := exec_jalr_eq_next.1 ht
    rfl
  | halt => exact absurd rfl hhalt
  | noop =>
    obtain ⟨-, rfl⟩ := exec_noop_eq_next.1 ht
    rfl

end Sys2Proof.Machine

namespace Sys2Proof.Proofs

open Sys2Proof.Machine

/-- Settles O46: an instruction answers in READY only; FLUSH and HALT then leave HALTED, and every other instruction
leaves the READY it found. -/
theorem onlyFlushAndHaltHalt : Obligations.OnlyFlushAndHaltHalt := by
  intro s t i ht
  have hready : s.ccState = .ready := exec_eq_next_ready ht
  refine ⟨hready, ?_⟩
  by_cases hi : i = .flush ∨ i = .halt
  · have hcc : t.ccState = .halted := exec_ccState_of_halting hi ht
    simp [hcc, hi, ← not_or]
  · obtain ⟨hflush, hhalt⟩ := not_or.1 hi
    have hcc : t.ccState = .ready := (exec_keeps_ccState hflush hhalt ht).trans hready
    simp [hcc, hflush, hhalt]

end Sys2Proof.Proofs
end

section
/-! The decoder against the encoder (30_encoding.md R73, R80 to R83): what it answers for a code whose fields are read
back, what it accepts, and which words it refuses. -/

namespace Sys2Proof

/-! ## Opcode values -/

/-- The opcode a value decodes to encodes to that value. -/
theorem encodeOpcode_of_decodeOpcode {m : OpcodeMap} {v : BitVec 3} {o : Opcode} (h : decodeOpcode m v = some o) :
    encodeOpcode m o = v := by
  unfold decodeOpcode at h
  split_ifs at h with h0 h1 h2 h3 h4 h5 h6 h7 <;> cases h <;> exact Eq.symm ‹_›

theorem not_mem_values_of_decodeOpcode {m : OpcodeMap} {v : BitVec 3} (h : decodeOpcode m v = none) :
    v ∉ m.values := by
  unfold decodeOpcode at h
  split_ifs at h
  simp [OpcodeMap.values, *]

/-- Eight different 3-bit values are all of them. -/
theorem mem_values_of_wf {m : OpcodeMap} (h : m.wf) (v : BitVec 3) : v ∈ m.values := by
  by_contra hv
  have hnodup : ((v :: m.values).map BitVec.toFin).Nodup :=
    (List.nodup_cons.2 ⟨hv, h⟩).map fun _ _ => BitVec.eq_of_toFin_eq
  have hcard := hnodup.length_le_card
  simp [OpcodeMap.values] at hcard

/-! ## Codes whose fields are read back -/

open Laws.EncodedFields in
/-- The fields the encoder writes are read back, for every instruction (R80, R85). -/
theorem readBack_encode (i : Instr) : Statement i := by
  cases i with
  | ifetch a => exact ifetch a
  | load a => exact load a
  | store a d => exact store a d
  | flush => exact flush
  | add f0 f1 f2 => exact add f0 f1 f2
  | nand f0 f1 f2 => exact nand f0 f1 f2
  | lw f0 f1 f2 => exact lw f0 f1 f2
  | sw f0 f1 f2 => exact sw f0 f1 f2
  | beq f0 f1 f2 => exact beq f0 f1 f2
  | jalr f0 f1 => exact jalr f0 f1
  | halt => exact halt
  | noop => exact noop

/-- A code from which the fields of `i` are read back decodes to `i`, where `i` names registers. -/
theorem decode_of_readBack {c : Config} {i : Instr} {code : Code} (hm : c.opc.wf)
    (hn : i.namesRegisters c.numRegs = true) (h : Laws.EncodedFields.ReadBack c i code) : decode c code = .ok i := by
  cases code with
  | word w =>
    obtain ⟨hhigh, o, hop, rfl⟩ := h
    have ho : decodeOpcode c.opc (opcodeField w) = some o := by rw [hop, decodeOpcode_encodeOpcode hm]
    exact (decodeWord_of_opcode hhigh ho).trans (checkRegisters_of_namesRegisters hn)
  | command w => exact congrArg Except.ok h

/-! ## What the decoder accepts -/

theorem wellFormed_iff {c : Config} {i : Instr} :
    i.wellFormed c = true ↔ i.namesRegisters c.numRegs = true ∧ i.operandsFit c.xlen = true :=
  Bool.and_eq_true_iff

theorem decodeWord_of_highBits {m : OpcodeMap} {n : Nat} {w : Word} (h : highBits w ≠ 0) :
    decodeWord m n w = .error .highBitsSet := if_pos h

theorem decodeWord_eq_ok {m : OpcodeMap} {n : Nat} {w : Word} {i : Instr} (h : decodeWord m n w = .ok i) :
    ∃ o, i = assemble o w ∧ i.namesRegisters n = true := by
  by_cases hhigh : highBits w = 0
  · cases ho : decodeOpcode m (opcodeField w) with
    | none => simp [decodeWord, hhigh, ho] at h
    | some o =>
      rw [decodeWord_of_opcode hhigh ho] at h
      obtain ⟨hn, rfl⟩ := checkRegisters_eq_ok.1 h
      exact ⟨o, rfl, hn⟩
  · rw [decodeWord_of_highBits hhigh] at h
    cases h

/-- The fields of an instruction word have their widths by their types. -/
theorem assemble_operandsFit (xlen : Nat) (o : Opcode) (w : Word) : (assemble o w).operandsFit xlen = true := by
  cases o <;> rfl

/-- A command names no register (R79). -/
theorem decodeCommand_namesRegisters (xlen n : Nat) (c : CommandWord) :
    (decodeCommand xlen c).namesRegisters n = true := by
  unfold decodeCommand
  split_ifs <;> rfl

theorem checkRegisters_of_field {n : Nat} {i : Instr} (h : i.fieldsAreRegisters n = false) :
    checkRegisters n i = .error .fieldNotARegister := if_pos h

theorem checkRegisters_of_destination {n : Nat} {i : Instr} (hf : i.fieldsAreRegisters n = true)
    (hd : i.destinationIsRegister n = false) : checkRegisters n i = .error .destinationNotARegister := by
  simp [checkRegisters, hf, hd]

end Sys2Proof

namespace Sys2Proof.Machine

/-- A fetched word that the decoder refuses leaves the requester without a step (R83, R142). -/
theorem step_of_reserved_word {s : State} {y : Reply} {e : DecodeError} (hrst : s.rst = false)
    (hreq : s.requester = .engine) (hy : ccRead .ifetch s.pc s = .next y)
    (he : decodeWord s.cfg.opc s.cfg.numRegs y.rdata = .error e) : step s = .refused (.reservedEncoding e) := by
  simp only [step_of_running hrst, fetchNext, hreq, fetchEngine, hy, andThen_next, decode, he, andThen_refused]

end Sys2Proof.Machine

namespace Sys2Proof.Proofs

open Sys2Proof.Machine

/-- Settles O1: the decoder reads back every field the encoder writes, an opcode value that is in `OPC` once selects
its opcode, and a well-formed instruction passes the register check. -/
theorem decodeInvertsEncode : Obligations.DecodeInvertsEncode := by
  intro c i hm hi
  obtain ⟨hn, hfit⟩ := wellFormed_iff.1 hi
  exact decode_of_readBack hm hn (readBack_encode i c hfit)

/-- Settles O2: an instruction word is accepted only through the register check, and a command has the widths of its
ports. -/
theorem decodedInstructionsAreWellFormed : Obligations.DecodedInstructionsAreWellFormed := by
  intro c code i h
  rw [wellFormed_iff]
  cases code with
  | word w =>
    obtain ⟨o, rfl, hn⟩ := decodeWord_eq_ok h
    exact ⟨hn, assemble_operandsFit ..⟩
  | command w =>
    cases h
    exact ⟨decodeCommand_namesRegisters .., decodeCommand_operandsFit ..⟩

/-- Settles O3, by evaluating the decoder on the ten words. -/
theorem specWordsDecode : Obligations.SpecWordsDecode := by
  unfold Obligations.SpecWordsDecode
  decide

/-- Settles O4: the decoder tests the high bits, then the register fields, then the destination; the error of a fetched
word is the refusal of its step. -/
theorem reservedEncodingsAreRefused : Obligations.ReservedEncodingsAreRefused := by
  intro m n w _
  refine ⟨decodeWord_of_highBits, fun o hh ho hf => ?_, fun o hh ho hf hd => ?_, fun o hh ho hn => ?_,
    fun s y e => step_of_reserved_word⟩ <;> rw [decodeWord_of_opcode hh ho]
  · exact checkRegisters_of_field hf
  · exact checkRegisters_of_destination hf hd
  · exact checkRegisters_of_namesRegisters hn

/-- Settles O5: the eight values of a bijection are all 3-bit values, so the search for an opcode does not fail. -/
theorem everyOpcodeValueIsAssigned : Obligations.EveryOpcodeValueIsAssigned := by
  intro m hm v
  cases h : decodeOpcode m v with
  | none => exact absurd (mem_values_of_wf hm v) (not_mem_values_of_decodeOpcode h)
  | some o => exact ⟨o, rfl, encodeOpcode_of_decodeOpcode h⟩

end Sys2Proof.Proofs
end

section
/-! What an instruction does to the requester's view of the machine (pc, registers, logical memory): exactly what it does
on the flat machine, so neither the geometry nor the contents of the cache are seen (10_state.md, section 6). -/

namespace Sys2Proof.Machine

/-! ## The value law of the commands -/

/-- What a read command does where it answers: it is the read of its address (R122, R123). -/
theorem exec_read_eq_next {a : Word} {s t : State}
    (ht : exec (.ifetch a) s = .next t ∨ exec (.load a) s = .next t) :
    ∃ op r, access op (a : Int) s = .next r ∧ t = (readReply a r).state :=
  ht.elim (fun ht => ⟨_, exec_ifetch_eq_next.1 ht⟩) fun ht => ⟨_, exec_load_eq_next.1 ht⟩

/-- A read responds with the logical word, and with whether its lookup hit (R76, R122). -/
theorem readReply_resp {op : AccessOp} {a : Word} {s : State} {r : Accessed} (h : Inv s)
    (hr : access op (a : Int) s = .next r) :
    (readReply a r).state.resp = some { rdata := logical s a, hit := (holder s a).isSome, fault := 0 } := by
  have hword : readWord r.handle a r.state = logical s a := readWord_access h hr
  obtain ⟨-, -, -, -, -, -, hhit, -⟩ := access_frame hr
  rw [Int.toNat_natCast] at hhit
  rw [← hword, ← hhit]
  rfl

/-! ## The view after each operation -/

theorem viewOf_eq {s : State} {v : View} (hxlen : s.cfg.xlen = v.xlen) (hpc : s.pc = v.pc) (hx : s.x = v.x)
    (hword : ∀ a, logical s a = v.word a) : viewOf s = v := by
  obtain ⟨⟩ := v
  cases hxlen
  cases hpc
  cases hx
  cases funext hword
  rfl

theorem viewOf_advancePc (s : State) : viewOf (advancePc s) = { viewOf s with pc := (viewOf s).nextPc } := by
  rw [advancePc_eq]
  rfl

theorem viewOf_putReg (s : State) (n : Nat) (v : Word) :
    viewOf (s.putReg n v) = { viewOf s with x := (viewOf s).x.set n v } := rfl

theorem viewOf_with_pc (s : State) (p : Word) : viewOf { s with pc := p } = { viewOf s with pc := p } := rfl

theorem viewOf_ccRead {op : AccessOp} {a : Int} {s : State} {y : Reply} (h : Inv s) (hy : ccRead op a s = .next y) :
    viewOf y.state = viewOf s := by
  obtain ⟨hcfg, -, -, hpc, hx, -⟩ := ccRead_frame hy
  obtain ⟨-, -, hlogical⟩ := ccRead_keeps h hy
  exact viewOf_eq (congrArg Config.xlen hcfg) hpc hx hlogical

theorem viewOf_ccStore {a : Int} {v : Word} {s t : State} (h : Inv s) (ht : ccStore a v s = .next t) :
    viewOf t = { viewOf s with word := fun b => if b = a.toNat then v else (viewOf s).word b } := by
  obtain ⟨hcfg, -, -, hpc, hx, -⟩ := ccStore_frame ht
  obtain ⟨-, hlogical⟩ := ccStore_keeps h ht
  exact viewOf_eq (congrArg Config.xlen hcfg) hpc hx hlogical

theorem viewOf_ccFlush {s t : State} (h : Inv s) (ht : ccFlush s = .next t) : viewOf t = viewOf s := by
  obtain ⟨hcfg, -, -, -, hpc, hx, -⟩ := ccFlush_frame ht
  obtain ⟨-, hlogical⟩ := ccFlush_keeps h ht
  exact viewOf_eq (congrArg Config.xlen hcfg) hpc hx hlogical

/-! ## Refinement -/

/-- Every instruction that answers changes the view as the flat machine does (R143 to R150). -/
theorem exec_refines_flat {i : Instr} {s t : State} (h : Inv s) (ht : exec i s = .next t) :
    viewOf t = flatExec i (viewOf s) := by
  cases i with
  | ifetch a =>
    obtain ⟨r, hr, rfl⟩ := exec_ifetch_eq_next.1 ht
    exact viewOf_ccRead h (ccRead_eq_next.2 ⟨r, hr, rfl⟩)
  | load a =>
    obtain ⟨r, hr, rfl⟩ := exec_load_eq_next.1 ht
    exact viewOf_ccRead h (ccRead_eq_next.2 ⟨r, hr, rfl⟩)
  | store a v => exact viewOf_ccStore h ht
  | flush => exact viewOf_ccFlush h ht
  | add f0 f1 f2 =>
    obtain ⟨-, -, rfl⟩ := exec_add_eq_next.1 ht
    rw [putDestination, viewOf_putReg, viewOf_advancePc, sumWord, wrap_eq_mod]
    rfl
  | nand f0 f1 f2 =>
    obtain ⟨-, -, rfl⟩ := exec_nand_eq_next.1 ht
    rw [putDestination, viewOf_putReg, viewOf_advancePc]
    rfl
  | lw f0 f1 f2 =>
    obtain ⟨-, -, y, hy, rfl⟩ := exec_lw_eq_next.1 ht
    obtain ⟨-, hword, -⟩ := ccRead_keeps h.advancePc hy
    rw [putFieldReg, viewOf_putReg, viewOf_ccRead h.advancePc hy, viewOf_advancePc, hword]
    rfl
  | sw f0 f1 f2 =>
    obtain ⟨-, -, ht⟩ := exec_sw_eq_next.1 ht
    rw [viewOf_ccStore h.advancePc ht, viewOf_advancePc]
    rfl
  | beq f0 f1 f2 =>
    obtain ⟨-, -, rfl⟩ := exec_beq_eq_next.1 ht
    have htarget : branchTarget s.cfg.xlen (advancePc s).pc f2 =
        (((s.pc : Int) + 1 + f2.toInt) % 2 ^ s.cfg.xlen).toNat := by
      rw [← branchTarget_eq_emod, Int.toNat_natCast]
    have hflat : flatExec (.beq f0 f1 f2) (viewOf s) = { viewOf s with
        pc := if fieldReg s f0 = fieldReg s f1 then branchTarget s.cfg.xlen (advancePc s).pc f2
          else (viewOf s).nextPc } := by
      rw [htarget]
      rfl
    rw [hflat]
    split
    · rfl
    · exact viewOf_advancePc s
  | jalr f0 f1 =>
    obtain ⟨-, -, rfl⟩ := exec_jalr_eq_next.1 ht
    rw [viewOf_with_pc, fieldReg, linked, putFieldReg, viewOf_putReg, viewOf_advancePc, advancePc_eq]
    rfl
  | halt => exact viewOf_ccFlush h (exec_halt_eq ▸ ht)
  | noop =>
    obtain ⟨-, rfl⟩ := exec_noop_eq_next.1 ht
    exact viewOf_advancePc s

/-! ## Two machines with one view -/

/-- The engine fetches the word its view holds at the pc, and the fetch changes nothing of the view. -/
theorem fetchNext_of_engine {s : State} {f : Fetched} (h : Inv s) (hreq : s.requester = .engine)
    (hf : fetchNext s = .next f) :
    Inv f.state ∧ viewOf f.state = viewOf s ∧
      decodeWord s.cfg.opc s.cfg.numRegs ((viewOf s).word (viewOf s).pc) = .ok f.instr := by
  obtain ⟨-, y, hy, hi, hstate⟩ | ⟨c, rest, hport, -⟩ := fetchNext_eq_next.1 hf
  · obtain ⟨hInv, hword, -⟩ := ccRead_keeps h hy
    rw [hword] at hi
    rw [hstate]
    exact ⟨hInv, viewOf_ccRead h hy, hi⟩
  · rw [hreq] at hport
    cases hport

/-- A step of the engine executes, in a state with the same view, the instruction its view holds at the pc. -/
theorem step_of_engine {s t : State} (h : Inv s) (hrst : s.rst = false) (hreq : s.requester = .engine)
    (ht : step s = .next t) : ∃ i u, Inv u ∧ viewOf u = viewOf s ∧ exec i u = .next t ∧
      decodeWord s.cfg.opc s.cfg.numRegs ((viewOf s).word (viewOf s).pc) = .ok i := by
  rw [step_of_running hrst] at ht
  obtain ⟨f, hf, ht⟩ := andThen_eq_next.1 ht
  obtain ⟨hInv, hview, hi⟩ := fetchNext_of_engine h hreq hf
  exact ⟨f.instr, f.state, hInv, hview, ht, hi⟩

/-- The lifecycle an instruction leaves depends on the instruction alone. -/
theorem exec_ccState_eq {i : Instr} {s s' t t' : State} (ht : exec i s = .next t) (ht' : exec i s' = .next t') :
    t.ccState = t'.ccState := by
  by_cases hi : i = .flush ∨ i = .halt
  · rw [exec_ccState_of_halting hi ht, exec_ccState_of_halting hi ht']
  · obtain ⟨hflush, hhalt⟩ := not_or.1 hi
    rw [exec_keeps_ccState hflush hhalt ht, exec_keeps_ccState hflush hhalt ht', exec_eq_next_ready ht,
      exec_eq_next_ready ht']

end Sys2Proof.Machine

namespace Sys2Proof.Proofs

open Sys2Proof.Machine

/-- Settles O24: each command that answers keeps the logical memory but for the stored word, and a read responds with
the logical word. -/
theorem logicalMemoryLaw : Obligations.LogicalMemoryLaw := by
  refine fun s t a v h => ⟨fun ht => (ccStore_keeps h ht).2, fun ht => ?_, fun ht => (ccFlush_keeps h ht).2⟩
  obtain ⟨op, r, hr, rfl⟩ := exec_read_eq_next ht
  obtain ⟨-, -, hlogical⟩ := ccRead_keeps h (ccRead_eq_next.2 ⟨r, hr, rfl⟩)
  exact ⟨⟨_, readReply_resp h hr, rfl⟩, hlogical⟩

/-- Settles O51: the reset, the fetch and every instruction keep the invariant. -/
theorem stepKeepsTheInvariant : Obligations.StepKeepsTheInvariant := fun _ _ => step_keeps_inv

/-- Settles O58: the view after an instruction is that of the flat machine, field by field. -/
theorem cacheRefinesFlatMemory : Obligations.CacheRefinesFlatMemory := by
  intro s t i h ht
  have hview := exec_refines_flat h ht
  exact ⟨congrArg View.pc hview, congrArg View.x hview, congrFun (congrArg View.word hview)⟩

/-- Settles O59: with one view both machines fetch one instruction, and both refine the flat machine. -/
theorem geometryIsInvisible : Obligations.GeometryIsInvisible := by
  intro s s' t t' h h' hrst hrst' hreq hreq' hxlen hregs hopc hpc hx hlogical ht ht'
  have hsame : viewOf s = viewOf s' := viewOf_eq hxlen hpc hx hlogical
  obtain ⟨i, u, hInv, hview, hexec, hi⟩ := step_of_engine h hrst hreq ht
  obtain ⟨i', u', hInv', hview', hexec', hi'⟩ := step_of_engine h' hrst' hreq' ht'
  obtain rfl : i = i' := by
    rw [hopc, hregs, hsame, hi'] at hi
    cases hi
    rfl
  have hafter : viewOf t = viewOf t' := by
    rw [exec_refines_flat hInv hexec, exec_refines_flat hInv' hexec', hview, hview', hsame]
  exact ⟨congrArg View.pc hafter, congrArg View.x hafter, congrFun (congrArg View.word hafter),
    exec_ccState_eq hexec hexec'⟩

end Sys2Proof.Proofs
end

section
/-! INSTALL and WRITEBACK as primitives (R104 to R109): the slot, the eviction and what they leave alone. -/

namespace Sys2Proof.Machine

/-- The events of making room: those of an eviction where the slot held a valid line (R105, R109). -/
theorem makeRoom_events {a : Nat} {s : State} {p : Placed} (hp : makeRoom a s = .next p) :
    p.state.events = s.events ++
      (if (s.line p.handle.set p.handle.way).valid = true then evictionEvents s p.handle else []) := by
  have hway := makeRoom_way_lt hp
  obtain ⟨-, ⟨hinv, hstate⟩ | ⟨hfull, -, hevict⟩⟩ := makeRoom_eq_next hp
  · obtain ⟨_, hv, -⟩ := invalidWay_eq_some.1 hinv
    simp [hstate, line_eq_getElem hway, hv]
  · obtain ⟨-, hev, -⟩ := evict_eq_next hevict
    rw [hev, if_pos (invalidWay_eq_none.1 hfull _ (line_mem hway))]

/-- INSTALL changes nothing but the line array, memory and the event stream. -/
theorem install_frame {op : AccessOp} {a : Int} {s : State} {q : Placed} (hq : install op a s = .next q) :
    q.state = { s with lines := q.state.lines, mem := q.state.mem, events := q.state.events } := by
  obtain ⟨-, p, hp, rfl⟩ := install_eq_next hq
  obtain ⟨hframe, -⟩ := makeRoom_frame hp
  show fill a.toNat p.handle p.state = _
  rw [hframe]
  rfl

theorem install_set_ne {op : AccessOp} {a : Int} {s : State} {q : Placed} (hq : install op a s = .next q) {i : Nat}
    (hi : i ≠ q.handle.set) : q.state.set i = s.set i := by
  obtain ⟨-, p, hp, rfl⟩ := install_eq_next hq
  obtain ⟨hframe, -⟩ := makeRoom_frame hp
  have hfill : (fill a.toNat p.handle p.state).set i = p.state.set i := set_putSet_ne (Ne.symm hi)
  exact hfill.trans (set_congr (by rw [hframe]) i)

end Sys2Proof.Machine

namespace Sys2Proof.Proofs

open Sys2Proof.Machine

/-- Settles O15: a machine in order has room for the block, and the fill of the slot is read off. -/
theorem installPlacesTheBlock : Obligations.InstallPlacesTheBlock := by
  intro op s a h ha hn
  obtain ⟨p, hp⟩ := makeRoom_completes (a := a.toNat) h
  obtain ⟨hInv, hslot, hnone, hcfg, -⟩ := makeRoom_keeps h hn hp
  obtain ⟨hset, -⟩ := makeRoom_eq_next hp
  obtain ⟨htaken, hline⟩ := slotTaken_fill h hn hp
  have hq : install op a s = .next ⟨fill a.toNat p.handle p.state, p.handle⟩ := by
    rw [install_of_ok ha, hp, andThen_next]
  have hframe := install_frame hq
  refine ⟨_, hq, hset, htaken, holder_fill hInv hslot hnone (hcfg ▸ ha.2) rfl, hline, ?_,
    fun i hi => install_set_ne hq hi, ?_⟩
  · rw [fill_events, makeRoom_events hp, hcfg]
  · rw [hframe]
    exact ⟨rfl, rfl, rfl, rfl, rfl, rfl, rfl, rfl, rfl, rfl, rfl⟩

/-- Settles O16: the write-back of a whole line inside memory, word by word. -/
theorem writeBackCopiesTheBlock : Obligations.WriteBackCopiesTheBlock := by
  intro s k hlen hfit
  have hword := memWord_writtenBack k s
  rw [hlen, min_self] at hword
  refine ⟨writtenBack k s, by rw [writeBack_eq, if_pos hfit], fun j hj => ?_, fun b hb => ?_, rfl⟩
  · rw [hword, if_pos ⟨by omega, by omega⟩, Nat.add_sub_cancel_left]
  · rw [hword, if_neg hb]

end Sys2Proof.Proofs
end

section
/-! The access commands of an accepted address (R121 to R124): they complete, and where they fault. -/

namespace Sys2Proof.Machine

/-! ## Addresses of one block -/

theorem blockStart_add_fields (c : Config) (a : Nat) {k : Nat} (hk : k < c.blockSize) :
    blockOffset c (blockStart c a + k) = k ∧ blockStart c (blockStart c a + k) = blockStart c a := by
  obtain ⟨htag, hset, hoff⟩ := tag_and_set_in_block c (t := tagOf c a) (setIndexOf_lt c a) hk
  rw [baseOf_tag_setIndex] at htag hset hoff
  exact ⟨hoff, (blockStart_eq_iff c).2 ⟨htag, hset⟩⟩

theorem logical_of_holder {s : State} {a : Nat} {k : Handle} (hk : holder s a = some k) :
    logical s a = readWord k a s := by
  rw [logical, hk]

/-! ## What a STORE writes -/

/-- The one word and the dirty bit a STORE adds to the line its ACCESS leaves (R110, R111, R124). -/
def Line.written (l : Line) (offset : Nat) (v : Word) : Line :=
  { l with dirty := true, blockData := l.blockData.set offset v }

theorem line_storedState {op : AccessOp} {a : Int} {v : Word} {s : State} {r : Accessed}
    (hr : access op a s = .next r) (i j : Nat) :
    (storedState a.toNat v r).line i j =
      if i = r.handle.set ∧ j = r.handle.way then
        (r.state.line r.handle.set r.handle.way).written (blockOffset s.cfg a.toNat) v
      else r.state.line i j := by
  obtain ⟨-, hway, ⟨hcfg, -⟩, -⟩ := access_frame hr
  rw [← hcfg]
  exact line_store (s := emit a.toNat 1 .p2c r.state) hway i j

theorem line_storedState_ne {op : AccessOp} {a : Int} {v : Word} {s : State} {r : Accessed}
    (hr : access op a s = .next r) {j : Nat} (hj : j ≠ r.handle.way) :
    (storedState a.toNat v r).line r.handle.set j = r.state.line r.handle.set j := by
  rw [line_storedState hr, if_neg fun h => hj h.2]

theorem line_storedState_same {op : AccessOp} {a : Int} {v : Word} {s : State} {r : Accessed}
    (hr : access op a s = .next r) :
    (storedState a.toNat v r).line r.handle.set r.handle.way =
      (r.state.line r.handle.set r.handle.way).written (blockOffset s.cfg a.toNat) v := by
  rw [line_storedState hr, if_pos ⟨rfl, rfl⟩]

theorem set_storedState_ne {a : Nat} {v : Word} {r : Accessed} {j : Nat} (hj : j ≠ r.handle.set) :
    (storedState a v r).set j = r.state.set j :=
  (set_putSet_ne hj.symm).trans (set_putSet_ne hj.symm)

/-- The words a STORE leaves in the block of its address: the data at the block offset, the logical words elsewhere. -/
theorem ccStore_leaves_words {a v : Word} {s t : State} {k : Handle} (h : Inv s)
    (ht : ccStore (a : Int) v s = .next t)
    (hhold : ∀ b, blockStart s.cfg b = blockStart s.cfg a → holder t b = some k) :
    readWord k a t = v ∧ ∀ j < s.cfg.blockSize, j ≠ blockOffset s.cfg a →
      (t.line k.set k.way).blockData.getD j 0 = logical s (blockStart s.cfg a + j) := by
  obtain ⟨hcfg, -⟩ := ccStore_frame ht
  obtain ⟨-, hlogical⟩ := ccStore_keeps h ht
  rw [Int.toNat_natCast] at hlogical
  refine ⟨?_, fun j hj hne => ?_⟩
  · rw [← logical_of_holder (hhold a rfl), hlogical, if_pos rfl]
  · obtain ⟨hoff, hblock⟩ := blockStart_add_fields s.cfg a hj
    have hother : blockStart s.cfg a + j ≠ a := fun heq => hne (by rw [heq] at hoff; exact hoff.symm)
    have hword := logical_of_holder (hhold _ hblock)
    rw [hlogical, if_neg hother, readWord, hcfg, hoff] at hword
    exact hword.symm

/-! ## What an access leaves alone -/

theorem read_set_ne {a : Word} {s t : State} (ht : exec (.ifetch a) s = .next t ∨ exec (.load a) s = .next t)
    {j : Nat} (hj : j ≠ setIndexOf s.cfg a) : t.set j = s.set j := by
  obtain ⟨op, r, hr, rfl⟩ := exec_read_eq_next ht
  obtain ⟨-, -, -, -, -, hsets, -⟩ := access_frame hr
  exact hsets j hj

theorem ccStore_set_ne {a : Int} {v : Word} {s t : State} (ht : ccStore a v s = .next t) {j : Nat}
    (hj : j ≠ setIndexOf s.cfg a.toNat) : t.set j = s.set j := by
  obtain ⟨r, hr, rfl⟩ := ccStore_eq_next.1 ht
  obtain ⟨hset, -, -, -, -, hsets, -⟩ := access_frame hr
  exact (set_storedState_ne (hset ▸ hj)).trans (hsets j hj)

theorem exec_access_set_ne {i : Instr} {a v : Word} {s t : State} (hi : IsAccess i a v) (ht : exec i s = .next t)
    {j : Nat} (hj : j ≠ setIndexOf s.cfg a) : t.set j = s.set j := by
  obtain rfl | rfl | rfl := hi
  · exact read_set_ne (.inl ht) hj
  · exact read_set_ne (.inr ht) hj
  · exact ccStore_set_ne ht hj

/-! ## Where an access faults -/

theorem exec_access_of_bad {i : Instr} {a v : Word} {s : State} (hi : IsAccess i a v) (hready : s.ccState = .ready)
    (ha : ¬ addressOk s.cfg (a : Int)) : ∃ op, exec i s = .fault (.addressOutOfRange op a) := by
  obtain rfl | rfl | rfl := hi
  · exact ⟨_, exec_ifetch_eq_fault.2 (access_of_bad hready ha)⟩
  · exact ⟨_, exec_load_eq_fault.2 (access_of_bad hready ha)⟩
  · exact ⟨_, exec_store_eq_fault.2 (access_of_bad hready ha)⟩

end Sys2Proof.Machine

namespace Sys2Proof.Proofs

open Sys2Proof.Machine

/-- Settles O17: ACCESS of an accepted address completes in a machine in order, and a read adds to it the word
transfer and the response. -/
theorem readsCompleteWithTheLogicalWord : Obligations.ReadsCompleteWithTheLogicalWord := by
  intro s a i h hready ha hi
  obtain ⟨t, ht⟩ := exec_access_completes (v := 0) h hready ha (hi.elim .inl fun hi => .inr (.inl hi))
  obtain ⟨op, r, hr, rfl⟩ := exec_read_eq_next (hi.imp (fun hi => hi ▸ ht) fun hi => hi ▸ ht)
  obtain ⟨-, -, hframe, -, -, -, -, hhit, hmiss⟩ := access_frame hr
  obtain ⟨-, -, hhold, hage⟩ := access_keeps h hr
  obtain ⟨hlinesHit, hlinesMiss⟩ := access_lines h hr
  refine ⟨_, r.handle, ht, hhold a rfl, hage, readReply_resp h hr, hhit, hmiss, access_events hr .c2p,
    fun k hk => ?_, hlinesMiss, hframe⟩
  obtain ⟨hhandle, hlines⟩ := hlinesHit k hk
  exact ⟨hlines, hhandle⟩

/-- Settles O18: ACCESS depends on its operation in nothing but the fault it names. -/
theorem loadIsIfetchInsideCC : Obligations.LoadIsIfetchInsideCC := by
  refine fun s a => ⟨fun t => ?_, fun r => exec_load_eq_refused.trans exec_ifetch_eq_refused.symm, fun b => ?_⟩
  · rw [exec_load_eq_next, exec_ifetch_eq_next]
    exact exists_congr fun r => and_congr_left fun _ => ⟨access_op, access_op⟩
  · rw [exec_load_eq_fault, exec_ifetch_eq_fault, access_eq_addressOutOfRange, access_eq_addressOutOfRange]

/-- Settles O19: ACCESS of an accepted address completes in a machine in order, and a STORE adds to the line it leaves
one word and the dirty bit. -/
theorem storeCompletesInTheCache : Obligations.StoreCompletesInTheCache := by
  intro s a v h hready ha
  obtain ⟨t, ht⟩ := ccStore_completes (v := v) h hready ha
  obtain ⟨hhitCount, hmissCount⟩ := exec_access_counts_its_lookup (.inr (.inr rfl)) ht
  obtain ⟨r, hr, heq⟩ := ccStore_eq_next.1 ht
  obtain ⟨-, -, -, -, -, -, hhit, -⟩ := access_frame hr
  obtain ⟨-, -, hhold, hage⟩ := access_keeps h hr
  obtain ⟨hlinesHit, hlinesMiss⟩ := access_lines h hr
  have hholder : ∀ b, blockStart s.cfg b = blockStart s.cfg a → holder t b = some r.handle := fun b hb =>
    heq ▸ ((wordTransferred_storedState v hr).holder b).trans (hhold b hb)
  obtain ⟨hword, hwords⟩ := ccStore_leaves_words h ht hholder
  have hline : t.line r.handle.set r.handle.way =
      (r.state.line r.handle.set r.handle.way).written (blockOffset s.cfg a) v := heq ▸ line_storedState_same hr
  have hlineNe : ∀ w, w ≠ r.handle.way → t.line r.handle.set w = r.state.line r.handle.set w := fun w hw =>
    heq ▸ line_storedState_ne hr hw
  refine ⟨t, r.handle, ht, hholder a rfl, by rw [hline]; rfl, by rw [hline]; exact hage, hword, hwords,
    ⟨_, by rw [heq]; rfl, hhit, rfl⟩, hhitCount, hmissCount, by rw [heq]; exact access_events hr .p2c,
    fun k hk => ?_, fun hn => ?_, ccStore_memWord ht _ fun _ => not_inBlock_writtenBlock h,
    fun b => ccStore_memWord ht b, ccStore_frame ht⟩
  · obtain ⟨rfl, hlines⟩ := hlinesHit k hk
    obtain ⟨-, hway, -⟩ := holder_eq_some hk
    obtain ⟨-, -, ⟨hcfg, -⟩, -⟩ := access_frame hr
    refine ⟨rfl, ?_, fun w hw => (hlineNe w hw).trans (line_congr (s := touchLru _ s) hlines hcfg _ _)⟩
    rw [hline, line_congr (s := touchLru _ s) hlines hcfg, Line.written, blockData_touchLru hway]
  · obtain ⟨⟨hwayLt, hlow, hold, hothers⟩, hslot⟩ := hlinesMiss hn
    refine ⟨⟨hwayLt, hlow, hold, fun w hw => (hlineNe w hw).trans (hothers w hw)⟩, ?_⟩
    rw [hline, hslot]
    rfl

/-- Settles O22: in READY an access faults exactly where its address is not accepted. -/
theorem addressFaultsExactlyOutsideMemory : Obligations.AddressFaultsExactlyOutsideMemory := by
  refine fun s a v h hready => ⟨?_, ?_, ?_, fun f => ccFlush_ne_fault h, fun i hi ha => ?_⟩
  · simp [exec_ifetch_eq_fault, access_eq_addressOutOfRange, hready]
  · simp [exec_load_eq_fault, access_eq_addressOutOfRange, hready]
  · simp [exec_store_eq_fault, access_eq_addressOutOfRange, hready]
  · obtain ⟨op, hf⟩ := exec_access_of_bad hi hready ha
    rw [hf]
    exact ⟨rfl, rfl⟩

/-- Settles O26: the first load leaves its line with age 0, and TOUCHLRU of a line of age 0 changes nothing. -/
theorem secondReadHitsAndChangesNoLine : Obligations.SecondReadHitsAndChangesNoLine := by
  intro s t a b h ht hb
  obtain ⟨r, hr, rfl⟩ := exec_load_eq_next.1 ht
  obtain ⟨-, -, hhold, hage⟩ := access_keeps h hr
  obtain ⟨hInv, hready, hok, -⟩ := ready_for_same_block h (v := 0) (.inr (.inl rfl)) ht hb
  obtain ⟨-, -, hlogical⟩ := ccRead_keeps h (ccRead_eq_next.2 ⟨r, hr, rfl⟩)
  have hk : holder (readReply a r).state b = some r.handle := hhold b hb
  have hacc := access_of_hit (op := .load) hready hok hk
  obtain ⟨-, hway, -⟩ := holder_eq_some hk
  have hlines : (touchLru r.handle (readReply a r).state).lines = (readReply a r).state.lines := by
    rw [touchLru_of_age_zero hway hage]
  have hresp := readReply_resp hInv hacc
  rw [hk, show logical (readReply a r).state b = logical s b from hlogical b] at hresp
  exact ⟨_, exec_load_eq_next.2 ⟨_, hacc, rfl⟩, hlines, rfl, rfl, hresp⟩

/-- Settles O27: ACCESS and the word a STORE writes stay in the set of the address. -/
theorem accessTouchesOnlyItsSet : Obligations.AccessTouchesOnlyItsSet := fun _ _ _ _ _ hi ht _ hj =>
  exec_access_set_ne hi ht hj

end Sys2Proof.Proofs
end

section
/-! FLUSH and HALT (R112, R125, R150): what a flush brings to memory. -/

namespace Sys2Proof.Machine

theorem mem_dirtyHandles {s : State} {k : Handle} :
    k ∈ dirtyHandles s ↔ k ∈ allHandles s.cfg ∧ (s.line k.set k.way).dirty = true := List.mem_filter

theorem CacheOk.mem_allHandles_of_valid {s : State} (h : CacheOk s) {k : Handle}
    (hv : (s.line k.set k.way).valid = true) : k ∈ allHandles s.cfg :=
  mem_allHandles.2 (h.bounds_of_valid hv)

/-- A clean line equals memory on its block (R63). -/
theorem logical_of_clean {s : State} {k : Handle} {b : Nat} (h : Inv s) (hk : holder s b = some k)
    (hclean : (s.line k.set k.way).dirty = false) : logical s b = s.memWord b := by
  obtain ⟨hv, hb⟩ := h.cache.holder_iff.1 hk
  obtain ⟨⟨-, -, hmem⟩, -⟩ := h.cache.validLineOk hv
  rw [h.cache.logical_of_inBlock hv hb, hmem hclean, memRead_getD _ _ _ _ (by omega), Nat.add_sub_cancel' hb.1]

/-- A flush of all handles brings memory up to the logical memory: it writes the blocks of the dirty lines, and every
other word is in memory already. -/
theorem memWord_ccFlush {s t : State} (h : Inv s) (ht : ccFlush s = .next t) (b : Nat) :
    t.memWord b = logical s b := by
  obtain ⟨hInv, hlogical⟩ := ccFlush_keeps h ht
  obtain ⟨hcfg, hlines, -⟩ := ccFlush_frame ht
  obtain ⟨-, u, hu, rfl⟩ := ccFlush_eq_next.1 ht
  cases hk : holder s b with
  | none =>
    have hnone : holder (flushedState u) b = none :=
      (holder_congr hcfg (set_congr hlines _)).trans hk
    rw [← hlogical, logical_of_holder_none hnone]
  | some k =>
    obtain ⟨hv, hb⟩ := h.cache.holder_iff.1 hk
    have hsome : holder (flushedState u) b = some k := (holder_congr hcfg (set_congr hlines _)).trans hk
    cases hd : (s.line k.set k.way).dirty with
    | false => rw [← hlogical, logical_of_clean hInv hsome (by rw [line_congr hlines hcfg, hd])]
    | true =>
      obtain ⟨-, -, hwritten⟩ := flushHandles_keeps _ h hu
      exact hwritten k (h.cache.mem_allHandles_of_valid hv) hd b hb

/-- A flush leaves every word outside the blocks of dirty lines as it was. -/
theorem memWord_ccFlush_of_outside {s t : State} (ht : ccFlush s = .next t) {b : Nat}
    (hb : ∀ k ∈ dirtyHandles s, ¬ inBlock s.cfg (lineBase s.cfg (s.line k.set k.way)) b) :
    t.memWord b = s.memWord b := by
  obtain ⟨-, u, hu, rfl⟩ := ccFlush_eq_next.1 ht
  exact flushHandles_memWord_of_outside _ hu b fun k hk hd => hb k (mem_dirtyHandles.2 ⟨hk, hd⟩)

theorem exec_flush_or_halt {i : Instr} {s : State} (hi : i = .flush ∨ i = .halt) : exec i s = ccFlush s := by
  obtain rfl | rfl := hi
  · rfl
  · exact exec_halt_eq

end Sys2Proof.Machine

namespace Sys2Proof.Proofs

open Sys2Proof.Machine

/-- Settles O20: a machine in order has every dirty block inside memory, so the flush completes; the rest is its
frame. -/
theorem flushCompletes : Obligations.FlushCompletes := by
  intro s h hready
  obtain ⟨t, ht⟩ := ccFlush_completes h hready
  obtain ⟨hcfg, hlines, hhit, hmiss, hpc, hx, hreq, hrst, hcc, hreport, hev⟩ := ccFlush_frame ht
  obtain ⟨-, u, -, heq⟩ := ccFlush_eq_next.1 ht
  exact ⟨t, ht, hcc, hreport, hev, ⟨_, by rw [heq]; rfl, rfl⟩, hlines, hhit, hmiss, hcfg, hpc, hx, hreq, hrst⟩

/-- Settles O21: the flush writes the dirty blocks, and the clean ones are in memory already. -/
theorem flushMakesMemoryLogical : Obligations.FlushMakesMemoryLogical := fun _ _ h ht a =>
  ⟨memWord_ccFlush h ht a, (ccFlush_keeps h ht).2 a⟩

/-- Settles O35: no field of HALT names a register, and it executes FLUSH. -/
theorem haltFlushesAndStops : Obligations.HaltFlushesAndStops := by
  intro s f0 f1 f2 h hready
  obtain ⟨t, ht⟩ := ccFlush_completes h hready
  obtain ⟨-, -, -, -, hpc, -, -, -, hcc, hreport, -⟩ := ccFlush_frame ht
  exact ⟨decodeWord_packWord (o := .halt) h.opc_wf rfl, exec_halt_eq, t, exec_halt_eq.trans ht, hpc, hcc, hreport,
    memWord_ccFlush h ht⟩

/-- Settles O40: the frame of the flush. -/
theorem flushFrame : Obligations.FlushFrame := by
  intro s t i hi ht
  rw [exec_flush_or_halt hi] at ht
  obtain ⟨hcfg, hlines, hhit, hmiss, hpc, hx, hreq, hrst, -⟩ := ccFlush_frame ht
  exact ⟨hcfg, hlines, hhit, hmiss, hpc, hx, hreq, hrst, fun b => memWord_ccFlush_of_outside ht⟩

end Sys2Proof.Proofs
end

section
/-! The frames of the instructions in every state: what an instruction can do to the machine, said once for all twelve,
and what follows from it for the configuration, the events, the report, memory and the valid bits. -/

namespace Sys2Proof.Machine

/-! ## What an instruction can do -/

/-- What an instruction that answers did: it wrote the pc and registers alone, or after its write of the pc it was a
read, whose word it may put in a register, or a store, or it was a flush. -/
theorem exec_cases {i : Instr} {s t : State} (ht : exec i s = .next t) :
    SameButRegisters s t ∨
    (∃ op a p y, ccRead op a { s with pc := p } = .next y ∧ t = { y.state with x := t.x }) ∨
    (∃ a v p, ccStore a v { s with pc := p } = .next t) ∨
    ccFlush s = .next t := by
  cases i with
  | ifetch a =>
    obtain ⟨r, hr, rfl⟩ := exec_ifetch_eq_next.1 ht
    exact .inr (.inl ⟨_, _, s.pc, _, ccRead_eq_next.2 ⟨r, hr, rfl⟩, rfl⟩)
  | load a =>
    obtain ⟨r, hr, rfl⟩ := exec_load_eq_next.1 ht
    exact .inr (.inl ⟨_, _, s.pc, _, ccRead_eq_next.2 ⟨r, hr, rfl⟩, rfl⟩)
  | store a v => exact .inr (.inr (.inl ⟨_, _, s.pc, ht⟩))
  | flush => exact .inr (.inr (.inr ht))
  | add f0 f1 f2 =>
    obtain ⟨-, -, rfl⟩ := exec_add_eq_next.1 ht
    exact .inl rfl
  | nand f0 f1 f2 =>
    obtain ⟨-, -, rfl⟩ := exec_nand_eq_next.1 ht
    exact .inl rfl
  | lw f0 f1 f2 =>
    obtain ⟨-, -, y, hy, rfl⟩ := exec_lw_eq_next.1 ht
    exact .inr (.inl ⟨_, _, (advancePc s).pc, y, hy, rfl⟩)
  | sw f0 f1 f2 =>
    obtain ⟨-, -, ht⟩ := exec_sw_eq_next.1 ht
    exact .inr (.inr (.inl ⟨_, _, (advancePc s).pc, ht⟩))
  | beq f0 f1 f2 =>
    obtain ⟨-, -, rfl⟩ := exec_beq_eq_next.1 ht
    split <;> exact .inl rfl
  | jalr f0 f1 =>
    obtain ⟨-, -, rfl⟩ := exec_jalr_eq_next.1 ht
    exact .inl rfl
  | halt => exact .inr (.inr (.inr (exec_halt_eq ▸ ht)))
  | noop =>
    obtain ⟨-, rfl⟩ := exec_noop_eq_next.1 ht
    exact .inl rfl

/-! ## Configuration and attachment -/

theorem exec_keeps_attachment {i : Instr} {s t : State} (ht : exec i s = .next t) :
    t.cfg = s.cfg ∧ t.requester = s.requester := by
  obtain heq | ⟨op, a, p, y, hy, heq⟩ | ⟨a, v, p, hst⟩ | hfl := exec_cases ht
  · rw [heq]
    exact ⟨rfl, rfl⟩
  · obtain ⟨hcfg, -, -, -, -, hreq, -⟩ := ccRead_frame hy
    rw [heq]
    exact ⟨hcfg, hreq⟩
  · obtain ⟨hcfg, -, -, -, -, hreq, -⟩ := ccStore_frame hst
    exact ⟨hcfg, hreq⟩
  · obtain ⟨hcfg, -, -, -, -, -, hreq, -⟩ := ccFlush_frame hfl
    exact ⟨hcfg, hreq⟩

/-- The fetch keeps the configuration, and who is attached but for the command it takes from the stream. -/
theorem fetchNext_keeps_attachment {s : State} {f : Fetched} (hf : fetchNext s = .next f) :
    f.state.cfg = s.cfg ∧ (f.state.requester = s.requester ∨
      ∃ c rest, s.requester = .port (c :: rest) ∧ f.state.requester = .port rest) := by
  obtain ⟨-, y, hy, -, hstate⟩ | ⟨c, rest, hport, -, hstate⟩ := fetchNext_eq_next.1 hf <;> rw [hstate]
  · obtain ⟨hcfg, -, -, -, -, hreq, -⟩ := ccRead_frame hy
    exact ⟨hcfg, .inl hreq⟩
  · exact ⟨rfl, .inr ⟨c, rest, hport, rfl⟩⟩

theorem step_keeps_attachment {s t : State} (ht : step s = .next t) :
    t.cfg = s.cfg ∧ (t.requester = s.requester ∨
      ∃ c rest, s.requester = .port (c :: rest) ∧ t.requester = .port rest) := by
  obtain ⟨-, rfl⟩ | ⟨-, f, hf, hexec⟩ := step_eq_next.1 ht
  · exact ⟨rfl, .inl rfl⟩
  · obtain ⟨hcfg, hreq⟩ := exec_keeps_attachment hexec
    rw [hcfg, hreq]
    exact fetchNext_keeps_attachment hf

/-! ## Events and the report -/

theorem ccRead_events {op : AccessOp} {a : Int} {s : State} {y : Reply} (hy : ccRead op a s = .next y) :
    y.state.events = s.events ++ accessEvents s a.toNat .c2p := by
  obtain ⟨r, hr, rfl⟩ := ccRead_eq_next.1 hy
  exact access_events hr .c2p

theorem ccStore_events {a : Int} {v : Word} {s t : State} (ht : ccStore a v s = .next t) :
    t.events = s.events ++ accessEvents s a.toNat .p2c := by
  obtain ⟨r, hr, rfl⟩ := ccStore_eq_next.1 ht
  exact access_events hr .p2c

/-- From `s` to `t` events were appended (R41), and the report stayed with HALTED (R78). -/
def OutputsGrow (s t : State) : Prop :=
  s.events <+: t.events ∧ (ReportAtHalt s → ReportAtHalt t)

theorem OutputsGrow.trans {s t u : State} (h : OutputsGrow s t) (h' : OutputsGrow t u) : OutputsGrow s u :=
  ⟨h.1.trans h'.1, h'.2 ∘ h.2⟩

theorem OutputsGrow.of_eq {s t : State} (hev : s.events <+: t.events) (hreport : t.report = s.report)
    (hcc : t.ccState = s.ccState) : OutputsGrow s t :=
  ⟨hev, by rw [ReportAtHalt, ReportAtHalt, hreport, hcc]; exact id⟩

theorem ccRead_outputs {op : AccessOp} {a : Int} {s : State} {y : Reply} (hy : ccRead op a s = .next y) :
    OutputsGrow s y.state := by
  obtain ⟨-, hcc, hreport, -⟩ := ccRead_frame hy
  exact .of_eq ⟨_, (ccRead_events hy).symm⟩ hreport hcc

theorem ccStore_outputs {a : Int} {v : Word} {s t : State} (ht : ccStore a v s = .next t) : OutputsGrow s t := by
  obtain ⟨-, hcc, hreport, -⟩ := ccStore_frame ht
  exact .of_eq ⟨_, (ccStore_events ht).symm⟩ hreport hcc

/-- A flush emits its report and halts (R125, R128). -/
theorem ccFlush_outputs {s t : State} (ht : ccFlush s = .next t) : OutputsGrow s t := by
  obtain ⟨-, -, -, -, -, -, -, -, hcc, hreport, hev⟩ := ccFlush_frame ht
  exact ⟨⟨_, hev.symm⟩, fun _ => by simp [ReportAtHalt, hcc, hreport]⟩

theorem exec_outputs {i : Instr} {s t : State} (ht : exec i s = .next t) : OutputsGrow s t := by
  obtain heq | ⟨op, a, p, y, hy, heq⟩ | ⟨a, v, p, hst⟩ | hfl := exec_cases ht
  · rw [heq]
    exact .of_eq (List.prefix_refl _) rfl rfl
  · rw [heq]
    exact (ccRead_outputs hy :)
  · exact (ccStore_outputs hst :)
  · exact ccFlush_outputs hfl

theorem fetchNext_outputs {s : State} {f : Fetched} (hf : fetchNext s = .next f) : OutputsGrow s f.state := by
  obtain ⟨-, y, hy, -, hstate⟩ | ⟨c, rest, -, -, hstate⟩ := fetchNext_eq_next.1 hf <;> rw [hstate]
  · exact ccRead_outputs hy
  · exact .of_eq (List.prefix_refl _) rfl rfl

theorem step_outputs {s t : State} (hrst : s.rst = false) (ht : step s = .next t) : OutputsGrow s t := by
  rw [step_of_running hrst] at ht
  obtain ⟨f, hf, ht⟩ := andThen_eq_next.1 ht
  exact (fetchNext_outputs hf).trans (exec_outputs ht)

/-! ## Memory and the valid bits -/

theorem ccRead_memWord {op : AccessOp} {a : Int} {s : State} {y : Reply} (hy : ccRead op a s = .next y) (b : Nat)
    (hb : ∀ base, writtenBlock s a.toNat = some base → ¬ inBlock s.cfg base b) : y.state.memWord b = s.memWord b := by
  obtain ⟨r, hr, rfl⟩ := ccRead_eq_next.1 hy
  exact access_memWord hr b hb

/-- ACCESS drops a valid line only for another in its place. -/
theorem access_keeps_valid {op : AccessOp} {a : Int} {s : State} {r : Accessed} (hr : access op a s = .next r)
    {j w : Nat} (hv : (s.line j w).valid = true) : (r.state.line j w).valid = true := by
  obtain ⟨-, -, ⟨k, hk, rfl⟩ | ⟨-, p, hp, rfl⟩⟩ := access_eq_next hr
  · obtain ⟨-, hway, hkv, -⟩ := holder_eq_some hk
    show ((touchLru k (countHit s)).line j w).valid = true
    rw [line_touchLru (s := countHit s) hway]
    split_ifs with hj hw
    · exact hkv
    · rw [ageBelow_valid, ← hj]
      exact hv
    · exact hv
  · obtain ⟨hframe, -⟩ := makeRoom_frame hp
    have hlines : p.state.lines = (countMiss s).lines := by rw [hframe]
    have hcfg : p.state.cfg = (countMiss s).cfg := by rw [hframe]
    have hway := makeRoom_way_lt hp
    rw [← set_congr hlines] at hway
    have hold : (p.state.line j w).valid = true := by
      rw [line_congr hlines hcfg]
      exact hv
    show ((fill a.toNat p.handle p.state).line j w).valid = true
    rw [line_fill hway]
    split_ifs with hj hw
    · rfl
    · rw [ageBelow_valid, ← hj]
      exact hold
    · exact hold

/-- From `s` to `t` memory changed only in the blocks of lines dirty in `s`, and no valid line became invalid. -/
def WritesBackOnly (s t : State) : Prop :=
  (∀ b, t.memWord b ≠ s.memWord b →
    ∃ k : Handle, (s.line k.set k.way).dirty = true ∧ inBlock s.cfg (lineBase s.cfg (s.line k.set k.way)) b) ∧
  ∀ j w, (s.line j w).valid = true → (t.line j w).valid = true

/-- The one block an access can write is that of a dirty line. -/
theorem exists_dirty_of_writtenBlock {s : State} {a b : Nat} {v : Word} (hne : v ≠ s.memWord b)
    (hout : (∀ base, writtenBlock s a = some base → ¬ inBlock s.cfg base b) → v = s.memWord b) :
    ∃ k : Handle, (s.line k.set k.way).dirty = true ∧
      inBlock s.cfg (lineBase s.cfg (s.line k.set k.way)) b := by
  by_contra hnone
  refine hne (hout fun base hbase hb => ?_)
  obtain ⟨-, k, hd, rfl⟩ := writtenBlock_eq_some hbase
  exact hnone ⟨k, hd, hb⟩

theorem ccRead_writesBackOnly {op : AccessOp} {a : Int} {s : State} {y : Reply} (hy : ccRead op a s = .next y) :
    WritesBackOnly s y.state := by
  refine ⟨fun b hne => exists_dirty_of_writtenBlock hne (ccRead_memWord hy b), fun j w hv => ?_⟩
  obtain ⟨r, hr, rfl⟩ := ccRead_eq_next.1 hy
  exact access_keeps_valid hr hv

theorem ccStore_writesBackOnly {a : Int} {v : Word} {s t : State} (ht : ccStore a v s = .next t) :
    WritesBackOnly s t := by
  refine ⟨fun b hne => exists_dirty_of_writtenBlock hne (ccStore_memWord ht b), fun j w hv => ?_⟩
  obtain ⟨r, hr, rfl⟩ := ccStore_eq_next.1 ht
  rw [line_storedState hr]
  split_ifs with hjw
  · obtain ⟨rfl, rfl⟩ := hjw
    exact access_keeps_valid hr hv
  · exact access_keeps_valid hr hv

theorem ccFlush_writesBackOnly {s t : State} (ht : ccFlush s = .next t) : WritesBackOnly s t := by
  obtain ⟨hcfg, hlines, -⟩ := ccFlush_frame ht
  refine ⟨fun b hne => ?_, fun j w hv => by rwa [line_congr hlines hcfg]⟩
  by_contra hnone
  exact hne (memWord_ccFlush_of_outside ht fun k hk hb => hnone ⟨k, (mem_dirtyHandles.1 hk).2, hb⟩)

theorem exec_writesBackOnly {i : Instr} {s t : State} (ht : exec i s = .next t) : WritesBackOnly s t := by
  obtain heq | ⟨op, a, p, y, hy, heq⟩ | ⟨a, v, p, hst⟩ | hfl := exec_cases ht
  · rw [heq]
    exact ⟨fun b hne => absurd rfl hne, fun j w => id⟩
  · rw [heq]
    exact (ccRead_writesBackOnly hy :)
  · exact (ccStore_writesBackOnly hst :)
  · exact ccFlush_writesBackOnly hfl

end Sys2Proof.Machine

namespace Sys2Proof.Proofs

open Sys2Proof.Machine

/-- Settles O37: the register instructions are updates of the pc and of one register. -/
theorem registerInstructionsFrame : Obligations.RegisterInstructionsFrame := by
  refine fun s t f0 f1 f2 => ⟨fun ht => ?_, fun ht => ?_, fun ht => ?_⟩
  · obtain ht | ht := ht
    · obtain ⟨-, -, rfl⟩ := exec_add_eq_next.1 ht
      exact ⟨rfl, fun n hn => reg_putReg_ne hn, fun b => rfl⟩
    · obtain ⟨-, -, rfl⟩ := exec_nand_eq_next.1 ht
      exact ⟨rfl, fun n hn => reg_putReg_ne hn, fun b => rfl⟩
  · obtain ⟨-, -, rfl⟩ := exec_jalr_eq_next.1 ht
    exact ⟨rfl, fun n hn => linked_reg_ne hn, fun b => rfl⟩
  · obtain ht | ht := ht
    · obtain ⟨-, -, rfl⟩ := exec_beq_eq_next.1 ht
      split <;> exact ⟨rfl, fun b => rfl⟩
    · obtain ⟨-, rfl⟩ := exec_noop_eq_next.1 ht
      exact ⟨rfl, fun b => rfl⟩

/-- Settles O38: the frame of ACCESS; LW is the read after the increment of the pc, and the write of one register. -/
theorem readsFrame : Obligations.ReadsFrame := by
  refine fun s t => ⟨fun a ht => ?_, fun f0 f1 f2 ht => ?_⟩
  · obtain ⟨op, r, hr, rfl⟩ := exec_read_eq_next ht
    obtain ⟨-, -, hframe, -, hfree, hsets, -⟩ := access_frame hr
    exact ⟨hframe, hfree, hsets, access_memWord hr⟩
  · obtain ⟨-, -, y, hy, rfl⟩ := exec_lw_eq_next.1 ht
    obtain ⟨r, hr, rfl⟩ := ccRead_eq_next.1 hy
    obtain ⟨-, -, ⟨hcfg, hcc, hreport, -, hx, hreq, hrst⟩, -, hfree, hsets, -⟩ := access_frame hr
    exact ⟨⟨hcfg, hcc, hreport, rfl, rfl, hreq, hrst⟩, hfree,
      fun n hn => (reg_putReg_ne hn).trans (reg_congr hx n), hsets, (access_memWord hr :)⟩

/-- Settles O39: the frame of ACCESS and of the write of a word; SW is the store after the increment of the pc. -/
theorem storesFrame : Obligations.StoresFrame := by
  refine fun s t => ⟨fun a v ht => ?_, fun f0 f1 f2 ht => ?_⟩
  · exact ⟨ccStore_frame ht, fun j hj => ccStore_set_ne ht hj, fun b => ccStore_memWord ht b⟩
  · obtain ⟨-, -, ht⟩ := exec_sw_eq_next.1 ht
    obtain ⟨hcfg, hcc, hreport, -, hx, hreq, hrst⟩ := ccStore_frame ht
    exact ⟨⟨hcfg, hcc, hreport, rfl, hx, hreq, hrst⟩, fun j hj => ccStore_set_ne ht hj,
      fun b => ccStore_memWord ht b⟩

/-- Settles O55: no instruction writes the configuration or the attachment; the fetch of a command shortens the
stream. -/
theorem configurationIsConstant : Obligations.ConfigurationIsConstant := fun _ _ =>
  ⟨step_keeps_attachment, fun _ => exec_keeps_attachment⟩

/-- Settles O56: the accesses write the block of a dirty victim, the flush those of dirty lines, and the other
instructions none. -/
theorem onlyDirtyBlocksReachMemory : Obligations.OnlyDirtyBlocksReachMemory := fun _ _ _ => exec_writesBackOnly

/-- Settles O57: the fetch and every instruction append events, and only the flush writes the report, as it halts. -/
theorem eventStreamOnlyGrows : Obligations.EventStreamOnlyGrows := by
  intro s t hrst ht
  obtain ⟨⟨es, hes⟩, hreport⟩ := step_outputs hrst ht
  exact ⟨⟨es, hes.symm⟩, hreport⟩

end Sys2Proof.Proofs
end

section
/-! ADD and BEQ (R143, R148), and the two checks an instruction makes before anything else: READY, and that its
registers exist (R83, R120). -/

namespace Sys2Proof.Machine

/-! ## ADD -/

/-- ADD that names registers completes: it writes its destination and the pc (R143). -/
theorem exec_add_completes {s : State} {f0 f1 : BitVec 3} {f2 : BitVec 16} (h : Inv s) (hready : s.ccState = .ready)
    (hn : (Instr.add f0 f1 f2).namesRegisters s.cfg.numRegs = true) :
    ∃ t, exec (.add f0 f1 f2) s = .next t ∧
      t.reg f2.toInt.toNat = sumWord s.cfg.xlen (s.reg f0.toNat) (s.reg f1.toNat) ∧
      (∀ n, n ≠ f2.toInt.toNat → t.reg n = s.reg n) ∧ t.pc = nextPc s ∧ SameButRegisters s t := by
  have hlt : f2.toInt.toNat < (advancePc s).x.length := h.regs ▸ destination_lt hn rfl
  exact ⟨_, exec_add_eq_next.2 ⟨hready, hn, rfl⟩, reg_putReg_same hlt, fun n hne => reg_putReg_ne hne,
    wrap_eq_mod .., rfl⟩

/-! ## BEQ -/

/-- The pc BEQ leaves (R148). -/
def branchedPc (f0 f1 : BitVec 3) (f2 : BitVec 16) (s : State) : Word :=
  if s.reg f0.toNat = s.reg f1.toNat then branchTarget s.cfg.xlen (advancePc s).pc f2 else nextPc s

theorem exec_beq_of_ok {s : State} {f0 f1 : BitVec 3} {f2 : BitVec 16} (hready : s.ccState = .ready)
    (hn : (Instr.beq f0 f1 f2).namesRegisters s.cfg.numRegs = true) :
    exec (.beq f0 f1 f2) s = .next { s with pc := branchedPc f0 f1 f2 s } := by
  refine exec_beq_eq_next.2 ⟨hready, hn, ?_⟩
  by_cases heq : s.reg f0.toNat = s.reg f1.toNat
  · rw [branchedPc, if_pos heq, if_pos (show fieldReg s f0 = fieldReg s f1 from heq)]
    rfl
  · rw [branchedPc, if_neg heq, if_neg (show ¬ fieldReg s f0 = fieldReg s f1 from heq), advancePc_eq]

variable {s : State} {f0 f1 : BitVec 3} {f2 : BitVec 16}

theorem branchedPc_of_ne (hne : s.reg f0.toNat ≠ s.reg f1.toNat) : branchedPc f0 f1 f2 s = nextPc s := if_neg hne

theorem branchedPc_of_eq (heq : s.reg f0.toNat = s.reg f1.toNat) :
    (branchedPc f0 f1 f2 s : Int) = ((s.pc : Int) + 1 + f2.toInt) % 2 ^ s.cfg.xlen := by
  rw [branchedPc, if_pos heq, branchTarget_eq_emod]

/-- A target that is a word is the target itself. -/
theorem branchedPc_of_target {n : Nat} (heq : s.reg f0.toNat = s.reg f1.toNat)
    (hn : (s.pc : Int) + 1 + f2.toInt = n) (hlt : n < 2 ^ s.cfg.xlen) : branchedPc f0 f1 f2 s = n := by
  have htarget := branchedPc_of_eq (f2 := f2) heq
  rw [hn, Int.emod_eq_of_lt (Int.natCast_nonneg n) (by exact_mod_cast hlt)] at htarget
  exact_mod_cast htarget

/-- BEQ by 0 goes on with the next instruction, taken or not. -/
theorem branchedPc_zero : branchedPc f0 f1 0 s = nextPc s := by
  by_cases heq : s.reg f0.toNat = s.reg f1.toNat
  · have htarget := branchedPc_of_eq (f2 := 0) heq
    rw [show (0 : BitVec 16).toInt = 0 from rfl, add_zero] at htarget
    exact_mod_cast htarget
  · exact branchedPc_of_ne heq

/-! ## Instructions and their checks -/

/-- An instruction is one of the requester, which makes the requester's checks, or one of the four commands. -/
theorem exec_requester_or_command (i : Instr) (s : State) :
    (∃ k, exec i s = asRequester i s k) ∨ (∃ a v, IsAccess i a v) ∨ i = .flush := by
  cases i with
  | ifetch a => exact .inr (.inl ⟨a, 0, .inl rfl⟩)
  | load a => exact .inr (.inl ⟨a, 0, .inr (.inl rfl)⟩)
  | store a v => exact .inr (.inl ⟨a, v, .inr (.inr rfl)⟩)
  | flush => exact .inr (.inr rfl)
  | add | nand | lw | sw | beq | jalr | halt | noop => exact .inl ⟨_, rfl⟩

/-- Outside READY no instruction is accepted (R120). -/
theorem exec_of_not_ready (hready : s.ccState ≠ .ready) (i : Instr) : exec i s = .refused (.notReady s.ccState) := by
  obtain ⟨k, hk⟩ | ⟨a, v, rfl | rfl | rfl⟩ | rfl := exec_requester_or_command i s
  · rw [hk, asRequester_of_not_ready hready]
  · exact exec_ifetch_eq_refused.2 ⟨hready, rfl⟩
  · exact exec_load_eq_refused.2 ⟨hready, rfl⟩
  · exact exec_store_eq_refused.2 ⟨hready, rfl⟩
  · exact whenReady_of_not_ready hready

end Sys2Proof.Machine

namespace Sys2Proof.Proofs

open Sys2Proof.Machine

/-- Settles O28: ADD writes `sumWord` of its sources, which is the sum modulo `2^XLEN`. -/
theorem addWritesTheSum : Obligations.AddWritesTheSum := by
  intro s f0 f1 f2 h hready hn
  obtain ⟨t, ht, hdest, hrest⟩ := exec_add_completes h hready hn
  exact ⟨t, ht, hdest.trans (wrap_eq_mod ..), hrest⟩

/-- Settles O33: BEQ writes the pc alone; its corner cases are facts of the integer target modulo `2^XLEN`. -/
theorem beqBranchesOnEquality : Obligations.BeqBranchesOnEquality := by
  refine ⟨fun s f0 f1 f2 h hready hn => ⟨decodeWord_packWord (o := .beq) h.opc_wf hn, _, exec_beq_of_ok hready hn, rfl,
    branchedPc_of_ne, fun heq => ⟨branchedPc_of_eq heq, fun hlow hhigh => ?_⟩, ?_, fun hm1 heq hpc => ?_, ?_,
    fun hrst hreq hout => step_of_pc_outside hrst hreq hready hout⟩, by decide, fun s h hready hpc => ?_⟩
  · exact (branchedPc_of_eq heq).trans (Int.emod_eq_of_lt hlow hhigh)
  · rintro rfl
    exact branchedPc_of_eq rfl
  · exact branchedPc_of_target heq (by rw [hm1]; ring) hpc
  · rintro rfl
    exact branchedPc_zero
  · obtain ⟨-, -, -, ⟨hregs, -⟩, -⟩ := h.constraints
    have hn : (Instr.beq 0 0 0xFFFD#16).namesRegisters s.cfg.numRegs = true := by
      simp [Instr.namesRegisters, Instr.fieldsAreRegisters, Instr.destinationIsRegister, Instr.registerFields,
        Instr.destinationField, Nat.lt_of_lt_of_le Nat.zero_lt_one hregs]
    refine ⟨_, exec_beq_of_ok hready hn, branchedPc_of_target rfl (by rw [hpc]; decide) ?_⟩
    exact lt_of_lt_of_le (by decide) (Nat.pow_le_pow_right two_pos h.xlen_ge)

/-- Settles O36: an instruction that names a register is one of the requester, which checks them. -/
theorem nonexistentRegistersAreRefused : Obligations.NonexistentRegistersAreRefused := by
  intro s i hready hn
  obtain ⟨k, hk⟩ | ⟨a, v, rfl | rfl | rfl⟩ | rfl := exec_requester_or_command i s
  · rw [hk]
    exact asRequester_of_ill_formed hready hn
  all_goals cases hn

end Sys2Proof.Proofs
end

section
/-! The step (R141, R180): the command of the stream, the fetch of the engine, the faults of both, the reset. -/

namespace Sys2Proof.Machine

/-! ## The step of a command stream -/

theorem step_of_command {s : State} {c : CommandWord} {rest : List CommandWord} (hrst : s.rst = false)
    (hport : s.requester = .port (c :: rest)) :
    step s = exec (decodeCommand s.cfg.xlen c) { s with requester := .port rest } := by
  simp only [step_of_running hrst, fetchNext, hport, fetchPort, decode, andThen_next]

theorem step_of_no_command {s : State} (hrst : s.rst = false) (hport : s.requester = .port []) :
    step s = .refused .noCommandOffered := by
  simp only [step_of_running hrst, fetchNext, hport, fetchPort, andThen_refused]

/-! ## Where the fetch stops -/

theorem step_of_fetch_fault {s : State} {f : Fault} (hrst : s.rst = false) (hreq : s.requester = .engine)
    (hf : ccRead .ifetch s.pc s = .fault f) : step s = .fault f := by
  simp only [step_of_running hrst, fetchNext, hreq, fetchEngine, hf, andThen_fault]

theorem step_of_fetch_refused {s : State} {r : Refusal} (hrst : s.rst = false) (hreq : s.requester = .engine)
    (hr : ccRead .ifetch s.pc s = .refused r) : step s = .refused r := by
  simp only [step_of_running hrst, fetchNext, hreq, fetchEngine, hr, andThen_refused]

theorem ccRead_of_not_ready {op : AccessOp} {a : Int} {s : State} (hready : s.ccState ≠ .ready) :
    ccRead op a s = .refused (.notReady s.ccState) := by
  rw [ccRead_eq, access_of_not_ready hready, andThen_refused]

/-- Outside READY the machine has no step without reset (R33, R120). -/
theorem step_of_not_ready {s : State} (hready : s.ccState ≠ .ready) (hrst : s.rst = false) :
    ∃ r, step s = .refused r := by
  cases hreq : s.requester with
  | engine => exact ⟨_, step_of_fetch_refused hrst hreq (ccRead_of_not_ready hready)⟩
  | port offered =>
    cases offered with
    | nil => exact ⟨_, step_of_no_command hrst hreq⟩
    | cons c rest =>
      exact ⟨_, (step_of_command hrst hreq).trans
        (exec_of_not_ready (s := { s with requester := .port rest }) hready _)⟩

/-- What the fetch of an accepted pc leaves for the instruction: READY, the registers and so the effective addresses
as they were, and the logical word to decode. -/
theorem fetch_completes {s : State} (h : Inv s) (hready : s.ccState = .ready) (ha : addressOk s.cfg s.pc) :
    ∃ y, ccRead .ifetch s.pc s = .next y ∧ y.rdata = logical s s.pc ∧ y.state.cfg = s.cfg ∧
      y.state.ccState = .ready ∧ ∀ f1 f2, memAddress y.state f1 f2 = memAddress s f1 f2 := by
  obtain ⟨y, hy⟩ := ccRead_completes (op := .ifetch) h hready ha
  obtain ⟨hcfg, hcc, -, -, hx, -⟩ := ccRead_frame hy
  obtain ⟨-, hword, -⟩ := ccRead_keeps h hy
  exact ⟨y, hy, hword, hcfg, hcc.trans hready, fun f1 f2 => by rw [memAddress, memAddress, hcfg, reg_congr hx]⟩

/-! ## Faults of a machine in order -/

theorem ccRead_eq_fault {op : AccessOp} {a : Int} {s : State} {f : Fault} (h : Inv s)
    (hf : ccRead op a s = .fault f) : f = .addressOutOfRange op a := by
  rw [ccRead_eq, andThen_eq_fault] at hf
  obtain hf | ⟨r, -, hf⟩ := hf
  · obtain ⟨-, -, rfl⟩ := access_eq_fault h hf
    rfl
  · cases hf

theorem ccStore_eq_fault {a : Int} {v : Word} {s : State} {f : Fault} (h : Inv s)
    (hf : ccStore a v s = .fault f) : f = .addressOutOfRange .store a := by
  rw [ccStore_eq, andThen_eq_fault] at hf
  obtain hf | ⟨r, -, hf⟩ := hf
  · obtain ⟨-, -, rfl⟩ := access_eq_fault h hf
    rfl
  · cases hf

theorem asRequester_next_ne_fault {i : Instr} {s u : State} {f : Fault} : asRequester i s (.next u) ≠ .fault f := by
  intro hf
  obtain ⟨-, -, hf⟩ := asRequester_eq_fault.1 hf
  cases hf

/-- An instruction faults only through its access, and that access only on its address. -/
theorem exec_eq_fault {i : Instr} {s : State} {f : Fault} (h : Inv s) (hf : exec i s = .fault f) :
    ∃ op a, f = .addressOutOfRange op a := by
  cases i with
  | ifetch a =>
    obtain ⟨-, -, rfl⟩ := access_eq_fault h (exec_ifetch_eq_fault.1 hf)
    exact ⟨_, _, rfl⟩
  | load a =>
    obtain ⟨-, -, rfl⟩ := access_eq_fault h (exec_load_eq_fault.1 hf)
    exact ⟨_, _, rfl⟩
  | store a v => exact ⟨_, _, ccStore_eq_fault h hf⟩
  | flush => exact absurd hf (ccFlush_ne_fault h)
  | lw f0 f1 f2 =>
    obtain ⟨-, -, hf⟩ := asRequester_eq_fault.1 hf
    obtain hf | ⟨y, -, hf⟩ := andThen_eq_fault.1 hf
    · exact ⟨_, _, ccRead_eq_fault h.advancePc hf⟩
    · cases hf
  | sw f0 f1 f2 =>
    obtain ⟨-, -, hf⟩ := asRequester_eq_fault.1 hf
    exact ⟨_, _, ccStore_eq_fault h.advancePc hf⟩
  | halt => exact absurd (exec_halt_eq ▸ hf) (ccFlush_ne_fault h)
  | add | nand | beq | jalr => exact absurd hf asRequester_next_ne_fault
  | noop => exact absurd hf (asRequester_next_ne_fault (i := .noop))

/-- The fetch faults only on the pc: the decoder of either requester refuses, and does not fault. -/
theorem fetchNext_eq_fault {s : State} {f : Fault} (h : Inv s) (hf : fetchNext s = .fault f) :
    f = .addressOutOfRange .ifetch s.pc := by
  cases hreq : s.requester with
  | engine =>
    rw [fetchNext, hreq] at hf
    obtain hf | ⟨y, -, hf⟩ := andThen_eq_fault.1 hf
    · exact ccRead_eq_fault h hf
    · split at hf <;> cases hf
  | port offered =>
    rw [fetchNext, hreq] at hf
    cases offered with
    | nil => cases hf
    | cons c rest => cases hf

theorem step_eq_fault {s : State} {f : Fault} (h : Inv s) (hf : step s = .fault f) :
    ∃ op a, f = .addressOutOfRange op a := by
  cases hrst : s.rst with
  | true =>
    rw [step_of_reset hrst] at hf
    cases hf
  | false =>
    rw [step_of_running hrst] at hf
    obtain hf | ⟨x, hx, hf⟩ := andThen_eq_fault.1 hf
    · exact ⟨_, _, fetchNext_eq_fault h hf⟩
    · exact exec_eq_fault (fetchNext_keeps_inv h hx) hf

/-! ## Reset -/

theorem set_applyReset {s : State} {i : Nat} (hi : i < s.cfg.setCount) :
    (applyReset s).set i = List.replicate s.cfg.associativity (Line.afterReset s.cfg) :=
  set_resetWith (m := s.mem) hi

theorem line_applyReset {s : State} {i w : Nat} (hi : i < s.cfg.setCount) (hw : w < s.cfg.associativity) :
    (applyReset s).line i w = Line.afterReset s.cfg := by
  have hlen : w < ((applyReset s).set i).length := by rwa [set_applyReset hi, List.length_replicate]
  exact eq_afterReset_of_mem (m := s.mem) (line_mem (s := applyReset s) hlen)

end Sys2Proof.Machine

namespace Sys2Proof.Proofs

open Sys2Proof.Machine

/-- Settles O41: what the step does with what either requester fetches. -/
theorem stepRunsTheDecodedInstruction : Obligations.StepRunsTheDecodedInstruction :=
  ⟨fun _ _ _ hrst hreq hy hi => step_of_fetch hrst hreq hy hi, fun _ _ _ => step_of_command,
    fun _ => step_of_no_command⟩

/-- Settles O42: the fetch is a read of the pc, which returns the logical word in a machine in order. -/
theorem engineFetchesTheLogicalWord : Obligations.EngineFetchesTheLogicalWord := by
  intro s h hrst hreq hready ha
  obtain ⟨y, hy, hword, -⟩ := fetch_completes h hready ha
  exact ⟨y, hy, hword, fun i hi => step_of_fetch hrst hreq hy (hword ▸ hi)⟩

/-- Settles O43: a bad pc stops the read of the fetch; after a fetch that completes the registers are as they were, so
the bad effective address stops the access of LW or SW. -/
theorem fetchFaultPrecedesDataFault : Obligations.FetchFaultPrecedesDataFault := by
  intro s h hrst hreq hready
  refine ⟨fun ha => step_of_fetch_fault hrst hreq (ccRead_of_bad hready ha), fun ha f0 f1 f2 hbad => ?_⟩
  obtain ⟨y, hy, hword, hcfg, hcc, haddr⟩ := fetch_completes h hready ha
  rw [← hword, ← haddr]
  rw [← haddr, ← hcfg] at hbad
  refine ⟨fun hi => ?_, fun hi => ?_⟩ <;> obtain ⟨-, -, hn⟩ := decodeWord_eq_ok hi <;> rw [← hcfg] at hn
  · exact (step_of_data_fault hrst hreq hy hi (exec_lw_of_bad hcc hn hbad)).1
  · exact (step_of_data_fault hrst hreq hy hi (exec_sw_of_bad hcc hn hbad)).1

/-- Settles O44: the step with the reset input asserted is the reset, whose line array holds lines after reset. -/
theorem resetInputRestoresTheResetState : Obligations.ResetInputRestoresTheResetState := by
  intro s hrst
  refine ⟨applyReset s, step_of_reset hrst, rfl, rfl, rfl, rfl, rfl, rfl, rfl, rfl, rfl, rfl, rfl, rfl,
    List.length_replicate, fun i hi => ⟨?_, fun w hw => ?_⟩⟩
  · rw [set_applyReset hi, List.length_replicate]
  · rw [line_applyReset hi hw]
    exact ⟨rfl, rfl, rfl, rfl, rfl, rfl⟩

/-- Settles O45: every instruction tests READY first, and the fetch of the engine is one. -/
theorem nothingRunsOutsideReady : Obligations.NothingRunsOutsideReady := fun _ hready =>
  ⟨exec_of_not_ready hready, step_of_not_ready hready⟩

/-- Settles O54: in a machine in order a miss finds a victim and every write-back lies in memory, so the fetch and
every instruction fault on an address alone. -/
theorem onlyAddressFaultsWhileRunning : Obligations.OnlyAddressFaultsWhileRunning := by
  refine fun s f h => ⟨fun hf => ?_, fun i hf => ?_⟩
  · obtain ⟨op, a, rfl⟩ := step_eq_fault h hf
    exact ⟨rfl, rfl⟩
  · obtain ⟨op, a, rfl⟩ := exec_eq_fault h hf
    rfl

end Sys2Proof.Proofs
end

section
/-! What stands before the first step: construction of the configuration, the image, the state after boot and reset
(R161, R164, R181, R184). -/

namespace Sys2Proof.Machine

/-! ## Construction -/

/-- The input that supplies a configuration. -/
def inputOf (c : Config) : ConfigInput :=
  { blockSizeInWords := some c.blockSize, setCount := some c.setCount, associativity := some c.associativity,
    xlen := c.xlen, memWords := c.memWords, numRegs := c.numRegs, regInit := c.regInit, memFill := c.memFill,
    opc := c.opc }

theorem exactLog2_two_pow (e : Nat) : exactLog2 (2 ^ e) = some e := by
  rw [exactLog2, Nat.log2_two_pow, if_pos rfl]

theorem two_pow_of_exactLog2 {n e : Nat} (h : exactLog2 n = some e) : n = 2 ^ e := by
  unfold exactLog2 at h
  split at h
  case isTrue hn =>
    cases h
    exact hn.symm
  case isFalse => cases h

theorem powerOfTwo_eq_next {p : Parameter} {given : Option Nat} {e : Nat} :
    powerOfTwo p given = .next e ↔ given = some (2 ^ e) := by
  constructor
  · intro h
    unfold powerOfTwo at h
    split at h
    case h_1 e' he =>
      cases h
      obtain ⟨n, rfl, hn⟩ := Option.bind_eq_some_iff.1 he
      rw [two_pow_of_exactLog2 hn]
    case h_2 => cases h
  · rintro rfl
    rw [powerOfTwo, Option.bind_some, exactLog2_two_pow]

theorem require_eq_next {p : Parameter} {ok : Bool} {u : Unit} : require p ok = .next u ↔ ok = true := by
  cases ok <;> simp [require]

theorem associativity_given {A : Option Nat} (h : 1 ≤ A.getD 0) : A = some (A.getD 0) := by
  cases A with
  | none => cases h
  | some n => rfl

/-- Construction answers exactly the configurations that meet the constraints, each from the input that supplies it. -/
theorem construct_eq_next {g : ConfigInput} {c : Config} : construct g = .next c ↔ g = inputOf c ∧ c.constraints := by
  simp only [construct, andThen_eq_next, powerOfTwo_eq_next, require_eq_next, decide_eq_true_eq]
  constructor
  · rintro ⟨b, hb, e, he, -, hA, -, hxlen, -, hmem, -, hregs, -, hopc, -, hinit, -, hfill, heq⟩
    cases heq
    refine ⟨?_, hA, hxlen, hmem, hregs, hopc, hinit, hfill⟩
    obtain ⟨⟩ := g
    cases hb
    cases he
    exact congrArg (ConfigInput.mk _ _ · _ _ _ _ _ _) (associativity_given hA)
  · rintro ⟨rfl, hA, hxlen, hmem, hregs, hopc, hinit, hfill⟩
    exact ⟨_, rfl, _, rfl, (), hA, (), hxlen, (), hmem, (), hregs, (), hopc, (), hinit, (), hfill, rfl⟩

/-- An outcome of construction: an answer, or a ConfigurationError (R161). -/
def AnswersOrConfigurationError {α : Type} (o : Host.Outcome α Fault Refusal) : Prop :=
  (∃ a, o = .next a) ∨ ∃ p, o = .fault (.configurationError p)

theorem AnswersOrConfigurationError.andThen {α β : Type} {o : Host.Outcome α Fault Refusal}
    {k : α → Host.Outcome β Fault Refusal} (ho : AnswersOrConfigurationError o)
    (hk : ∀ a, AnswersOrConfigurationError (k a)) : AnswersOrConfigurationError (Machine.andThen o k) := by
  obtain ⟨a, rfl⟩ | ⟨p, rfl⟩ := ho
  · exact hk a
  · exact .inr ⟨p, rfl⟩

theorem powerOfTwo_answers (p : Parameter) (given : Option Nat) :
    AnswersOrConfigurationError (powerOfTwo p given) := by
  unfold powerOfTwo
  split
  · exact .inl ⟨_, rfl⟩
  · exact .inr ⟨p, rfl⟩

theorem require_answers (p : Parameter) (ok : Bool) : AnswersOrConfigurationError (require p ok) := by
  cases ok
  · exact .inr ⟨p, rfl⟩
  · exact .inl ⟨(), rfl⟩

theorem construct_answers (g : ConfigInput) : AnswersOrConfigurationError (construct g) :=
  (powerOfTwo_answers ..).andThen fun _ => (powerOfTwo_answers ..).andThen fun _ =>
    (require_answers ..).andThen fun _ => (require_answers ..).andThen fun _ => (require_answers ..).andThen fun _ =>
    (require_answers ..).andThen fun _ => (require_answers ..).andThen fun _ => (require_answers ..).andThen fun _ =>
    (require_answers ..).andThen fun _ => .inl ⟨_, rfl⟩

/-- `XLEN` is tested after `B`, `S` and `A` (log 27). -/
theorem construct_of_bad_xlen {g : ConfigInput} {b e n : Nat} (hb : g.blockSizeInWords = some (2 ^ b))
    (he : g.setCount = some (2 ^ e)) (hA : g.associativity = some (n + 1)) (hxlen : g.xlen < 25) :
    construct g = .fault (.configurationError .xlen) := by
  simp [construct, powerOfTwo_eq_next.2 hb, powerOfTwo_eq_next.2 he, hA, require, Nat.not_le.2 hxlen]

/-! ## Boot -/

theorem boot_of_construct_fault {g : ConfigInput} {f : Fault} (h : construct g = .fault f)
    (image : Option (List Word)) : boot g image = .fault f := by
  rw [boot, h, andThen_fault]

theorem boot_without_image {g : ConfigInput} {c : Config} (h : construct g = .next c) :
    boot g none = .fault .imageLoadError := by
  rw [boot, h, andThen_next]

/-- Boot with an image answers the reset state of the configuration supplied over the loaded image, where the image
fits (R184). -/
theorem boot_eq_next {g : ConfigInput} {ws : List Word} {s : State} (h : boot g (some ws) = .next s) :
    ∃ c, g = inputOf c ∧ c.constraints ∧ ws.length ≤ c.memWords ∧ (∀ w ∈ ws, w < 2 ^ c.xlen) ∧
      s = State.resetWith c (loadImage c ws) := by
  obtain ⟨c, hc, h⟩ := andThen_eq_next.1 h
  obtain ⟨hg, hconstraints⟩ := construct_eq_next.1 hc
  dsimp only at h
  split_ifs at h with hlen hfit
  cases h
  exact ⟨c, hg, hconstraints, Nat.not_lt.1 hlen, hfit, rfl⟩

theorem wf_loadImage {c : Config} {ws : List Word} (hlen : ws.length ≤ c.memWords) :
    Memory.wf c.memFill c.memWords (loadImage c ws) :=
  Memory.wf_writeBlock ws Memory.wf_nil (by omega)

/-- Memory after the load: the image, and `MEM_FILL` above it (R40). -/
theorem memWord_loadImage (c : Config) (ws : List Word) (a : Nat) :
    (State.resetWith c (loadImage c ws)).memWord a = ws.getD a c.memFill := by
  refine (Memory.read_writeBlock ws).trans ?_
  by_cases ha : a < ws.length
  · rw [if_pos ⟨Nat.zero_le a, by omega⟩, Nat.sub_zero, List.getD_eq_getElem _ _ ha, List.getD_eq_getElem _ _ ha]
  · rw [if_neg (by omega), List.getD_eq_default _ _ (Nat.not_lt.1 ha)]
    rfl

theorem reportAtHalt_resetWith (c : Config) (m : Memory) : ReportAtHalt (State.resetWith c m) := by
  simp [ReportAtHalt, State.resetWith]

end Sys2Proof.Machine

namespace Sys2Proof.Proofs

open Sys2Proof.Machine

/-- Settles O47: the reference configuration is well formed, and its memory is empty. -/
theorem resetStateIsInOrder : Obligations.ResetStateIsInOrder :=
  ⟨inv_resetWith (by decide) Memory.wf_nil, rfl, reportAtHalt_resetWith _ _⟩

/-- Settles O48: boot answers a reset state over the loaded image, with no line valid. -/
theorem bootGivesAStateInOrder : Obligations.BootGivesAStateInOrder := by
  intro g ws s h
  obtain ⟨c, rfl, hc, hlen, -, rfl⟩ := boot_eq_next h
  exact ⟨inv_resetWith (decide_eq_true hc) (wf_loadImage hlen), rfl, reportAtHalt_resetWith _ _, rfl, rfl, rfl, rfl, rfl,
    rfl, memWord_loadImage c ws, fun a => logical_of_holder_none (holder_resetWith ..)⟩

/-- Settles O49: construction answers for the inputs that supply a configuration within the constraints, and each of
its tests fails with a ConfigurationError. -/
theorem configurationIsChecked : Obligations.ConfigurationIsChecked := by
  refine fun g => ⟨⟨?_, ?_⟩, construct_answers g, fun hxlen => ?_,
    fun b e n => construct_of_bad_xlen, fun f => boot_of_construct_fault, fun c => boot_without_image⟩
  · rintro ⟨c, hc⟩
    obtain ⟨rfl, hA, hxlen, ⟨hmem, hmem'⟩, ⟨hregs, hregs'⟩, hopc, hinit, hfill⟩ := construct_eq_next.1 hc
    exact ⟨⟨_, rfl⟩, ⟨_, rfl⟩, ⟨_, rfl, hA⟩, hxlen, hmem, hmem', hregs, hregs', hopc, hinit, hfill⟩
  · obtain ⟨B, S, A, xlen, memWords, numRegs, regInit, memFill, opc⟩ := g
    rintro ⟨⟨b, rfl⟩, ⟨e, rfl⟩, ⟨n, rfl, hA⟩, hxlen, hmem, hmem', hregs, hregs', hopc, hinit, hfill⟩
    exact ⟨⟨b, e, n, xlen, memWords, numRegs, regInit, memFill, opc⟩,
      construct_eq_next.2 ⟨rfl, hA, hxlen, ⟨hmem, hmem'⟩, ⟨hregs, hregs'⟩, hopc, hinit, hfill⟩⟩
  · refine (construct_answers g).resolve_left ?_
    rintro ⟨c, hc⟩
    obtain ⟨rfl, -, hge, -⟩ := construct_eq_next.1 hc
    exact absurd hge (Nat.not_le.2 hxlen)

end Sys2Proof.Proofs
end

section
/-! The width of words along runs (00_scope.md, section 4): reset and boot give words of `XLEN` bits, and every
instruction, fetch and step keeps them. -/

namespace Sys2Proof.Machine

theorem wordsFit_resetWith {c : Config} {m : Memory} (hc : c.constraints) (hm : ∀ cell ∈ m, fitsWord c cell.2) :
    WordsFit (State.resetWith c m) := by
  obtain ⟨-, -, -, -, -, hinit, -⟩ := hc
  refine ⟨hm, fun ls hls l hl v hv => ?_, fun v hv => ?_, Nat.two_pow_pos _, nofun⟩
  · obtain rfl := List.eq_of_mem_replicate hls
    obtain rfl := List.eq_of_mem_replicate hl
    obtain rfl := List.eq_of_mem_replicate hv
    exact Nat.two_pow_pos _
  · obtain rfl := List.eq_of_mem_replicate hv
    exact hinit

theorem applyReset_keeps_words {s : State} (hc : s.cfg.wf) (h : WordsFit s) : WordsFit (applyReset s) := by
  obtain ⟨hmem, -⟩ := h
  exact wordsFit_resetWith (of_decide_eq_true hc) hmem

theorem fits_loadImage {c : Config} {ws : List Word} (hws : ∀ w ∈ ws, w < 2 ^ c.xlen) :
    ∀ cell ∈ loadImage c ws, fitsWord c cell.2 :=
  fits_writeBlock ws nofun hws

theorem WordsFit.withPc {s : State} (h : WordsFit s) {p : Word} (hp : fitsWord s.cfg p) :
    WordsFit { s with pc := p } := by
  obtain ⟨hmem, hlines, hx, -, hresp⟩ := h
  exact ⟨hmem, hlines, hx, hp, hresp⟩

/-- Every instruction whose operands fit keeps the width of words. -/
theorem exec_keeps_words {i : Instr} {s t : State} (hc : s.cfg.wf) (hi : i.operandsFit s.cfg.xlen = true)
    (h : WordsFit s) (ht : exec i s = .next t) : WordsFit t := by
  cases i with
  | ifetch a =>
    obtain ⟨r, hr, rfl⟩ := exec_ifetch_eq_next.1 ht
    exact (h.ccRead hc (ccRead_eq_next.2 ⟨r, hr, rfl⟩)).1
  | load a =>
    obtain ⟨r, hr, rfl⟩ := exec_load_eq_next.1 ht
    exact (h.ccRead hc (ccRead_eq_next.2 ⟨r, hr, rfl⟩)).1
  | store a v =>
    obtain ⟨-, hv⟩ := Bool.and_eq_true_iff.1 hi
    exact h.ccStore hc (of_decide_eq_true hv) ht
  | flush => exact h.ccFlush ht
  | add f0 f1 f2 =>
    obtain ⟨-, -, rfl⟩ := exec_add_eq_next.1 ht
    exact h.advancePc.putReg (wrap_lt ..)
  | nand f0 f1 f2 =>
    obtain ⟨-, -, rfl⟩ := exec_nand_eq_next.1 ht
    exact h.advancePc.putReg (BitVec.isLt _)
  | lw f0 f1 f2 =>
    obtain ⟨-, -, y, hy, rfl⟩ := exec_lw_eq_next.1 ht
    obtain ⟨hwords, hword, hcfg⟩ := WordsFit.ccRead (s := advancePc s) hc h.advancePc hy
    exact hwords.putReg (hcfg ▸ hword)
  | sw f0 f1 f2 =>
    obtain ⟨-, -, ht⟩ := exec_sw_eq_next.1 ht
    exact WordsFit.ccStore (s := advancePc s) hc h.advancePc (fits_reg h f0.toNat) ht
  | beq f0 f1 f2 =>
    obtain ⟨-, -, rfl⟩ := exec_beq_eq_next.1 ht
    split
    · exact h.advancePc.withPc (wrapInt_lt ..)
    · exact h.advancePc
  | jalr f0 f1 =>
    obtain ⟨-, -, rfl⟩ := exec_jalr_eq_next.1 ht
    have hlinked : WordsFit (linked f0 s) := h.advancePc.putReg (wrap_lt ..)
    exact hlinked.withPc (fits_reg hlinked f1.toNat)
  | halt => exact h.ccFlush (exec_halt_eq ▸ ht)
  | noop =>
    obtain ⟨-, rfl⟩ := exec_noop_eq_next.1 ht
    exact h.advancePc

/-- The fetch keeps the width of words, and its instruction has operands that fit. -/
theorem fetchNext_keeps_words {s : State} {f : Fetched} (hc : s.cfg.wf) (h : WordsFit s)
    (hf : fetchNext s = .next f) : WordsFit f.state ∧ f.instr.operandsFit s.cfg.xlen = true := by
  obtain ⟨-, y, hy, hi, hstate⟩ | ⟨c, rest, -, hi, hstate⟩ := fetchNext_eq_next.1 hf <;> rw [hstate]
  · obtain ⟨hwords, -⟩ := h.ccRead hc hy
    obtain ⟨o, heq, -⟩ := decodeWord_eq_ok hi
    exact ⟨hwords, heq ▸ assemble_operandsFit ..⟩
  · exact ⟨h, hi ▸ decodeCommand_operandsFit ..⟩

theorem step_keeps_words {s t : State} (hc : s.cfg.wf) (h : WordsFit s) (ht : step s = .next t) : WordsFit t := by
  obtain ⟨-, rfl⟩ | ⟨-, f, hf, hexec⟩ := step_eq_next.1 ht
  · exact applyReset_keeps_words hc h
  · obtain ⟨hwords, hfit⟩ := fetchNext_keeps_words hc h hf
    obtain ⟨hcfg, -⟩ := fetchNext_keeps_attachment hf
    rw [← hcfg] at hc hfit
    exact exec_keeps_words hc hfit hwords hexec

end Sys2Proof.Machine

namespace Sys2Proof.Proofs

open Sys2Proof.Machine

/-- Settles O50: reset and boot start from words that fit, and every instruction writes words reduced to `XLEN` bits or
words that were in the machine. -/
theorem wordsKeepTheirWidth : Obligations.WordsKeepTheirWidth := by
  refine ⟨wordsFit_resetWith (c := .reference) (by decide) nofun, fun g ws s hs => ?_,
    fun s t i => exec_keeps_words, fun s t => step_keeps_words⟩
  obtain ⟨c, -, hc, -, hws, rfl⟩ := boot_eq_next hs
  exact wordsFit_resetWith hc (fits_loadImage hws)

end Sys2Proof.Proofs
end
